-- ==== Sys2Proof/Word.lean ====
section
/-! DEFINITION. The word types, the phase index and the plain names every other file uses. -/

namespace Sys2Proof

/-- A 32-bit register or command word (20_memory.md R64, R70; 30_encoding.md R84). -/
abbrev Word := BitVec 32

/-- One byte lane of the platform bus (20_memory.md R70). -/
abbrev Byte := BitVec 8

/-- The index `k` of a phase channel: 0, 1 or 2 (00_scope.md R18). -/
inductive Phase where
  | p0
  | p1
  | p2
  deriving DecidableEq, Repr, Inhabited

/-- The phases in the order `for k in [0, 1, 2]`. -/
def Phase.all : List Phase := [.p0, .p1, .p2]

/-- `uint` of the phase number. -/
def Phase.toNat : Phase → Nat
  | .p0 => 0
  | .p1 => 1
  | .p2 => 2

/-- One copy of a thing per phase: the spec's `REG[k]` (00_scope.md R15). -/
structure PerPhase (α : Type) where
  /-- The copy of phase 0. -/
  p0 : α
  /-- The copy of phase 1. -/
  p1 : α
  /-- The copy of phase 2. -/
  p2 : α
  deriving DecidableEq, Repr, Inhabited

namespace PerPhase

/-- `REG[k]`. -/
def get {α : Type} (r : PerPhase α) : Phase → α
  | .p0 => r.p0
  | .p1 => r.p1
  | .p2 => r.p2

/-- `REG[k] <- v`. -/
def set {α : Type} (r : PerPhase α) (k : Phase) (v : α) : PerPhase α :=
  match k with
  | .p0 => { r with p0 := v }
  | .p1 => { r with p1 := v }
  | .p2 => { r with p2 := v }

/-- The same value in each phase's copy. -/
def const {α : Type} (v : α) : PerPhase α := ⟨v, v, v⟩

end PerPhase

/-- The tasks of one foreground-loop iteration (10_state.md R35, 42_inverter.md R145): `SCALER`,
and `A0`, `A1`, `A2` as the apply of a phase. -/
inductive Task where
  | scaler
  | apply (k : Phase)
  deriving DecidableEq, Repr, Inhabited

/-- The causes of an error bit, in the order of their bits in `ERR` (10_state.md R54,
60_exceptions.md R188). -/
inductive CmdError where
  | illegalOp
  | rsvField
  | badPhase
  | busy
  | notInit
  | alreadyInit
  | badIndex
  | range
  | bus
  deriving DecidableEq, Repr

/-- A step some agent of 10_state.md R20 may take; which one is taken next is a draw. -/
inductive AgentStep where
  /-- The host's next register access (a command, if it is a write to `CMD`). -/
  | host
  /-- `SEQ_START` (42_inverter.md R148). -/
  | seqStart
  /-- `SEQ_TASK(t)` (42_inverter.md R148). -/
  | seqTask (t : Task)
  /-- `ISR_ENTRY` (43_completion_handler.md R165). -/
  | isrEntry
  /-- `ISR_MARK_ACK` (43_completion_handler.md R166). -/
  | isrMarkAck
  /-- `EV_PERIOD(k)` (43_completion_handler.md R164). -/
  | evPeriod (k : Phase)
  /-- `EV_FOREIGN(b)` (43_completion_handler.md R164). -/
  | evForeign (b : Fin 32)
  /-- `RESET` (70_reset_and_hazards.md R210). -/
  | reset
  deriving DecidableEq, Repr, Inhabited

end Sys2Proof
end

