-- ==== Sys2Proof/Syntax.lean ====
section
/-! DEFINITION. The command set SDE-CMD v1: one constructor per row of spec/opcode_table.json. -/

namespace Sys2Proof

/-- A command word with its opcode read and its operand field cut out (30_encoding.md R86, R87).
The phase field keeps its two bits: 3 is an ill-formed operand (`BAD_PHASE`, R89; entry 19), not a phase. -/
inductive Instr where
  /-- `NOP` (42_inverter.md R149). -/
  | nop
  /-- `TBL_READ #i`, form INDEX (40_sine_table.md R112). -/
  | tblRead (imm : BitVec 12)
  /-- `PH_INIT pK`, form PHASE (41_phase_channel.md R120). -/
  | phInit (ph : BitVec 2)
  /-- `PH_APPLY pK`, form PHASE (41_phase_channel.md R125). -/
  | phApply (ph : BitVec 2)
  /-- `PH_SET_CARRIER pK`, form PHASE with the operand in `ARG` (41_phase_channel.md R128). -/
  | phSetCarrier (ph : BitVec 2)
  /-- `INV_INIT` (42_inverter.md R140). -/
  | invInit
  /-- `INV_UPDATE_FS #s`, form SCALE (42_inverter.md R143). -/
  | invUpdateFs (imm : BitVec 16)
  /-- `SCALER_CHECK` (44_analog_scaler.md R176). -/
  | scalerCheck
  /-- `FG_ITER` (42_inverter.md R146). -/
  | fgIter
  /-- `ADC_INIT` (42_inverter.md R150). -/
  | adcInit
  deriving DecidableEq, Repr

end Sys2Proof
end

