-- ==== Sys2Proof/WellFormed.lean ====
section
/-! DEFINITION. Which instructions are well formed: those some command word encodes. -/

namespace Sys2Proof

/-- `PH` is 0, 1 or 2; 3 is never a valid phase (30_encoding.md R84, R89). -/
def phaseField (ph : BitVec 2) : Bool := ph != 3#2

/-- A well-formed instruction: its phase operand, where it has one, is a phase. Every value of the
immediates `IMM[11:0]` and `IMM[15:0]` is a word the encoding admits (30_encoding.md R87); whether
an index or a scale is in range is the command's own check (40_sine_table.md R112, 42_inverter.md
R143). -/
def Instr.wf : Instr → Bool
  | .nop => true
  | .tblRead _ => true
  | .phInit ph => phaseField ph
  | .phApply ph => phaseField ph
  | .phSetCarrier ph => phaseField ph
  | .invInit => true
  | .invUpdateFs _ => true
  | .scalerCheck => true
  | .fgIter => true
  | .adcInit => true

end Sys2Proof
end

