-- ==== Sys2Proof/Decode.lean ====
section
/-! DEFINITION. Command words: the decoder (total, refusing by the spec's error names), the byte
lanes of a word, and the encoder. Both directions are written from 30_encoding.md R84 to R92. -/

namespace Sys2Proof

/-- The four operand forms (30_encoding.md R87). -/
inductive Form where
  | none
  | phase
  | index
  | scale
  deriving DecidableEq, Repr

/-- The must-be-zero mask of a form (30_encoding.md R87). -/
def Form.mustBeZero : Form → Word
  | .none => 0x0FFFFFFF#32
  | .phase => 0x03FFFFFF#32
  | .index => 0x0FFFF000#32
  | .scale => 0x0FFF0000#32

/-- The field `OP = w[31:28]` (30_encoding.md R84). -/
def opField (w : Word) : BitVec 4 := w.extractLsb' 28 4

/-- The field `PH = w[27:26]` (30_encoding.md R84). -/
def phField (w : Word) : BitVec 2 := w.extractLsb' 26 2

/-- The index operand `w[11:0]` (30_encoding.md R87, R89). -/
def indexField (w : Word) : BitVec 12 := w.extractLsb' 0 12

/-- The scale operand `w[15:0]` (30_encoding.md R87, R89). -/
def scaleField (w : Word) : BitVec 16 := w.extractLsb' 0 16

/-- The opcode map (30_encoding.md R86): the form and the instruction each opcode selects, `none`
for the reserved opcodes 0xA to 0xF. -/
def opcodeRow (w : Word) : Option (Form × Instr) :=
  match (opField w).toNat with
  | 0x0 => some (.none, .nop)
  | 0x1 => some (.index, .tblRead (indexField w))
  | 0x2 => some (.phase, .phInit (phField w))
  | 0x3 => some (.phase, .phApply (phField w))
  | 0x4 => some (.phase, .phSetCarrier (phField w))
  | 0x5 => some (.none, .invInit)
  | 0x6 => some (.scale, .invUpdateFs (scaleField w))
  | 0x7 => some (.none, .scalerCheck)
  | 0x8 => some (.none, .fgIter)
  | 0x9 => some (.none, .adcInit)
  | _ => none

/-- Decode a command word in the check order of 60_exceptions.md R187: a reserved opcode is
`ILLEGAL_OP`, then a 1 in the form's must-be-zero bits is `RSV_FIELD`, then `PH = 3` in a phase
command is `BAD_PHASE` (30_encoding.md R88, R89, R91). -/
def decode (w : Word) : Except CmdError Instr :=
  match opcodeRow w with
  | none => .error .illegalOp
  | some (form, i) =>
    if w &&& form.mustBeZero = 0#32 then
      if i.wf then .ok i else .error .badPhase
    else .error .rsvField

/-- The word on four byte lanes, lane `j` carrying bits `[8j+7 : 8j]` (20_memory.md R70). -/
def lanesOfWord (w : Word) : List Byte :=
  [w.extractLsb' 0 8, w.extractLsb' 8 8, w.extractLsb' 16 8, w.extractLsb' 24 8]

/-- The word that four byte lanes carry; no other number of lanes is a word (20_memory.md R66,
R70). -/
def wordOfLanes : List Byte → Option Word
  | [b0, b1, b2, b3] => some (b3 ++ b2 ++ b1 ++ b0)
  | _ => none

/-- Decode a command from the byte lanes of the word written to `CMD`. -/
def decodeLanes (bs : List Byte) : Option Instr :=
  match wordOfLanes bs with
  | none => none
  | some w =>
    match decode w with
    | .ok i => some i
    | .error _ => none

/-- The instruction the decoder reads from a command whose bits are `w` (bit 0 the least
significant), laid out on the four byte lanes of the register port. Every command is one 32-bit
word (30_encoding.md R92), so bits from `nbits` up to 32 are 0 and nothing longer is a command. -/
def decodeTableWord (nbits w : Nat) : Option Instr :=
  if nbits ≤ 32 then decodeLanes (lanesOfWord (BitVec.ofNat 32 (w % 2 ^ nbits)))
  else none

/-- A phase field at its place, `k << 26` (30_encoding.md R84). -/
def placePh (ph : BitVec 2) : Word := ph.setWidth 32 <<< 26

/-- The command word of an instruction: its opcode with its phase or immediate put in, every other bit
0 (30_encoding.md R84, R86, R87). -/
def encode : Instr → Word
  | .nop => 0x00000000#32
  | .tblRead imm => 0x10000000#32 ||| imm.setWidth 32
  | .phInit ph => 0x20000000#32 ||| placePh ph
  | .phApply ph => 0x30000000#32 ||| placePh ph
  | .phSetCarrier ph => 0x40000000#32 ||| placePh ph
  | .invInit => 0x50000000#32
  | .invUpdateFs imm => 0x60000000#32 ||| imm.setWidth 32
  | .scalerCheck => 0x70000000#32
  | .fgIter => 0x80000000#32
  | .adcInit => 0x90000000#32

end Sys2Proof
end

