-- ==== Sys2Proof/Config.lean ====
section
/-! DEFINITION. The parameters of the block (00_scope.md R5 to R14), the check that admits a
configuration, the values the spec leaves open as constants with no body, and the defaults. -/

namespace Sys2Proof

/-- The parameters, as raw data (00_scope.md R5 to R14). Identifiers, delays and modes are only
copied into transactions, never interpreted (R11), so each is a plain number. -/
structure Params where
  /-- `N`, the table length (R5). -/
  n : Nat
  /-- `SINE_TABLE`, UQ8.8 percent (R6). -/
  table : List (BitVec 16)
  /-- `MIN_FREQ`, hertz (R7). -/
  minFreq : Nat
  /-- `MAX_FREQ`, hertz (R7). -/
  maxFreq : Nat
  /-- `SAMPLE_PERIOD_US` (R8). -/
  samplePeriod : BitVec 64
  /-- `ADC_BITS` (R9). -/
  adcBits : Nat
  /-- `CARRIER_DEFAULT`, UQ24.8 hertz (R10). -/
  carrierDefault : Word
  /-- `UNIT` (R11). -/
  unit : Nat
  /-- `TIMER[k]` (R11). -/
  timer : PerPhase Nat
  /-- `HI_SIG[k]` (R11). -/
  hiSig : PerPhase Nat
  /-- `LO_SIG[k]` (R11). -/
  loSig : PerPhase Nat
  /-- `HI_PIN[k]` (R11). -/
  hiPin : PerPhase Nat
  /-- `LO_PIN[k]` (R11). -/
  loPin : PerPhase Nat
  /-- `RISE_DELAY[k]` (R11). -/
  riseDelay : PerPhase Nat
  /-- `FALL_DELAY[k]` (R11). -/
  fallDelay : PerPhase Nat
  /-- `DT_MODE` (R11). -/
  dtMode : Nat
  /-- `COUNTER_MODE` (R11). -/
  counterMode : Nat
  /-- `DUTY_MODE` (R11). -/
  dutyMode : Nat
  /-- `OP_A`, the high-side compare operator (R11). -/
  opA : Nat
  /-- `OP_B`, the low-side compare operator (R11, R131: no transaction after init names it). -/
  opB : Nat
  /-- `ADC_CH` (R11). -/
  adcCh : Nat
  /-- `ADC_ATTEN` (R11). -/
  adcAtten : Nat
  /-- `IRQ_BIT[k]` (R12). -/
  irqBit : PerPhase (Fin 32)
  /-- `FOREIGN_IRQ_MASK` (R12). -/
  foreignMask : Word
  /-- `PRESENT[k]` (R13). -/
  present : PerPhase Bool
  /-- `LAST_T_INIT` (R14). -/
  lastTInit : BitVec 64
  /-- `SDE_BASE` (R14, R65). -/
  sdeBase : Nat
  deriving DecidableEq, Repr

/-- The three copies differ from one another. -/
def PerPhase.distinct {α : Type} [DecidableEq α] (r : PerPhase α) : Bool :=
  r.p0 != r.p1 && r.p0 != r.p2 && r.p1 != r.p2

/-- The table constraints of 40_sine_table.md R111: `N` entries, each at most 25600 (100.0
percent), and entry 0 is 12800 (50.0 percent). -/
def Params.tableOk (p : Params) : Bool :=
  p.table.length == p.n && p.table.all (fun t => t.toNat ≤ 25600) && p.table[0]? == some 12800#16

/-- The ranges of 00_scope.md R5 to R14: a configuration outside them is no block. -/
def Params.ok (p : Params) : Bool :=
  (1 ≤ p.n && p.n ≤ 4095) && p.tableOk
    && (p.minFreq ≤ p.maxFreq && p.maxFreq ≤ 16777215 && p.maxFreq * 256 * p.n ≤ 4294967295)
    && (1 ≤ p.adcBits && p.adcBits ≤ 16)
    && p.timer.distinct
    && (p.irqBit.distinct && !p.foreignMask.getLsbD p.irqBit.p0
        && !p.foreignMask.getLsbD p.irqBit.p1 && !p.foreignMask.getLsbD p.irqBit.p2)
    && p.sdeBase % 256 == 0

/-- A configuration of the block: parameters within their ranges. A configuration outside them
cannot be built ("no such block exists", R7, R111). -/
structure Config extends Params where
  /-- The parameters are within the ranges of R5 to R14. -/
  admitted : toParams.ok = true
  deriving DecidableEq, Repr

/-- `ADC_MAX = 2^ADC_BITS - 1` (R9). -/
def Params.adcMax (p : Params) : Nat := 2 ^ p.adcBits - 1

/-! ### Free values

Constants with no body: nothing proves a value of them. -/

/-- The agent step drawn at the `n`-th draw when State lists none (10_state.md R20, 60_exceptions.md
R193; entry 4). -/
opaque Config.freeAgent : Nat → AgentStep

/-- The time port's answer at the `n`-th draw when State lists none, before the constraint
`now >= NOW_PREV` is put on it (20_memory.md R76; entry 6). -/
opaque Config.freeTime : Nat → BitVec 64

/-- The ADC's answer at the `n`-th draw when State lists none, before it is brought into
`[0, ADC_MAX]` (20_memory.md R75; entry 7). -/
opaque Config.freeSample : Nat → BitVec 16

/-- The number of the order drawn at the `n`-th draw when State lists none (42_inverter.md R140,
R146; entry 8). -/
opaque Config.freeOrder : Nat → Nat

/-- `CARRIER_DEFAULT`, OPEN (00_scope.md R10; entry 2). -/
opaque Config.openCarrierDefault : Word

/-- `UNIT`, OPEN (00_scope.md R11; entry 2). -/
opaque Config.openUnit : Nat

/-- `HI_SIG`, OPEN (00_scope.md R11; entry 2). -/
opaque Config.openHiSig : PerPhase Nat

/-- `LO_SIG`, OPEN (00_scope.md R11; entry 2). -/
opaque Config.openLoSig : PerPhase Nat

/-- `HI_PIN`, OPEN (00_scope.md R11; entry 2). -/
opaque Config.openHiPin : PerPhase Nat

/-- `LO_PIN`, OPEN (00_scope.md R11; entry 2). -/
opaque Config.openLoPin : PerPhase Nat

/-- `RISE_DELAY`, OPEN (00_scope.md R11; entry 2). -/
opaque Config.openRiseDelay : PerPhase Nat

/-- `FALL_DELAY`, OPEN (00_scope.md R11; entry 2). -/
opaque Config.openFallDelay : PerPhase Nat

/-- `DT_MODE`, OPEN (00_scope.md R11; entry 2). -/
opaque Config.openDtMode : Nat

/-- `COUNTER_MODE`, OPEN (00_scope.md R11; entry 2). -/
opaque Config.openCounterMode : Nat

/-- `DUTY_MODE`, OPEN (00_scope.md R11; entry 2). -/
opaque Config.openDutyMode : Nat

/-- `OP_A`, OPEN (00_scope.md R11; entry 2). -/
opaque Config.openOpA : Nat

/-- `OP_B`, OPEN (00_scope.md R11; entry 2). -/
opaque Config.openOpB : Nat

/-- `ADC_CH`, OPEN (00_scope.md R11; entry 2). -/
opaque Config.openAdcCh : Nat

/-- `ADC_ATTEN`, OPEN (00_scope.md R11; entry 2). -/
opaque Config.openAdcAtten : Nat

/-! ### Defaults -/

/-- `T_REF33`, the reference table of the spec's examples and vectors (40_sine_table.md R113).
It is not the hardware's table; DESIGN CHOICE that `State.reset` uses it (entry 1). -/
def Config.tRef33 : List (BitVec 16) :=
  [12800, 15222, 17557, 19720, 21633, 23227, 24443, 25239, 25586, 25470, 24896]
    ++ [23885, 22474, 20712, 18665, 16406, 14017, 11583, 9194, 6935, 4888, 3126]
    ++ [1715, 704, 130, 14, 361, 1157, 2373, 3967, 5880, 8043, 10378]

/-- The defaults of 00_scope.md R5 to R14, the reference table, and a free constant for each OPEN
parameter. The timers, which R11 wants pairwise distinct, carry the names 0, 1, 2 and the window
stands at 0: DESIGN CHOICE (entries 1 and 2). -/
def Config.defaultParams : Params where
  n := 33
  table := Config.tRef33
  minFreq := 40
  maxFreq := 60
  samplePeriod := 1000000
  adcBits := 12
  carrierDefault := Config.openCarrierDefault
  unit := Config.openUnit
  timer := ⟨0, 1, 2⟩
  hiSig := Config.openHiSig
  loSig := Config.openLoSig
  hiPin := Config.openHiPin
  loPin := Config.openLoPin
  riseDelay := Config.openRiseDelay
  fallDelay := Config.openFallDelay
  dtMode := Config.openDtMode
  counterMode := Config.openCounterMode
  dutyMode := Config.openDutyMode
  opA := Config.openOpA
  opB := Config.openOpB
  adcCh := Config.openAdcCh
  adcAtten := Config.openAdcAtten
  irqBit := ⟨0, 1, 2⟩
  foreignMask := 0
  present := ⟨true, true, true⟩
  lastTInit := 0
  sdeBase := 0

/-- The configuration `State.reset` is given (entries 1 and 2). -/
def Config.default : Config where
  toParams := Config.defaultParams
  admitted := by decide

end Sys2Proof
end

