-- ==== Sys2Proof/Machine/Arith.lean ====
section
/-! DEFINITION. The arithmetic laws of the block on mathematical integers (00_scope.md R15), and the
orders a draw may select. -/

namespace Sys2Proof.Machine

/-- `OFFSET[k] = fdiv(k * N, 3)` (10_state.md R23). -/
def cursorOffset (n : Nat) (k : Phase) : BitVec 12 := BitVec.ofNat 12 (k.toNat * n / 3)

/-- The cursor advanced by one, wrapping to 0 at `N` (41_phase_channel.md R125). -/
def cursorNext (n : Nat) (c : BitVec 12) : BitVec 12 := BitVec.ofNat 12 ((c.toNat + 1) % n)

/-- `DutyLaw(t, s)`: the deviation of the table value from 50 percent, scaled, rounded half toward
plus infinity and centred again (41_phase_channel.md R122). `Int` division by a positive number is
`fdiv`. -/
def dutyLaw (t s : BitVec 16) : BitVec 16 :=
  let d : Int := (t.toNat : Int) - 12800
  let q : Int := (d * (s.toNat : Int) + 16384) / 32768
  BitVec.ofInt 16 (12800 + q)

/-- `ElecLaw(s)`, UQ24.8 hertz (42_inverter.md R141). -/
def elecLaw (p : Params) (s : Nat) : Word :=
  BitVec.ofNat 32 (p.minFreq * 256 + ((p.maxFreq - p.minFreq) * s + 64) / 128)

/-- The carrier of an electrical frequency, `ELEC_FREQ * N` (42_inverter.md R141, R143). -/
def carrierOf (p : Params) (elec : Word) : Word := BitVec.ofNat 32 (elec.toNat * p.n)

/-- `CarrierLaw(s)` (42_inverter.md R141). -/
def carrierLaw (p : Params) (s : Nat) : Word := carrierOf p (elecLaw p s)

/-- `Norm(raw)`, UQ1.15 (44_analog_scaler.md R175). -/
def norm (p : Params) (raw : Nat) : BitVec 16 :=
  BitVec.ofNat 16 ((2 * raw * 32768 + p.adcMax) / (2 * p.adcMax))

/-- `x` put into a list before its `i`-th element (at the end, if the list is shorter). -/
def insertAt {α : Type} (x : α) : Nat → List α → List α
  | _, [] => [x]
  | 0, y :: ys => x :: y :: ys
  | i + 1, y :: ys => y :: insertAt x i ys

/-- The order of the four tasks that the number `d` selects; the numbers 0 to 23 select the 24
orders (42_inverter.md R146). -/
def taskOrder (d : Nat) : List Task :=
  insertAt .scaler (d % 4)
    (insertAt (.apply .p0) (d / 4 % 3) (insertAt (.apply .p1) (d / 12 % 2) [.apply .p2]))

/-- The order of the three channel inits that the number `d` selects; the numbers 0 to 5 select the
6 orders (42_inverter.md R140). -/
def initOrder (d : Nat) : List Phase :=
  insertAt .p0 (d % 3) (insertAt .p1 (d / 3 % 2) [.p2])

end Sys2Proof.Machine
end

