-- ==== Sys2Proof/Machine/State.lean ====
section
/-! DEFINITION. The state of the machine: the block's registers, its port logs, the external state
a model must carry, the configuration, and the inputs still to come. Plain data throughout. -/

namespace Sys2Proof.Machine

/-- A PWM-port transaction (20_memory.md R74, 30_encoding.md R97), fields in the spec's order. -/
inductive PwmTx where
  /-- `BIND_PIN`, tag 0x01. -/
  | bindPin (unit signal pin : Nat)
  /-- `CONFIGURE`, tag 0x02. -/
  | configure (unit timer : Nat) (freq : Word) (dutyA dutyB : BitVec 16)
      (counterMode dutyMode : Nat)
  /-- `ENABLE_DEADTIME`, tag 0x03. -/
  | enableDeadtime (unit timer mode rise fall : Nat)
  /-- `ENABLE_PERIOD_INT`, tag 0x04. -/
  | enablePeriodInt (unit timer : Nat)
  /-- `START`, tag 0x05. -/
  | start (unit timer : Nat)
  /-- `REGISTER_HANDLER`, tag 0x06. -/
  | registerHandler (unit : Nat)
  /-- `SET_FREQUENCY`, tag 0x07. -/
  | setFrequency (unit timer : Nat) (hz : Word)
  /-- `SET_DUTY`, tag 0x08. -/
  | setDuty (unit timer operator : Nat) (percent : BitVec 16)
  /-- `READ_STATUS` with the mask it returned, tag 0x09. -/
  | readStatus (unit : Nat) (mask : Word)
  /-- `CLEAR_STATUS`, tag 0x0A. -/
  | clearStatus (unit : Nat) (mask : Word)
  deriving DecidableEq, Repr

/-- An ADC-port transaction (20_memory.md R75, 30_encoding.md R98). -/
inductive AdcTx where
  /-- `CONFIGURE_RESOLUTION`, tag 0x01. -/
  | configureResolution (bits : BitVec 5)
  /-- `CONFIGURE_INPUT_RANGE`, tag 0x02. -/
  | configureInputRange (channel attenuation : Nat)
  /-- `READ_RAW` with the value it returned, tag 0x03. -/
  | readRaw (channel : Nat) (raw : BitVec 16)
  deriving DecidableEq, Repr

/-- One access of the host on the platform bus: an address and a width in bytes (20_memory.md R65,
R66). A write carries the value of a 32-bit access; of any other width nothing is stored (R66; entry
16). -/
inductive HostAccess where
  /-- `MemRead`. -/
  | read (addr bytes : Nat)
  /-- `MemWrite`. -/
  | write (addr bytes : Nat) (value : Word)
  deriving DecidableEq, Repr

/-- The environment's answers to one step, each for the read or choice of its kind that the step makes:
a step reads the time port, the ADC and an order at most once each. MODEL's own (entries 6, 7, 8). -/
structure Answers where
  /-- The time port's answer (20_memory.md R76). -/
  time : Option (BitVec 64)
  /-- The ADC's answer (20_memory.md R75). -/
  sample : Option (BitVec 16)
  /-- The number of the drawn order (42_inverter.md R140, R146). -/
  order : Option Nat
  deriving DecidableEq, Repr

/-- One turn of a schedule: which agent steps (10_state.md R20), and the answers to that step alone. -/
structure Turn where
  /-- The agent's step. -/
  agent : AgentStep
  /-- What the environment answers it. -/
  answers : Answers
  deriving DecidableEq, Repr

/-- The draws. MODEL's own (entries 4, 6, 7, 8, 12): plain data, so a statement about all states is
about all draws. -/
structure Draws where
  /-- The turns still to come, first one first. -/
  turns : List Turn
  /-- The answers of the turn being taken that its step has not used. -/
  answers : Answers
  /-- How many draws were made: the free constants of `Config` are applied to it. -/
  count : Nat
  deriving DecidableEq, Repr

/-- The registers of one phase channel (10_state.md R23 to R27). -/
structure PhaseRegs where
  /-- `CURSOR[k]` (R23). -/
  cursor : BitVec 12
  /-- `PENDING[k]` (R24). -/
  pending : Bool
  /-- `CH_INIT[k]` (R25). -/
  chInit : Bool
  /-- `DUTY[k]`, UQ8.8 percent (R26). -/
  duty : BitVec 16
  /-- `FREQ[k]`, UQ24.8 hertz (R27). -/
  freq : Word
  deriving DecidableEq, Repr

/-- Why the machine stops. The block itself has no trap (60_exceptions.md R185). -/
inductive Fault where
  /-- A host access at an address outside `SDE_BASE .. SDE_BASE + 0xFF`: no register of the block is
  there (20_memory.md R65). Raised by the host's step. SAFE: the model stops where another device
  would answer (entry 13). -/
  | outsideWindow
  deriving DecidableEq, Repr

/-- Why an instruction has no meaning. -/
inductive Refusal where
  /-- The instruction has no meaning in the model yet. Raised by `exec`'s refused arms, of which
  there is none. SAFE. -/
  | notModelled (mnemonic : String)
  deriving DecidableEq, Repr

/-- The machine's state (10_state.md). -/
structure State where
  /-- The block's parameters, which no step writes (00_scope.md R5 to R14, 10_state.md R21;
  entry 3). -/
  cfg : Config
  /-- The per-phase registers (R23 to R27). -/
  ph : PerPhase PhaseRegs
  /-- `SCALE`, UQ1.15 (R28). -/
  scale : BitVec 16
  /-- `ELEC_FREQ`, UQ24.8 hertz (R29). -/
  elecFreq : Word
  /-- `CARRIER`, UQ24.8 hertz (R30). -/
  carrier : Word
  /-- `HANDLER_REG` (R31). -/
  handlerReg : Bool
  /-- `LAST_T`, microseconds (R32). -/
  lastT : BitVec 64
  /-- `ISR_ACTIVE` (R33). -/
  isrActive : Bool
  /-- `ISR_M` (R34). -/
  isrM : Word
  /-- `FG_TODO`: bit 0 SCALER, bits 1 to 3 A0 to A2 (R35). -/
  fgTodo : BitVec 4
  /-- `RUN_REQ` (R36). -/
  runReq : Bool
  /-- `ARG` (R37). -/
  arg : Word
  /-- `RESULT` (R38). -/
  result : Word
  /-- `ERR` (R39, R54). -/
  err : BitVec 9
  /-- `PWM_LOG`, oldest first (R43). -/
  pwmLog : List PwmTx
  /-- `ADC_LOG`, oldest first (R43). -/
  adcLog : List AdcTx
  /-- `INT_ST`, external (R44). -/
  intSt : Word
  /-- `STARTED[k]`, external (R45). -/
  started : PerPhase Bool
  /-- `ENA[k]`, external (R45). -/
  ena : PerPhase Bool
  /-- `NOW_PREV`, external (R46). -/
  nowPrev : BitVec 64
  /-- The host's accesses still to come, in program order. MODEL's own (entry 9). -/
  hostProg : List HostAccess
  /-- What the register port returned to the host's reads, oldest first. MODEL's own (entry 11). -/
  hostReads : List Word
  /-- The draws still to come. MODEL's own (entries 4, 6, 7, 8). -/
  draws : Draws
  deriving DecidableEq, Repr

/-- Phase `k`'s registers after `RESET` (70_reset_and_hazards.md R211). -/
def PhaseRegs.reset (n : Nat) (k : Phase) : PhaseRegs where
  cursor := cursorOffset n k
  pending := false
  chInit := false
  duty := 0
  freq := 0

/-- No answer given. -/
def Answers.none : Answers where
  time := Option.none
  sample := Option.none
  order := Option.none

/-- No draw listed, none made: DESIGN CHOICE (entry 12). -/
def Draws.none : Draws where
  turns := []
  answers := .none
  count := 0

/-- The block of configuration `c` after its first `RESET`, on the launch premise (70_reset_and_hazards.md
R210, R211). The model's own fields are empty: DESIGN CHOICE (entry 12). -/
def State.resetOf (c : Config) : State where
  cfg := c
  ph := ⟨.reset c.n .p0, .reset c.n .p1, .reset c.n .p2⟩
  scale := 0
  elecFreq := 0
  carrier := 0
  handlerReg := false
  lastT := c.lastTInit
  isrActive := false
  isrM := 0
  fgTodo := 0
  runReq := false
  arg := 0
  result := 0
  err := 0
  pwmLog := []
  adcLog := []
  intSt := 0
  started := .const false
  ena := .const false
  nowPrev := c.lastTInit
  hostProg := []
  hostReads := []
  draws := .none

/-- The machine right after reset, in the default configuration (entries 1 and 2). -/
def State.reset : State := State.resetOf Config.default

end Sys2Proof.Machine
end

