-- ==== Sys2Proof/Machine/Flags.lean ====
section
/-! DEFINITION. The derived flags, the status words, the error bits, and when each agent's step is
enabled. -/

namespace Sys2Proof.Machine

/-- Every channel that exists is initialised (10_state.md R40). -/
def channelsInit (s : State) : Bool :=
  Phase.all.all fun k => !s.cfg.present.get k || (s.ph.get k).chInit

/-- `INIT_DONE` (10_state.md R40). -/
def initDone (s : State) : Bool := s.handlerReg && channelsInit s

/-- Some existing channel is initialised, or the handler is registered: what makes `INV_INIT` a
second initialisation (42_inverter.md R140). -/
def anyInit (s : State) : Bool :=
  s.handlerReg || Phase.all.any fun k => s.cfg.present.get k && (s.ph.get k).chInit

/-- `IRQ` (10_state.md R41). -/
def irq (s : State) : Bool := s.handlerReg && s.intSt != 0

/-- `SEQ_ACTIVE` (10_state.md R41). -/
def seqActive (s : State) : Bool := s.runReq || s.fgTodo != 0

/-- The word `STATUS` reads as (10_state.md R49). -/
def statusWord (s : State) : Word :=
  0#20 ++ s.fgTodo ++ 0#3 ++ BitVec.ofBool (irq s) ++ BitVec.ofBool s.handlerReg
    ++ BitVec.ofBool s.isrActive ++ BitVec.ofBool (seqActive s) ++ BitVec.ofBool (initDone s)

/-- The word `PHk_FLAGS` reads as (10_state.md R63). -/
def flagsWord (s : State) (k : Phase) : Word :=
  0#29 ++ BitVec.ofBool (s.cfg.present.get k) ++ BitVec.ofBool (s.ph.get k).chInit
    ++ BitVec.ofBool (s.ph.get k).pending

/-- The bit of an error cause in `ERR` (10_state.md R54, 60_exceptions.md R188). -/
def errBit : CmdError → BitVec 9
  | .illegalOp => 0x001#9
  | .rsvField => 0x002#9
  | .badPhase => 0x004#9
  | .busy => 0x008#9
  | .notInit => 0x010#9
  | .alreadyInit => 0x020#9
  | .badIndex => 0x040#9
  | .range => 0x080#9
  | .bus => 0x100#9

/-- The bit of a task in `FG_TODO` (10_state.md R35). -/
def taskBit : Task → BitVec 4
  | .scaler => 1#4
  | .apply .p0 => 2#4
  | .apply .p1 => 4#4
  | .apply .p2 => 8#4

/-- `FG_TODO[t] = 1`. -/
def taskToDo (s : State) (t : Task) : Bool := s.fgTodo &&& taskBit t != 0

/-- Whether the bit of phase `k`'s source is set in an interrupt mask (43_completion_handler.md
R160). -/
def irqBitSet (s : State) (mask : Word) (k : Phase) : Bool := mask.getLsbD (s.cfg.irqBit.get k).val

/-- The enabling conditions of 42_inverter.md R148, 43_completion_handler.md R164 to R166 and
60_exceptions.md R193. A host step is always enabled here; that a `CMD` write waits while
`ISR_ACTIVE = 1` is a matter of the access (Machine/Agents.lean). -/
def enabled (a : AgentStep) (s : State) : Bool :=
  match a with
  | .host => true
  | .seqStart => s.runReq && s.fgTodo == 0 && !s.isrActive
  | .seqTask t => taskToDo s t && !s.isrActive
  | .isrEntry => irq s && !s.isrActive
  | .isrMarkAck => s.isrActive
  | .evPeriod k => s.started.get k && s.ena.get k
  | .evForeign b => s.cfg.foreignMask.getLsbD b.val
  | .reset => true

end Sys2Proof.Machine
end

