-- ==== Sys2Proof/Machine/Ops.lean ====
section
/-! DEFINITION. The shared operations: refusing a command, the ports, the draws, the table, the
interrupt engine's entry and return, and the reset step. -/

namespace Sys2Proof.Machine

/-! ### Errors -/

/-- `raise CmdError(e)`: `ERR[e] <- 1` and nothing else (60_exceptions.md R186). -/
def raise (e : CmdError) (s : State) : State := { s with err := s.err ||| errBit e }

/-! ### Ports -/

/-- The tag of a PWM-port transaction (30_encoding.md R97). -/
def pwmTag : PwmTx → Nat
  | .bindPin _ _ _ => 0x01
  | .configure _ _ _ _ _ _ _ => 0x02
  | .enableDeadtime _ _ _ _ _ => 0x03
  | .enablePeriodInt _ _ => 0x04
  | .start _ _ => 0x05
  | .registerHandler _ => 0x06
  | .setFrequency _ _ _ => 0x07
  | .setDuty _ _ _ _ => 0x08
  | .readStatus _ _ => 0x09
  | .clearStatus _ _ => 0x0A

/-- The tag of an ADC-port transaction (30_encoding.md R98). -/
def adcTag : AdcTx → Nat
  | .configureResolution _ => 0x01
  | .configureInputRange _ _ => 0x02
  | .readRaw _ _ => 0x03

/-- The flag of every phase whose timer is `timer` set to 1 (20_memory.md R74: "for the `k` with
`TIMER[k] = timer`"). -/
def setForTimer (c : Config) (timer : Nat) (r : PerPhase Bool) : PerPhase Bool where
  p0 := r.p0 || c.timer.p0 == timer
  p1 := r.p1 || c.timer.p1 == timer
  p2 := r.p2 || c.timer.p2 == timer

/-- The effect of a transaction on the external state a model carries (20_memory.md R74, last
column; entry 15). -/
def peripheral (tx : PwmTx) (s : State) : State :=
  match tx with
  | .enablePeriodInt _ timer => { s with ena := setForTimer s.cfg timer s.ena }
  | .start _ timer => { s with started := setForTimer s.cfg timer s.started }
  | .clearStatus _ mask => { s with intSt := s.intSt &&& ~~~mask }
  | .bindPin _ _ _ => s
  | .configure _ _ _ _ _ _ _ => s
  | .enableDeadtime _ _ _ _ _ => s
  | .registerHandler _ => s
  | .setFrequency _ _ _ => s
  | .setDuty _ _ _ _ => s
  | .readStatus _ _ => s

/-- `emit PWM.op(args)`: the transaction is appended to `PWM_LOG` and takes its effect before the
next step of any agent (20_memory.md R74, R77). -/
def emitPwm (tx : PwmTx) (s : State) : State :=
  peripheral tx { s with pwmLog := s.pwmLog ++ [tx] }

/-- `emit ADC.op(args)` (20_memory.md R75). -/
def emitAdc (tx : AdcTx) (s : State) : State := { s with adcLog := s.adcLog ++ [tx] }

/-! ### Draws

A turn is drawn for each step, with the answers to that step. Each read takes its answer, or a free
constant of `Config` when none is given, and counts one draw (entries 4, 6, 7, 8). -/

/-- Which agent steps (10_state.md R20, 60_exceptions.md R193). -/
def nextAgent (s : State) : AgentStep :=
  match s.draws.turns with
  | [] => Config.freeAgent s.draws.count
  | t :: _ => t.agent

/-- The answers to the next step: its turn's, none where no turn is listed. -/
def nextAnswers (s : State) : Answers :=
  match s.draws.turns with
  | [] => .none
  | t :: _ => t.answers

/-- The state once a turn is drawn: what the turn before did not use is no answer to this one. -/
def tookTurn (s : State) : State :=
  { s with
    draws :=
      { turns := s.draws.turns.tail, answers := nextAnswers s, count := s.draws.count + 1 } }

/-- The time port's answer, never below `NOW_PREV`: an answer below it, which the port cannot give,
is brought up to it (20_memory.md R76; entry 6). -/
def nextTime (s : State) : BitVec 64 :=
  let t := s.draws.answers.time.getD (Config.freeTime s.draws.count)
  if t < s.nowPrev then s.nowPrev else t

/-- Reading the time port: `NOW_PREV <- now`, not logged (20_memory.md R76). -/
def tookTime (s : State) : State :=
  { s with
    nowPrev := nextTime s
    draws :=
      { s.draws with
        answers := { s.draws.answers with time := none }, count := s.draws.count + 1 } }

/-- The ADC's answer, in `[0, ADC_MAX]`: its low `ADC_BITS` bits (20_memory.md R75; entry 7). -/
def nextSample (s : State) : BitVec 16 :=
  let raw := s.draws.answers.sample.getD (Config.freeSample s.draws.count)
  BitVec.ofNat 16 (raw.toNat % (s.cfg.adcMax + 1))

/-- The state once that draw is made. -/
def tookSample (s : State) : State :=
  { s with
    draws :=
      { s.draws with
        answers := { s.draws.answers with sample := none }, count := s.draws.count + 1 } }

/-- The number of a drawn order (42_inverter.md R140, R146; entry 8). -/
def nextOrder (s : State) : Nat := s.draws.answers.order.getD (Config.freeOrder s.draws.count)

/-- The state once that draw is made. -/
def tookOrder (s : State) : State :=
  { s with
    draws :=
      { s.draws with
        answers := { s.draws.answers with order := none }, count := s.draws.count + 1 } }

/-! ### The sine table -/

/-- `SINE_TABLE[i]`; a read has no side effect and cannot fail (20_memory.md R73). The block forms
no index at or above `N`; there the list has no entry and the value 0 stands for none (entry 14). -/
def tableAt (c : Config) (i : Nat) : BitVec 16 := c.table.getD i 0

/-! ### The interrupt engine: entry and return

The block's equivalent of taking an exception and returning from it (60_exceptions.md R190, R191).
Entry saves only the mask, changes no mode and goes to the one handler; return restores nothing. -/

/-- `MarkDirty(k)`: `PENDING[k] <- 1` (41_phase_channel.md R130). -/
def markDirty (k : Phase) (s : State) : State :=
  { s with ph := s.ph.set k { s.ph.get k with pending := true } }

/-- `MarkDirty(k)` if the latched mask has phase `k`'s bit (43_completion_handler.md R166). -/
def markIfLatched (s : State) (k : Phase) : State :=
  if irqBitSet s s.isrM k then markDirty k s else s

/-- `ISR_ENTRY`: read the pending mask once, latch it, set `ISR_ACTIVE` (43_completion_handler.md
R165). -/
def isrEntry (s : State) : State :=
  { emitPwm (.readStatus s.cfg.unit s.intSt) s with isrM := s.intSt, isrActive := true }

/-- `ISR_MARK_ACK`: mark the phases of the latched mask, then acknowledge exactly that mask, and
clear `ISR_ACTIVE` (43_completion_handler.md R166). -/
def isrMarkAck (s : State) : State :=
  { emitPwm (.clearStatus s.cfg.unit s.isrM) (Phase.all.foldl markIfLatched s) with
    isrActive := false }

/-! ### The environment and the reset input -/

/-- `EV_PERIOD(k)`: `INT_ST[IRQ_BIT[k]] <- 1` (43_completion_handler.md R164). -/
def evPeriod (k : Phase) (s : State) : State :=
  { s with intSt := s.intSt ||| BitVec.twoPow 32 (s.cfg.irqBit.get k).val }

/-- `EV_FOREIGN(b)`: `INT_ST[b] <- 1` (43_completion_handler.md R164). -/
def evForeign (b : Fin 32) (s : State) : State :=
  { s with intSt := s.intSt ||| BitVec.twoPow 32 b.val }

/-- `RESET`: every piece of block state to its reset value; the logs, the external state, the
configuration and the inputs still to come stay (70_reset_and_hazards.md R210, R211, R223; entry
17). -/
def resetBlock (s : State) : State :=
  { State.resetOf s.cfg with
    pwmLog := s.pwmLog
    adcLog := s.adcLog
    intSt := s.intSt
    started := s.started
    ena := s.ena
    nowPrev := s.nowPrev
    hostProg := s.hostProg
    hostReads := s.hostReads
    draws := s.draws }

end Sys2Proof.Machine
end

