-- ==== Sys2Proof/Machine/Operands.lean ====
section
/-! DEFINITION. The operand forms of the commands (30_encoding.md R87, R89, R90) and the checks
common to every command of a form (60_exceptions.md R187). -/

namespace Sys2Proof.Machine

/-- Form PHASE: `k = uint(PH)`, no phase for 3 (30_encoding.md R87, R89). -/
def phaseOperand (ph : BitVec 2) : Option Phase :=
  match ph.toNat with
  | 0 => some .p0
  | 1 => some .p1
  | 2 => some .p2
  | _ => none

/-- Form INDEX: `i = uint(IMM[11:0])` (30_encoding.md R87, R89). -/
def indexOperand (imm : BitVec 12) : Nat := imm.toNat

/-- Form SCALE: `s = uint(IMM[15:0])` (30_encoding.md R87, R89). -/
def scaleOperand (imm : BitVec 16) : Nat := imm.toNat

/-- The register operand of `PH_SET_CARRIER`: `ARG` as it stands (30_encoding.md R90). -/
def argOperand (s : State) : Word := s.arg

/-- A foreground command is refused with `BUSY` while the sequencer is active (42_inverter.md R147,
60_exceptions.md R187). -/
def foreground (run : State → State) (s : State) : State :=
  if seqActive s then raise .busy s else run s

/-- The checks common to the phase commands, in the order of 60_exceptions.md R187: `BAD_PHASE`,
`BUSY`, and the silent no-op of an absent channel. -/
def phaseCommand (ph : BitVec 2) (run : Phase → State → State) (s : State) : State :=
  match phaseOperand ph with
  | none => raise .badPhase s
  | some k => foreground (fun s => if s.cfg.present.get k then run k s else s) s

end Sys2Proof.Machine
end

