-- ==== Sys2Proof/Machine/PhaseChannel.lean ====
section
/-! DEFINITION. The PhaseChannel family (41_phase_channel.md): each command is a checked entry over
an unchecked procedure that `INV_INIT` and the sequencer run too. -/

namespace Sys2Proof.Machine

/-- The six transactions of a channel's init, in order (41_phase_channel.md R120). -/
def phInitTxs (c : Config) (k : Phase) : List PwmTx :=
  [ .bindPin c.unit (c.hiSig.get k) (c.hiPin.get k),
    .bindPin c.unit (c.loSig.get k) (c.loPin.get k),
    .configure c.unit (c.timer.get k) c.carrierDefault 0 0 c.counterMode c.dutyMode,
    .enableDeadtime c.unit (c.timer.get k) c.dtMode (c.riseDelay.get k) (c.fallDelay.get k),
    .enablePeriodInt c.unit (c.timer.get k),
    .start c.unit (c.timer.get k) ]

/-- Several transactions, in order. -/
def emitAll (txs : List PwmTx) (s : State) : State := txs.foldl (fun s tx => emitPwm tx s) s

/-- `PhInit(k)` (41_phase_channel.md R120). `CURSOR[k]` and `PENDING[k]` are not written. -/
def phInitProc (k : Phase) (s : State) : State :=
  let s1 := emitAll (phInitTxs s.cfg k) s
  { s1 with
    ph := s1.ph.set k
      { s1.ph.get k with chInit := true, duty := 0, freq := s1.cfg.carrierDefault } }

/-- `PH_INIT(k)` after the common checks (41_phase_channel.md R120). -/
def phInitChecked (k : Phase) (s : State) : State :=
  if (s.ph.get k).chInit then raise .alreadyInit s else phInitProc k s

/-- `PH_INIT pK` (41_phase_channel.md R120). -/
def execPhInit (ph : BitVec 2) (s : State) : Host.Outcome State Fault Refusal :=
  .next (phaseCommand ph phInitChecked s)

/-- The duty phase `k`'s next apply sends: the table entry at the cursor before the advance, scaled by
the current `SCALE` (41_phase_channel.md R125). -/
def nextDuty (s : State) (k : Phase) : BitVec 16 :=
  dutyLaw (tableAt s.cfg (s.ph.get k).cursor.toNat) s.scale

/-- `Apply(k)`, one atomic step (41_phase_channel.md R125). -/
def applyProc (k : Phase) (s : State) : State :=
  if (s.ph.get k).pending then
    let duty := nextDuty s k
    let s1 := emitPwm (.setDuty s.cfg.unit (s.cfg.timer.get k) s.cfg.opA duty) s
    { s1 with
      ph := s1.ph.set k
        { s1.ph.get k with
          pending := false
          duty := duty
          cursor := cursorNext s1.cfg.n (s1.ph.get k).cursor } }
  else s

/-- `PH_APPLY(k)` after the common checks: `NOT_INIT` comes before the pending flag is looked at
(41_phase_channel.md R125). -/
def phApplyChecked (k : Phase) (s : State) : State :=
  if (s.ph.get k).chInit then applyProc k s else raise .notInit s

/-- `PH_APPLY pK` (41_phase_channel.md R125). -/
def execPhApply (ph : BitVec 2) (s : State) : Host.Outcome State Fault Refusal :=
  .next (phaseCommand ph phApplyChecked s)

/-- `SetCarrier(k, hz)` (41_phase_channel.md R128). No value is refused. -/
def setCarrier (k : Phase) (hz : Word) (s : State) : State :=
  let s1 := emitPwm (.setFrequency s.cfg.unit (s.cfg.timer.get k) hz) s
  { s1 with ph := s1.ph.set k { s1.ph.get k with freq := hz } }

/-- `PH_SET_CARRIER(k)` after the common checks (41_phase_channel.md R128). -/
def phSetCarrierChecked (k : Phase) (s : State) : State :=
  if (s.ph.get k).chInit then setCarrier k (argOperand s) s else raise .notInit s

/-- `PH_SET_CARRIER pK` (41_phase_channel.md R128). -/
def execPhSetCarrier (ph : BitVec 2) (s : State) : Host.Outcome State Fault Refusal :=
  .next (phaseCommand ph phSetCarrierChecked s)

end Sys2Proof.Machine
end

