-- ==== Sys2Proof/Machine/AnalogScaler.lean ====
section
/-! DEFINITION. The frequency and scale update and the AnalogScaler family (42_inverter.md R143,
44_analog_scaler.md). -/

namespace Sys2Proof.Machine

/-- `SetCarrier(k, CARRIER)` if the channel exists (42_inverter.md R143). -/
def setCarrierIfPresent (s : State) (k : Phase) : State :=
  if s.cfg.present.get k then setCarrier k s.carrier s else s

/-- `UpdateFS(s)`: the scale, the two frequencies, and the carrier of every existing channel in the
order 0, 1, 2 (42_inverter.md R143). -/
def updateFs (sc : BitVec 16) (s : State) : State :=
  let elec := elecLaw s.cfg.toParams sc.toNat
  Phase.all.foldl setCarrierIfPresent
    { s with scale := sc, elecFreq := elec, carrier := carrierOf s.cfg.toParams elec }

/-- More than `SAMPLE_PERIOD_US` has passed since the last sample, at the time `NOW_PREV` just read
(44_analog_scaler.md R176: strictly greater, on mathematical integers). -/
def sampleDue (s : State) : Bool :=
  decide (s.lastT.toNat + s.cfg.samplePeriod.toNat < s.nowPrev.toNat)

/-- Take one sample at the time just read (44_analog_scaler.md R176). -/
def takeSample (s : State) : State :=
  let raw := nextSample s
  let s1 := emitAdc (.readRaw s.cfg.adcCh raw) (tookSample s)
  updateFs (norm s1.cfg.toParams raw.toNat) { s1 with lastT := s1.nowPrev }

/-- `ScalerCheck()` (44_analog_scaler.md R176). -/
def scalerCheck (s : State) : State :=
  let s1 := tookTime s
  if sampleDue s1 then takeSample s1 else s1

/-- `SCALER_CHECK()` after the common checks (44_analog_scaler.md R176). -/
def scalerCheckChecked (s : State) : State :=
  if initDone s then scalerCheck s else raise .notInit s

/-- `SCALER_CHECK` (44_analog_scaler.md R176). -/
def execScalerCheck (s : State) : Host.Outcome State Fault Refusal :=
  .next (foreground scalerCheckChecked s)

end Sys2Proof.Machine
end

