-- ==== Sys2Proof/Machine/Inverter.lean ====
section
/-! DEFINITION. The Inverter family and the tasks of the foreground loop (42_inverter.md). -/

namespace Sys2Proof.Machine

/-- `NOP`: no effect, accepted in every state (42_inverter.md R149). -/
def execNop (s : State) : Host.Outcome State Fault Refusal := .next s

/-- `InvInit()`: `PhInit` of every existing channel in the drawn order, then the handler
(42_inverter.md R140). -/
def invInitProc (s : State) : State :=
  let order := (initOrder (nextOrder s)).filter fun k => s.cfg.present.get k
  let s1 := order.foldl (fun s k => phInitProc k s) (tookOrder s)
  { emitPwm (.registerHandler s1.cfg.unit) s1 with handlerReg := true }

/-- `INV_INIT()` after the common checks (42_inverter.md R140). -/
def invInitChecked (s : State) : State :=
  if anyInit s then raise .alreadyInit s else invInitProc s

/-- `INV_INIT` (42_inverter.md R140). -/
def execInvInit (s : State) : Host.Outcome State Fault Refusal :=
  .next (foreground invInitChecked s)

/-- `INV_UPDATE_FS(s)` after the common checks: `NOT_INIT`, then `RANGE` (42_inverter.md R143). -/
def invUpdateFsChecked (imm : BitVec 16) (s : State) : State :=
  if initDone s then
    if 0x8000 < scaleOperand imm then raise .range s else updateFs imm s
  else raise .notInit s

/-- `INV_UPDATE_FS #s` (42_inverter.md R143). -/
def execInvUpdateFs (imm : BitVec 16) (s : State) : Host.Outcome State Fault Refusal :=
  .next (foreground (invUpdateFsChecked imm) s)

/-- `RunTask(t)` (42_inverter.md R145). -/
def runTask (s : State) (t : Task) : State :=
  match t with
  | .scaler => scalerCheck s
  | .apply k => if s.cfg.present.get k then applyProc k s else s

/-- One iteration of the foreground loop in the drawn order (42_inverter.md R146). -/
def fgIterProc (s : State) : State := (taskOrder (nextOrder s)).foldl runTask (tookOrder s)

/-- `FG_ITER()` after the common checks (42_inverter.md R146). -/
def fgIterChecked (s : State) : State :=
  if initDone s then fgIterProc s else raise .notInit s

/-- `FG_ITER` (42_inverter.md R146). -/
def execFgIter (s : State) : Host.Outcome State Fault Refusal :=
  .next (foreground fgIterChecked s)

/-- `ADC_INIT()` after the common checks (42_inverter.md R150). -/
def adcInitProc (s : State) : State :=
  emitAdc (.configureInputRange s.cfg.adcCh s.cfg.adcAtten)
    (emitAdc (.configureResolution (BitVec.ofNat 5 s.cfg.adcBits)) s)

/-- `ADC_INIT` (42_inverter.md R150). -/
def execAdcInit (s : State) : Host.Outcome State Fault Refusal :=
  .next (foreground adcInitProc s)

end Sys2Proof.Machine
end

