-- ==== Sys2Proof/Machine/SineTable.lean ====
section
/-! DEFINITION. The SineTable family (40_sine_table.md). -/

namespace Sys2Proof.Machine

/-- `TBL_READ(i)` (40_sine_table.md R112). Exempt from `BUSY` and from initialisation. -/
def tblRead (i : Nat) (s : State) : State :=
  if s.cfg.n ≤ i then raise .badIndex s
  else { s with result := (tableAt s.cfg i).setWidth 32 }

/-- `TBL_READ #i` (40_sine_table.md R112). -/
def execTblRead (imm : BitVec 12) (s : State) : Host.Outcome State Fault Refusal :=
  .next (tblRead (indexOperand imm) s)

end Sys2Proof.Machine
end

