-- ==== Sys2Proof/Machine/Dispatch.lean ====
section
/-! DEFINITION. The meaning of each command: one arm per constructor of Instr. -/

namespace Sys2Proof.Machine

def exec (i : Instr) (s : State) : Host.Outcome State Fault Refusal :=
  match i with
  | .nop => Sys2Proof.Machine.execNop s
  | .tblRead imm => Sys2Proof.Machine.execTblRead imm s
  | .phInit ph => Sys2Proof.Machine.execPhInit ph s
  | .phApply ph => Sys2Proof.Machine.execPhApply ph s
  | .phSetCarrier ph => Sys2Proof.Machine.execPhSetCarrier ph s
  | .invInit => Sys2Proof.Machine.execInvInit s
  | .invUpdateFs imm => Sys2Proof.Machine.execInvUpdateFs imm s
  | .scalerCheck => Sys2Proof.Machine.execScalerCheck s
  | .fgIter => Sys2Proof.Machine.execFgIter s
  | .adcInit => Sys2Proof.Machine.execAdcInit s

end Sys2Proof.Machine
end

