-- ==== Sys2Proof/Machine/Registers.lean ====
section
/-! DEFINITION. The host register window (20_memory.md R65 to R72, 10_state.md R47 to R63), but for
the command that a write to `CMD` runs (Machine/Agents.lean). -/

namespace Sys2Proof.Machine

/-- The registers of the map (20_memory.md R69). -/
inductive Reg where
  | ident
  | param
  | status
  | ctrl
  | cmd
  | arg
  | result
  | err
  | scale
  | elecFreq
  | carrier
  | isrM
  | lastTLo
  | lastTHi
  | phCursor (k : Phase)
  | phDuty (k : Phase)
  | phFreq (k : Phase)
  | phFlags (k : Phase)
  deriving DecidableEq, Repr

/-- The four registers of phase `k`, at `0x040 + 0x10*k` (20_memory.md R69). -/
def phaseRegAt (k : Phase) (off : Nat) : Option Reg :=
  match off with
  | 0x0 => some (.phCursor k)
  | 0x4 => some (.phDuty k)
  | 0x8 => some (.phFreq k)
  | 0xC => some (.phFlags k)
  | _ => none

/-- The register at an aligned offset, `none` where the map is unmapped (20_memory.md R69). -/
def regAt (off : Nat) : Option Reg :=
  match off with
  | 0x00 => some .ident
  | 0x04 => some .param
  | 0x08 => some .status
  | 0x0C => some .ctrl
  | 0x10 => some .cmd
  | 0x14 => some .arg
  | 0x18 => some .result
  | 0x1C => some .err
  | 0x20 => some .scale
  | 0x24 => some .elecFreq
  | 0x28 => some .carrier
  | 0x2C => some .isrM
  | 0x30 => some .lastTLo
  | 0x34 => some .lastTHi
  | _ =>
    match off / 16 with
    | 4 => phaseRegAt .p0 (off % 16)
    | 5 => phaseRegAt .p1 (off % 16)
    | 6 => phaseRegAt .p2 (off % 16)
    | _ => none

/-- The offset of a register from `SDE_BASE` (20_memory.md R69). -/
def regOffset : Reg → Nat
  | .ident => 0x00
  | .param => 0x04
  | .status => 0x08
  | .ctrl => 0x0C
  | .cmd => 0x10
  | .arg => 0x14
  | .result => 0x18
  | .err => 0x1C
  | .scale => 0x20
  | .elecFreq => 0x24
  | .carrier => 0x28
  | .isrM => 0x2C
  | .lastTLo => 0x30
  | .lastTHi => 0x34
  | .phCursor k => 0x40 + 0x10 * k.toNat
  | .phDuty k => 0x44 + 0x10 * k.toNat
  | .phFreq k => 0x48 + 0x10 * k.toNat
  | .phFlags k => 0x4C + 0x10 * k.toNat

/-- `PARAM`: `N` in bits 11:0, `ADC_BITS` in bits 20:16 (10_state.md R48). -/
def paramWord (p : Params) : Word :=
  0#11 ++ BitVec.ofNat 5 p.adcBits ++ 0#4 ++ BitVec.ofNat 12 p.n

/-- The word a register reads as, `none` for the write-only `CMD` (10_state.md R47 to R63,
20_memory.md R67, R68). -/
def regValue (s : State) : Reg → Option Word
  | .ident => some 0x53505737#32
  | .param => some (paramWord s.cfg.toParams)
  | .status => some (statusWord s)
  | .ctrl => some (0#31 ++ BitVec.ofBool s.runReq)
  | .cmd => none
  | .arg => some s.arg
  | .result => some s.result
  | .err => some (s.err.setWidth 32)
  | .scale => some (s.scale.setWidth 32)
  | .elecFreq => some s.elecFreq
  | .carrier => some s.carrier
  | .isrM => some s.isrM
  | .lastTLo => some (s.lastT.extractLsb' 0 32)
  | .lastTHi => some (s.lastT.extractLsb' 32 32)
  | .phCursor k => some ((s.ph.get k).cursor.setWidth 32)
  | .phDuty k => some ((s.ph.get k).duty.setWidth 32)
  | .phFreq k => some (s.ph.get k).freq
  | .phFlags k => some (flagsWord s k)

/-- A write of `CTRL`: bit 0 is the run request, accepted as 1 only when `INIT_DONE = 1`; the other
bits are ignored (10_state.md R51, 20_memory.md R68). -/
def writeCtrl (v : Word) (s : State) : State :=
  if v.getLsbD 0 then
    if initDone s then { s with runReq := true } else raise .notInit s
  else { s with runReq := false }

/-- A write of `ERR`: a 1 clears its bit (10_state.md R54). -/
def writeErr (v : Word) (s : State) : State := { s with err := s.err &&& ~~~(v.setWidth 9) }

/-- A legal write of a register other than `CMD`: `CTRL`, `ARG` and `ERR` take it, a write of a
read-only register changes nothing but `ERR.BUS` (20_memory.md R67, R69). -/
def writeReg (r : Reg) (v : Word) (s : State) : State :=
  match r with
  | .ctrl => writeCtrl v s
  | .arg => { s with arg := v }
  | .err => writeErr v s
  | _ => raise .bus s

/-- The register an access of `bytes` bytes at offset `off` reaches: only a 32-bit access at an
aligned, mapped offset reaches one (20_memory.md R66, R67). -/
def accessReg (off bytes : Nat) : Option Reg :=
  if bytes = 4 ∧ off % 4 = 0 then regAt off else none

/-- The port returns `v` to the host (entry 11). -/
def returnRead (v : Word) (s : State) : State := { s with hostReads := s.hostReads ++ [v] }

/-- A read at offset `off`: the live value of the register it reaches, else 0 and `ERR.BUS`
(20_memory.md R66, R67, R71). -/
def readAt (off bytes : Nat) (s : State) : State :=
  match (accessReg off bytes).bind (regValue s) with
  | some v => returnRead v s
  | none => returnRead 0 (raise .bus s)

/-- The offset of a platform address in the block's window, `none` outside it: the block decodes the
low 8 bits inside the window (20_memory.md R65). -/
def windowOffset (c : Config) (addr : Nat) : Option Nat :=
  if c.sdeBase ≤ addr ∧ addr < c.sdeBase + 256 then some (addr % 256) else none

end Sys2Proof.Machine
end

