-- ==== Sys2Proof/Machine/Agents.lean ====
section
/-! DEFINITION. The steps of the agents (10_state.md R20): the host's accesses, with the command a
`CMD` write runs; the sequencer; the interrupt engine; the environment; the reset input. -/

namespace Sys2Proof.Machine

/-- A write of `w` to `CMD`: decode, check, and run the command to completion in this one step
(30_encoding.md R85, 60_exceptions.md R187). -/
def commandWrite (w : Word) (s : State) : Host.Outcome State Fault Refusal :=
  match decode w with
  | .ok i => exec i s
  | .error e => .next (raise e s)

/-- A write at offset `off` (20_memory.md R66, R67, R72). -/
def writeAt (off bytes : Nat) (v : Word) (s : State) : Host.Outcome State Fault Refusal :=
  match accessReg off bytes with
  | some .cmd => commandWrite v s
  | some r => .next (writeReg r v s)
  | none => .next (raise .bus s)

/-- One access at the register port. An address outside the window is not the block's (20_memory.md
R65; entry 13). -/
def hostAccess (a : HostAccess) (s : State) : Host.Outcome State Fault Refusal :=
  match a with
  | .read addr bytes =>
    match windowOffset s.cfg addr with
    | some off => .next (readAt off bytes s)
    | none => .fault .outsideWindow
  | .write addr bytes v =>
    match windowOffset s.cfg addr with
    | some off => writeAt off bytes v s
    | none => .fault .outsideWindow

/-- Whether an access is a legal write of `CMD`: the one access that waits while `ISR_ACTIVE = 1`
(20_memory.md R72; entry 10). -/
def isCommand (c : Config) (a : HostAccess) : Bool :=
  match a with
  | .read _ _ => false
  | .write addr bytes _ => (windowOffset c addr).bind (accessReg · bytes) == some .cmd

/-- The host's step: its next access in program order. A command waits while an invocation of the
interrupt engine is in progress; a host with nothing to do does nothing (20_memory.md R72,
60_exceptions.md R193; entries 9, 10). -/
def hostStep (s : State) : Host.Outcome State Fault Refusal :=
  match s.hostProg with
  | [] => .next s
  | a :: rest =>
    if isCommand s.cfg a && s.isrActive then .next s
    else hostAccess a { s with hostProg := rest }

/-- `SEQ_START` (42_inverter.md R148). -/
def seqStart (s : State) : State := { s with fgTodo := 0xF#4 }

/-- `SEQ_TASK(t)`: run the task, then `FG_TODO[t] <- 0` (42_inverter.md R148). -/
def seqTask (t : Task) (s : State) : State :=
  let s1 := runTask s t
  { s1 with fgTodo := s1.fgTodo &&& ~~~(taskBit t) }

/-- The step of an agent that is enabled. -/
def takeStep (a : AgentStep) (s : State) : Host.Outcome State Fault Refusal :=
  match a with
  | .host => hostStep s
  | .seqStart => .next (seqStart s)
  | .seqTask t => .next (seqTask t s)
  | .isrEntry => .next (isrEntry s)
  | .isrMarkAck => .next (isrMarkAck s)
  | .evPeriod k => .next (evPeriod k s)
  | .evForeign b => .next (evForeign b s)
  | .reset => .next (resetBlock s)

/-- The drawn agent's step, or nothing where that step is not enabled (10_state.md R20; entry 5). -/
def agentStep (a : AgentStep) (s : State) : Host.Outcome State Fault Refusal :=
  if enabled a s then takeStep a s else .next s

/-- The host's 32-bit write of `w` to `CMD`. -/
def commandAccess (c : Config) (w : Word) : HostAccess :=
  .write (c.sdeBase + regOffset .cmd) 4 w

/-- `s` with a host write of `w` to `CMD` as the access that the next step makes: it is the host's next
access, the next turn is the host's, and no invocation of the interrupt engine holds the write back
(20_memory.md R72; entry 9). -/
def placeCommand (w : Word) (s : State) : State :=
  { s with
    hostProg := commandAccess s.cfg w :: s.hostProg
    draws := { s.draws with turns := ⟨.host, .none⟩ :: s.draws.turns }
    isrActive := false }

end Sys2Proof.Machine
end

