-- ==== Sys2Proof/Machine/Step.lean ====
section
/-! DEFINITION. One step of the machine, and how an instruction is placed where the step finds it. -/

namespace Sys2Proof.Machine

/-- One step: draw which agent steps, and take that agent's step (10_state.md R20, 20_memory.md
R78). -/
def step (s : State) : Host.Outcome State Fault Refusal := agentStep (nextAgent s) (tookTurn s)

/-- `s` with the command whose bits are `w` placed as the host's very next access, the bits from
`nbits` up being 0 (entry 9). -/
def State.withFetchWord (s : State) (nbits w : Nat) : State :=
  placeCommand (BitVec.ofNat 32 (w % 2 ^ nbits)) s

end Sys2Proof.Machine
end

