-- ==== Sys2Proof/Machine/Asm.lean ====
section
/-! DEFINITION. Host programs (30_encoding.md R94, R95): statements, pseudo-instructions, the `@`
lines of the other agents, their text, and how a program is placed in the machine's inputs
(entry 20). -/

namespace Sys2Proof.Machine

/-- The pseudo-instructions (30_encoding.md R95). -/
inductive Pseudo where
  /-- `SET_CARRIER pK, #hz`. -/
  | setCarrier (k : Phase) (hz : Word)
  /-- `START`. -/
  | start
  /-- `STOP`. -/
  | stop
  /-- `CLRERR`. -/
  | clrErr
  /-- `BOOT`. -/
  | boot
  deriving DecidableEq, Repr

/-- A statement of a host program (30_encoding.md R94). -/
inductive Stmt where
  /-- A command mnemonic with its operand: `WR CMD, #<its encoding>`. -/
  | cmd (i : Instr)
  /-- `WR reg, #number`, and `.word number` as a write of `CMD` (95_test_vectors.md, program P4). -/
  | wr (r : Reg) (v : Word)
  /-- `RD reg`. -/
  | rd (r : Reg)
  /-- A pseudo-instruction. -/
  | pseudo (p : Pseudo)
  deriving DecidableEq, Repr

/-- A line of a test program: a statement, or what another agent does or answers (30_encoding.md
R94). -/
inductive Line where
  | stmt (s : Stmt)
  /-- `@PERIOD pK`, `@FOREIGN #b`, `@ISR_ENTRY`, `@ISR_MARK_ACK`, `@SEQ START`, `@SEQ t`. -/
  | agent (a : AgentStep)
  /-- `@ISR`: `ISR_ENTRY` then `ISR_MARK_ACK`. -/
  | isr
  /-- `@TIME #t`. -/
  | time (t : BitVec 64)
  /-- `@ADC #r`. -/
  | adc (r : BitVec 16)
  /-- `FG_ITER` with its drawn task order as a comment. -/
  | fgIter (order : Nat)
  deriving DecidableEq, Repr

/-- The phase field of a phase (30_encoding.md R84). -/
def phaseBits : Phase → BitVec 2
  | .p0 => 0#2
  | .p1 => 1#2
  | .p2 => 2#2

/-- The 32-bit write of `v` to a register. -/
def writeAccess (c : Config) (r : Reg) (v : Word) : HostAccess :=
  .write (c.sdeBase + regOffset r) 4 v

/-- The 32-bit read of a register. -/
def readAccess (c : Config) (r : Reg) : HostAccess := .read (c.sdeBase + regOffset r) 4

/-- The expansion of a pseudo-instruction (30_encoding.md R95). -/
def expandPseudo : Pseudo → List Stmt
  | .setCarrier k hz => [.wr .arg hz, .cmd (.phSetCarrier (phaseBits k))]
  | .start => [.wr .ctrl 1]
  | .stop => [.wr .ctrl 0]
  | .clrErr => [.wr .err 0x1FF]
  | .boot => [.cmd .adcInit, .cmd .invInit, .wr .ctrl 1]

/-- The accesses of a statement that is no pseudo-instruction (30_encoding.md R94). -/
def plainAccesses (c : Config) : Stmt → List HostAccess
  | .cmd i => [commandAccess c (encode i)]
  | .wr r v => [writeAccess c r v]
  | .rd r => [readAccess c r]
  | .pseudo _ => []

/-- The accesses of a statement. -/
def stmtAccesses (c : Config) : Stmt → List HostAccess
  | .pseudo p => (expandPseudo p).flatMap (plainAccesses c)
  | s => plainAccesses c s

/-- What the lines of a program come to, in their order: a turn of an agent, with the host's access if
it is the host's and the drawn order if the line carries one; or an answer for a later turn. -/
inductive Entry where
  | turn (agent : AgentStep) (access : Option HostAccess) (order : Option Nat)
  | time (t : BitVec 64)
  | sample (r : BitVec 16)
  deriving DecidableEq, Repr

/-- The entries of a line (30_encoding.md R94). -/
def lineEntries (c : Config) : Line → List Entry
  | .stmt st => (stmtAccesses c st).map fun a => .turn .host (some a) none
  | .fgIter d => [.turn .host (some (commandAccess c (encode .fgIter))) (some d)]
  | .agent a => [.turn a none none]
  | .isr => [.turn .isrEntry none none, .turn .isrMarkAck none none]
  | .time t => [.time t]
  | .adc r => [.sample r]

/-- Whether an instruction reads the time port: the two that run `ScalerCheck` (20_memory.md R76,
44_analog_scaler.md R176). -/
def readsPorts : Instr → Bool
  | .nop => false
  | .tblRead _ => false
  | .phInit _ => false
  | .phApply _ => false
  | .phSetCarrier _ => false
  | .invInit => false
  | .invUpdateFs _ => false
  | .scalerCheck => true
  | .fgIter => true
  | .adcInit => false

/-- Whether an access of the host is a command that reads the time port. -/
def accessReadsPorts (c : Config) (a : HostAccess) : Bool :=
  match a with
  | .read _ _ => false
  | .write _ _ w =>
    isCommand c a && match decode w with
      | .ok i => readsPorts i
      | .error _ => false

/-- Whether a turn is a command or a task that reads the time port. -/
def turnReadsPorts (c : Config) (agent : AgentStep) (access : Option HostAccess) : Bool :=
  agent == .seqTask .scaler || access.any (accessReadsPorts c)

/-- The turns of a program. An answer waits for the next command or task that reads the ports, and is
an answer to that one alone: a read it does not make leaves its answer unused (30_encoding.md R94). -/
def turnsOf (c : Config) (waiting : Answers) : List Entry → List Turn
  | [] => []
  | .time t :: es => turnsOf c { waiting with time := some t } es
  | .sample r :: es => turnsOf c { waiting with sample := some r } es
  | .turn agent access order :: es =>
    if turnReadsPorts c agent access then
      ⟨agent, { waiting with order := order }⟩ :: turnsOf c .none es
    else ⟨agent, .none⟩ :: turnsOf c waiting es

/-- The host's accesses in a program. -/
def entryAccess : Entry → Option HostAccess
  | .turn _ access _ => access
  | .time _ => none
  | .sample _ => none

/-- A program placed in the machine's inputs after those already there, in the order of its lines
(entry 9). -/
def loadProgram (ls : List Line) (s : State) : State :=
  let es := ls.flatMap (lineEntries s.cfg)
  { s with
    hostProg := s.hostProg ++ es.filterMap entryAccess
    draws := { s.draws with turns := s.draws.turns ++ turnsOf s.cfg .none es } }

/-! ### Text -/

/-- The mnemonics of form NONE (30_encoding.md R94). -/
def plainMnemonics : List (String × Instr) :=
  [("NOP", .nop), ("INV_INIT", .invInit), ("SCALER_CHECK", .scalerCheck), ("FG_ITER", .fgIter),
    ("ADC_INIT", .adcInit)]

/-- The mnemonics of form PHASE (30_encoding.md R94). -/
def phaseMnemonics : List (String × (Phase → Instr)) :=
  [("PH_INIT", fun k => .phInit (phaseBits k)), ("PH_APPLY", fun k => .phApply (phaseBits k)),
    ("PH_SET_CARRIER", fun k => .phSetCarrier (phaseBits k))]

/-- The register names (30_encoding.md R94). -/
def regNames : List (String × Reg) :=
  [("IDENT", .ident), ("PARAM", .param), ("STATUS", .status), ("CTRL", .ctrl), ("CMD", .cmd),
    ("ARG", .arg), ("RESULT", .result), ("ERR", .err), ("SCALE", .scale),
    ("ELEC_FREQ", .elecFreq), ("CARRIER", .carrier), ("ISR_M", .isrM), ("LAST_T_LO", .lastTLo),
    ("LAST_T_HI", .lastTHi)]
  ++ [("PH0_CURSOR", .phCursor .p0), ("PH0_DUTY", .phDuty .p0), ("PH0_FREQ", .phFreq .p0),
    ("PH0_FLAGS", .phFlags .p0), ("PH1_CURSOR", .phCursor .p1), ("PH1_DUTY", .phDuty .p1),
    ("PH1_FREQ", .phFreq .p1), ("PH1_FLAGS", .phFlags .p1), ("PH2_CURSOR", .phCursor .p2),
    ("PH2_DUTY", .phDuty .p2), ("PH2_FREQ", .phFreq .p2), ("PH2_FLAGS", .phFlags .p2)]

/-- The words of the `@` lines that carry no operand, and of `@SEQ`. -/
def agentWords : List (String × AgentStep) :=
  [("@ISR_ENTRY", .isrEntry), ("@ISR_MARK_ACK", .isrMarkAck)]

/-- What may follow `@SEQ` (30_encoding.md R94). -/
def seqWords : List (String × AgentStep) :=
  [("START", .seqStart), ("SCALER", .seqTask .scaler), ("A0", .seqTask (.apply .p0)),
    ("A1", .seqTask (.apply .p1)), ("A2", .seqTask (.apply .p2))]

/-- The entry under a word. -/
def lookupWord {α : Type} (t : List (String × α)) (w : List Char) : Option α :=
  (t.find? fun e => e.1.toList == w).map (·.2)

/-- The words of a text, split at spaces. -/
def splitWords (sep : Char) (cs : List Char) : List (List Char) :=
  (cs.foldr (fun c acc => if c = sep then [] :: acc else
    match acc with
    | [] => [[c]]
    | w :: ws => (c :: w) :: ws) [[]]).filter (· ≠ [])

/-- The value of a digit. -/
def digit (c : Char) : Option Nat :=
  if '0' ≤ c ∧ c ≤ '9' then some (c.toNat - '0'.toNat)
  else if 'a' ≤ c ∧ c ≤ 'f' then some (c.toNat - 'a'.toNat + 10)
  else if 'A' ≤ c ∧ c ≤ 'F' then some (c.toNat - 'A'.toNat + 10)
  else none

/-- The digits of a number in a base, at least one. -/
def digitsIn (base : Nat) (cs : List Char) : Option Nat :=
  if cs = [] then none
  else cs.foldl (fun acc c =>
    match acc, digit c with
    | some a, some d => if d < base then some (a * base + d) else none
    | _, _ => none) (some 0)

/-- `number` after its `#`, below `2^bits` (30_encoding.md R94). -/
def numberWord (bits : Nat) (w : List Char) : Option Nat :=
  match w with
  | '#' :: '0' :: 'x' :: ds => (digitsIn 16 ds).filter (· < 2 ^ bits)
  | '#' :: ds => (digitsIn 10 ds).filter (· < 2 ^ bits)
  | _ => none

/-- `pK`, with or without a comma after it. -/
def phaseWord : List Char → Option Phase
  | ['p', '0'] => some .p0
  | ['p', '1'] => some .p1
  | ['p', '2'] => some .p2
  | _ => none

/-- A word less the comma it ends in. -/
def beforeComma (w : List Char) : Option (List Char) :=
  if w.getLast? = some ',' then some w.dropLast else none

/-- A statement of one word. -/
def parse1 (m : List Char) : Option Line :=
  if m = "START".toList then some (.stmt (.pseudo .start))
  else if m = "STOP".toList then some (.stmt (.pseudo .stop))
  else if m = "CLRERR".toList then some (.stmt (.pseudo .clrErr))
  else if m = "BOOT".toList then some (.stmt (.pseudo .boot))
  else if m = "@ISR".toList then some .isr
  else ((lookupWord plainMnemonics m).map fun i => .stmt (.cmd i)) <|>
    (lookupWord agentWords m).map .agent

/-- A statement of two words. -/
def parse2 (m a : List Char) : Option Line :=
  if m = "TBL_READ".toList then
    (numberWord 12 a).map fun n => .stmt (.cmd (.tblRead (BitVec.ofNat 12 n)))
  else if m = "INV_UPDATE_FS".toList then
    (numberWord 16 a).map fun n => .stmt (.cmd (.invUpdateFs (BitVec.ofNat 16 n)))
  else if m = ".word".toList then
    (numberWord 32 ('#' :: a)).map fun v => .stmt (.wr .cmd (BitVec.ofNat 32 v))
  else if m = "RD".toList then (lookupWord regNames a).map fun r => .stmt (.rd r)
  else if m = "@PERIOD".toList then (phaseWord a).map fun k => .agent (.evPeriod k)
  else if m = "@FOREIGN".toList then
    (numberWord 5 a).map fun b => .agent (.evForeign (Fin.ofNat 32 b))
  else if m = "@TIME".toList then (numberWord 64 a).map fun t => .time (BitVec.ofNat 64 t)
  else if m = "@ADC".toList then (numberWord 16 a).map fun r => .adc (BitVec.ofNat 16 r)
  else if m = "@SEQ".toList then (lookupWord seqWords a).map .agent
  else (lookupWord phaseMnemonics m).bind fun f => (phaseWord a).map fun k => .stmt (.cmd (f k))

/-- A statement of three words. -/
def parse3 (m a b : List Char) : Option Line :=
  if m = "WR".toList then
    ((beforeComma a).bind (lookupWord regNames)).bind fun r =>
      (numberWord 32 b).map fun v => .stmt (.wr r (BitVec.ofNat 32 v))
  else if m = "SET_CARRIER".toList then
    ((beforeComma a).bind phaseWord).bind fun k =>
      (numberWord 32 b).map fun v => .stmt (.pseudo (.setCarrier k (BitVec.ofNat 32 v)))
  else none

/-- The letters of a task in an order comment: `S`, `A0`, `A1`, `A2`. -/
def taskWord : Task → List Char
  | .scaler => ['S']
  | .apply .p0 => ['A', '0']
  | .apply .p1 => ['A', '1']
  | .apply .p2 => ['A', '2']

/-- The drawn order that a comment's words carry, if they carry one: `order S,A0,A1,A2`
(30_encoding.md R94). -/
def orderComment : List (List Char) → Option Nat
  | [] => none
  | [_] => none
  | w :: o :: ws =>
    if w = "order".toList then
      (List.range 24).find? fun d => (taskOrder d).map taskWord == splitWords ',' o
    else orderComment (o :: ws)

/-- A line with the order its comment carries: only an `FG_ITER` line has one (30_encoding.md R94). -/
def withOrder (l : Line) (order : Option Nat) : Line :=
  if l = .stmt (.cmd .fgIter) then
    match order with
    | some d => .fgIter d
    | none => l
  else l

/-- The line of one line of text: `some none` for an empty one or a comment, `none` for a text that is
no statement (30_encoding.md R94). -/
def parseLine (cs : List Char) : Option (Option Line) :=
  let code := cs.takeWhile (· ≠ ';')
  let order := orderComment (splitWords ' ' ((cs.dropWhile (· ≠ ';')).drop 1))
  match splitWords ' ' code with
  | [] => some none
  | [m] => (parse1 m).map fun l => some (withOrder l order)
  | [m, a] => (parse2 m a).map some
  | [m, a, b] => (parse3 m a b).map some
  | _ => none

/-- The lines of a program's text, `none` if one of them is no statement. -/
def parseProgram (text : List (List Char)) : Option (List Line) :=
  (text.mapM parseLine).map fun ls => ls.filterMap id

end Sys2Proof.Machine
end

