-- ==== Sys2Proof/Safety.lean ====
section
/-! DEFINITION. What the statements about the machine speak of: the invariant of its states, the
transactions it may issue, what is counted over a run, and fair executions. -/

namespace Sys2Proof.Machine

/-! ### The invariant -/

/-- What holds of phase `k` in every state a run reaches. -/
structure PhaseInv (s : State) (k : Phase) : Prop where
  /-- "Cursor index is always valid into SineTable" (10_state.md R23). -/
  cursor_lt : (s.ph.get k).cursor.toNat < s.cfg.n
  /-- A duty is a legal percentage (41_phase_channel.md R123). -/
  duty_le : (s.ph.get k).duty.toNat ≤ 25600
  /-- Only a channel that exists is initialised (41_phase_channel.md R120). -/
  init_present : (s.ph.get k).chInit = true → s.cfg.present.get k = true
  /-- An initialised channel's timer runs and raises events (20_memory.md R74). -/
  init_running : (s.ph.get k).chInit = true → s.started.get k = true ∧ s.ena.get k = true
  /-- No mark before the handler is registered (41_phase_channel.md R120). -/
  pending_handled : (s.ph.get k).pending = true → s.handlerReg = true

/-- The mask of every interrupt source of the unit (43_completion_handler.md R160). -/
def sourceMask (c : Config) : Word :=
  c.foreignMask ||| BitVec.twoPow 32 c.irqBit.p0.val ||| BitVec.twoPow 32 c.irqBit.p1.val
    ||| BitVec.twoPow 32 c.irqBit.p2.val

/-- A PWM transaction the block may issue: it names the one unit (00_scope.md R11), and a duty goes
to the high-side operator of a phase's timer (41_phase_channel.md R131) as a legal percentage
(R123). -/
def legalTx (c : Config) : PwmTx → Prop
  | .bindPin u _ _ => u = c.unit
  | .configure u _ _ _ _ _ _ => u = c.unit
  | .enableDeadtime u _ _ _ _ => u = c.unit
  | .enablePeriodInt u _ => u = c.unit
  | .start u _ => u = c.unit
  | .registerHandler u => u = c.unit
  | .setFrequency u _ _ => u = c.unit
  | .setDuty u timer op percent =>
    u = c.unit ∧ (∃ k, timer = c.timer.get k) ∧ op = c.opA ∧ percent.toNat ≤ 25600
  | .readStatus u _ => u = c.unit
  | .clearStatus u _ => u = c.unit

/-- An ADC transaction the block may issue: a sample lies in `[0, ADC_MAX]` (20_memory.md R75). -/
def legalAdcTx (c : Config) : AdcTx → Prop
  | .configureResolution _ => True
  | .configureInputRange _ _ => True
  | .readRaw _ raw => raw.toNat ≤ c.adcMax

/-- The invariant: what holds of every state a run from reset reaches, whatever the configuration,
the host's program and the draws. -/
structure Inv (s : State) : Prop where
  /-- Each phase's part. -/
  phases : ∀ k, PhaseInv s k
  /-- `SCALE <= 0x8000` at every state (10_state.md R28). -/
  scale_le : s.scale.toNat ≤ 0x8000
  /-- `CARRIER = ELEC_FREQ * N` (10_state.md R30; both are 0 before the first update). -/
  carrier_eq : s.carrier.toNat = s.elecFreq.toNat * s.cfg.n
  /-- `ELEC_FREQ` is 0, "not yet computed", or within its bounds (10_state.md R29, 42_inverter.md
  R142). -/
  elec_range : s.elecFreq = 0 ∨
    s.cfg.minFreq * 256 ≤ s.elecFreq.toNat ∧ s.elecFreq.toNat ≤ s.cfg.maxFreq * 256
  /-- `LAST_T <= NOW_PREV` at every state (44_analog_scaler.md R176). -/
  last_le : s.lastT.toNat ≤ s.nowPrev.toNat
  /-- Time never falls below where it began (10_state.md R46). -/
  init_le : s.cfg.lastTInit.toNat ≤ s.nowPrev.toNat
  /-- With the handler registered, startup is complete (42_inverter.md R140). -/
  handler_init : s.handlerReg = true → channelsInit s = true
  /-- The sequencer is active only on an initialised block (42_inverter.md R148). -/
  seq_init : seqActive s = true → initDone s = true
  /-- The interrupt engine runs only after registration (43_completion_handler.md R161). -/
  isr_handled : s.isrActive = true → s.handlerReg = true
  /-- During an invocation every latched bit is still pending in the unit
  (43_completion_handler.md R162). -/
  latched_pending : s.isrActive = true → s.isrM ≠ 0 ∧ s.isrM &&& ~~~s.intSt = 0
  /-- Only the unit's sources are ever pending (43_completion_handler.md R160). -/
  sources : s.intSt &&& ~~~sourceMask s.cfg = 0
  /-- Every logged PWM transaction is one the block may issue. -/
  pwm_legal : ∀ tx ∈ s.pwmLog, legalTx s.cfg tx
  /-- Every logged ADC transaction is one the block may issue. -/
  adc_legal : ∀ tx ∈ s.adcLog, legalAdcTx s.cfg tx

/-! ### The pieces statements are written with -/

/-- `s` once its first listed turn is drawn, with that turn's answers, and `rest` is left. -/
def afterDraw (s : State) (answers : Answers) (rest : List Turn) : State :=
  { s with draws := { turns := rest, answers := answers, count := s.draws.count + 1 } }

/-- `s` with the error bits `bits` set and nothing else changed (60_exceptions.md R186). -/
def withErr (s : State) (bits : BitVec 9) : State := { s with err := s.err ||| bits }

/-- The three phases' transactions, one per existing phase, in the order 0, 1, 2. -/
def perPresent (c : Config) (tx : Phase → PwmTx) : List PwmTx :=
  (Phase.all.filter fun k => c.present.get k).map tx

/-- Each existing phase's copy changed by `f`, the others kept. -/
def onPresent {α : Type} (c : Config) (f : α → α) (r : PerPhase α) : PerPhase α where
  p0 := if c.present.p0 then f r.p0 else r.p0
  p1 := if c.present.p1 then f r.p1 else r.p1
  p2 := if c.present.p2 then f r.p2 else r.p2

/-- What a complete `UpdateFS(s)` leaves, each value written out from its rule: the scale, `ElecLaw`,
its product with `N`, and one `SET_FREQUENCY` per existing phase (42_inverter.md R141, R143). -/
def afterUpdateFs (s : State) (sc : BitVec 16) : State :=
  let elec := s.cfg.minFreq * 256 + ((s.cfg.maxFreq - s.cfg.minFreq) * sc.toNat + 64) / 128
  let hz : Word := BitVec.ofNat 32 (elec * s.cfg.n)
  { s with
    scale := sc
    elecFreq := BitVec.ofNat 32 elec
    carrier := hz
    pwmLog := s.pwmLog ++ perPresent s.cfg fun k => .setFrequency s.cfg.unit (s.cfg.timer.get k) hz
    ph := onPresent s.cfg (fun r => { r with freq := hz }) s.ph }

/-- `t` is a complete `ScalerCheck()` from `s`, written out from its rule: a time not before `NOW_PREV`
is read; when more than a period has passed one sample in `[0, ADC_MAX]` is read, `LAST_T` set and
the scale and frequencies updated from it; else nothing more changes (44_analog_scaler.md R175, R176).
Of the draws at most the time and sample answers and the count change. -/
def ScalerChecked (s t : State) : Prop :=
  ∃ (now : BitVec 64) (raw : BitVec 16) (d : Draws),
    s.nowPrev.toNat ≤ now.toNat ∧ raw.toNat ≤ s.cfg.adcMax ∧
    d.turns = s.draws.turns ∧ d.answers.order = s.draws.answers.order ∧
    t = if s.lastT.toNat + s.cfg.samplePeriod.toNat < now.toNat then
        afterUpdateFs
          { s with
            nowPrev := now
            lastT := now
            adcLog := s.adcLog ++ [.readRaw s.cfg.adcCh raw]
            draws := d }
          (BitVec.ofNat 16
            ((2 * raw.toNat * 32768 + s.cfg.adcMax) / (2 * s.cfg.adcMax)))
      else { s with nowPrev := now, draws := d }

/-- `t` is a complete `Apply(k)` from `s` with an update pending, written out from its rule: the duty of
the table entry at the cursor before the advance, at the current scale, is sent and recorded, the
flag cleared and the cursor advanced modulo `N`; nothing else changes (41_phase_channel.md R122,
R125). -/
def Applied (k : Phase) (s t : State) : Prop :=
  ∃ e duty, s.cfg.table[(s.ph.get k).cursor.toNat]? = some e ∧
    duty = BitVec.ofInt 16
      (12800 + (((e.toNat : Int) - 12800) * (s.scale.toNat : Int) + 16384) / 32768) ∧
    t = { s with
      pwmLog := s.pwmLog ++ [.setDuty s.cfg.unit (s.cfg.timer.get k) s.cfg.opA duty]
      ph := s.ph.set k
        { s.ph.get k with
          pending := false
          duty := duty
          cursor := BitVec.ofNat 12 (((s.ph.get k).cursor.toNat + 1) % s.cfg.n) } }

/-- The four tasks of an iteration (42_inverter.md R145). -/
def fourTasks : List Task := [.scaler, .apply .p0, .apply .p1, .apply .p2]

/-- `s` with the host's accesses `as` and the turns `ts` after the inputs already there. -/
def adding (s : State) (as : List HostAccess) (ts : List Turn) : State :=
  { s with
    hostProg := s.hostProg ++ as
    draws := { s.draws with turns := s.draws.turns ++ ts } }

/-- The lines of a program that make turns none of which reads the ports (30_encoding.md R94, R95;
20_memory.md R76), each with the host's accesses and the agents' turns it comes to. -/
inductive OtherLine (c : Config) : Line → List HostAccess → List AgentStep → Prop where
  /-- An agent's step that is not the `SCALER` task. -/
  | agent (a : AgentStep) (h : a ≠ .seqTask .scaler) : OtherLine c (.agent a) [] [a]
  /-- `@ISR`. -/
  | isr : OtherLine c .isr [] [.isrEntry, .isrMarkAck]
  /-- A command that is neither `SCALER_CHECK` nor `FG_ITER`. -/
  | command (i : Instr) (h : i ≠ .scalerCheck ∧ i ≠ .fgIter) :
      OtherLine c (.stmt (.cmd i)) [commandAccess c (encode i)] [.host]
  /-- `RD`. -/
  | read (r : Reg) : OtherLine c (.stmt (.rd r)) [.read (c.sdeBase + regOffset r) 4] [.host]
  /-- `WR` of a register other than `CMD`. -/
  | write (r : Reg) (v : Word) (h : r ≠ .cmd) :
      OtherLine c (.stmt (.wr r v)) [.write (c.sdeBase + regOffset r) 4 v] [.host]
  /-- `WR CMD` of a word that the decoder refuses. -/
  | refused (w : Word) (e : CmdError) (h : decode w = .error e) :
      OtherLine c (.stmt (.wr .cmd w)) [commandAccess c w] [.host]
  /-- A pseudo-instruction. -/
  | pseudo (p : Pseudo) : OtherLine c (.stmt (.pseudo p)) (stmtAccesses c (.pseudo p))
      ((stmtAccesses c (.pseudo p)).map fun _ => .host)

/-! ### Counting over a run -/

/-- A `SET_DUTY` transaction to a timer. -/
def isDutyTo (timer : Nat) : PwmTx → Bool
  | .setDuty _ t _ _ => t == timer
  | _ => false

/-- How many duties were sent to phase `k`. -/
def dutiesSent (s : State) (k : Phase) : Nat := s.pwmLog.countP (isDutyTo (s.cfg.timer.get k))

/-- The period events of phase `k` on their way to a duty: the bit pending in the unit and the mark
not yet applied (43_completion_handler.md R168). -/
def eventsWaiting (s : State) (k : Phase) : Nat :=
  (irqBitSet s s.intSt k).toNat + (s.ph.get k).pending.toNat

/-- Whether the next step is `EV_PERIOD(k)`, drawn and enabled. -/
def isPeriodEvent (k : Phase) (s : State) : Bool :=
  nextAgent s == .evPeriod k && enabled (.evPeriod k) s

/-- How many of the next `n` steps are `EV_PERIOD(k)`. -/
def periodEvents (k : Phase) : Nat → State → Nat
  | 0, _ => 0
  | n + 1, s =>
    match step s with
    | .next s' => (isPeriodEvent k s).toNat + periodEvents k n s'
    | .fault _ => 0
    | .refused _ => 0

/-! ### Executions and fairness

Weak fairness (42_inverter.md R148, 43_completion_handler.md R163, R167, 60_exceptions.md R193): a
step that stays enabled is eventually taken. It is an assumption on an infinite sequence of draws,
for liveness statements only (entry 18). -/

/-- An infinite execution: each state is the step of the one before. -/
def Execution (e : Nat → State) : Prop := ∀ n, step (e n) = .next (e (n + 1))

/-- Agent step `a` is weakly fair in the execution: if it stays enabled from some point on, it is drawn
at some later point. -/
def WeaklyFair (a : AgentStep) (e : Nat → State) : Prop :=
  ∀ n, (∀ m, n ≤ m → enabled a (e m) = true) → ∃ m, n ≤ m ∧ nextAgent (e m) = a

/-- The fairness of 60_exceptions.md R193: the interrupt engine's and the sequencer's steps. -/
def FairExecution (e : Nat → State) : Prop :=
  Execution e ∧ WeaklyFair .isrEntry e ∧ WeaklyFair .isrMarkAck e ∧ WeaklyFair .seqStart e ∧
    ∀ t, WeaklyFair (.seqTask t) e

/-- The liveness assumption of 43_completion_handler.md R163: each `EV_PERIOD(k)` that is enabled from
some point on is taken infinitely often. -/
def PeriodsRecur (e : Nat → State) : Prop :=
  ∀ k n, (∀ m, n ≤ m → enabled (.evPeriod k) (e m) = true) →
    ∀ m, n ≤ m → ∃ j, m ≤ j ∧ nextAgent (e j) = .evPeriod k

end Sys2Proof.Machine
end

