-- ==== Sys2Proof/Certificates/Slice0/Obligations.lean ====
section
/-! DEFINITION. The statements about the machine, each a proposition for the provers. -/

open Sys2Proof Sys2Proof.Machine

/-! ### Reset and the invariant -/

/-- 70_reset_and_hazards.md R211: a `RESET` that is drawn sets every stored piece of block state to its
reset value, leaves the table (with all of the configuration), and the derived values follow. -/
def Obligations.ResetSetsEveryBlockRegister : Prop :=
  ∀ (s : State) (ans : Answers) (rest : List Turn), s.draws.turns = ⟨.reset, ans⟩ :: rest →
    ∃ t, step s = .next t ∧
      (∀ k, t.ph.get k = ⟨BitVec.ofNat 12 (k.toNat * s.cfg.n / 3), false, false, 0, 0⟩) ∧
      t.scale = 0 ∧ t.elecFreq = 0 ∧ t.carrier = 0 ∧ t.handlerReg = false ∧
      t.lastT = s.cfg.lastTInit ∧ t.isrActive = false ∧ t.isrM = 0 ∧ t.fgTodo = 0 ∧
      t.runReq = false ∧ t.arg = 0 ∧ t.result = 0 ∧ t.err = 0 ∧ t.cfg = s.cfg ∧
      initDone t = false ∧ seqActive t = false ∧ irq t = false ∧
      regValue t .status = some 0 ∧
      ∀ k, regValue t (.phFlags k) = some (if s.cfg.present.get k then 4 else 0)

/-- 70_reset_and_hazards.md R210, R223: a `RESET` appends nothing to the logs and does not touch the
external state. That the inputs still to come stay is the model's (entry 17). -/
def Obligations.ResetLeavesLogsAndPeripheral : Prop :=
  ∀ (s : State) (ans : Answers) (rest : List Turn), s.draws.turns = ⟨.reset, ans⟩ :: rest →
    ∃ t, step s = .next t ∧ t.pwmLog = s.pwmLog ∧ t.adcLog = s.adcLog ∧ t.intSt = s.intSt ∧
      t.ena = s.ena ∧ t.started = s.started ∧ t.nowPrev = s.nowPrev ∧
      t.hostProg = s.hostProg ∧ t.hostReads = s.hostReads ∧ t.draws = (afterDraw s ans rest).draws

/-- The state after the first reset meets the invariant, in every configuration and so in
`State.reset`'s, which is the model's choice (entries 1, 2, 12). -/
def Obligations.LaunchStateMeetsInvariant : Prop :=
  (∀ c : Config, Inv (State.resetOf c)) ∧ Inv State.reset

/-- Every step keeps the invariant: cursors below `N`, legal duties and scale, `CARRIER = ELEC_FREQ *
N`, time order, the lifecycle of the handler and the sequencer, and the interrupt latch. -/
def Obligations.EveryStepKeepsInvariant : Prop :=
  ∀ s t : State, Inv s → step s = .next t → Inv t

/-! ### Encoding -/

/-- Decoding the word of a well-formed instruction gives the instruction back, for every operand
value the encoding admits (30_encoding.md R84, R86, R87). -/
def Obligations.DecodeInvertsEncode : Prop :=
  ∀ i : Instr, i.wf = true → decode (encode i) = .ok i

/-- A word that decodes is the one word of its instruction, which is well formed: no bit of a
command word is ignored (30_encoding.md R88, R91). -/
def Obligations.EncodeInvertsDecode : Prop :=
  ∀ (w : Word) (i : Instr), decode w = .ok i → i.wf = true ∧ encode i = w

/-- Words written out in 30_encoding.md R96 decode to the commands that table gives them. -/
def Obligations.ListedWordsDecode : Prop :=
  decode 0x00000000#32 = .ok .nop ∧
  decode 0x10000005#32 = .ok (.tblRead 5) ∧
  decode 0x24000000#32 = .ok (.phInit 1) ∧
  decode 0x38000000#32 = .ok (.phApply 2) ∧
  decode 0x44000000#32 = .ok (.phSetCarrier 1) ∧
  decode 0x50000000#32 = .ok .invInit ∧
  decode 0x60004000#32 = .ok (.invUpdateFs 0x4000) ∧
  decode 0x70000000#32 = .ok .scalerCheck ∧
  decode 0x80000000#32 = .ok .fgIter ∧
  decode 0x90000000#32 = .ok .adcInit

/-- 30_encoding.md R88 (with R86, R87, R89 and the order of 60_exceptions.md R187): exactly which
words the decoder refuses, and as what. -/
def Obligations.DecoderRefusesExactlyReservedWords : Prop :=
  (∀ w : Word, decode w = .error .illegalOp ↔ 0xA ≤ w.toNat / 2 ^ 28) ∧
  (∀ w : Word, decode w = .error .rsvField ↔
    (w.toNat / 2 ^ 28 ∈ [0, 5, 7, 8, 9] ∧ w &&& 0x0FFFFFFF#32 ≠ 0 ∨
      w.toNat / 2 ^ 28 ∈ [2, 3, 4] ∧ w &&& 0x03FFFFFF#32 ≠ 0 ∨
      w.toNat / 2 ^ 28 = 1 ∧ w &&& 0x0FFFF000#32 ≠ 0 ∨
      w.toNat / 2 ^ 28 = 6 ∧ w &&& 0x0FFF0000#32 ≠ 0)) ∧
  (∀ w : Word, decode w = .error .badPhase ↔
    w.toNat / 2 ^ 28 ∈ [2, 3, 4] ∧ w &&& 0x03FFFFFF#32 = 0 ∧ w.toNat / 2 ^ 26 % 4 = 3)

/-! ### The step and the command port -/

/-- A host step whose next access is a write of `w` to `CMD` runs the instruction `w` decodes to: the
step is `exec` of it, at the state with the draw made and the access gone (20_memory.md R72,
30_encoding.md R85). -/
def Obligations.StepRunsDecodedCommand : Prop :=
  ∀ (s : State) (w : Word) (i : Instr) (ans : Answers) (rest : List Turn) (prog : List HostAccess),
    s.draws.turns = ⟨.host, ans⟩ :: rest →
    s.hostProg = .write (s.cfg.sdeBase + 0x10) 4 w :: prog →
    s.isrActive = false → decode w = .ok i → i.wf = true →
    step s = exec i { afterDraw s ans rest with hostProg := prog }

/-- The same access with a word the decoder refuses sets that one error bit and nothing else
(60_exceptions.md R186, R187, 30_encoding.md R91). -/
def Obligations.StepRefusesUndecodableWord : Prop :=
  ∀ (s : State) (w : Word) (ans : Answers) (rest : List Turn) (prog : List HostAccess),
    s.draws.turns = ⟨.host, ans⟩ :: rest →
    s.hostProg = .write (s.cfg.sdeBase + 0x10) 4 w :: prog →
    s.isrActive = false →
    (decode w = .error .illegalOp →
      step s = .next (withErr { afterDraw s ans rest with hostProg := prog } 0x001)) ∧
    (decode w = .error .rsvField →
      step s = .next (withErr { afterDraw s ans rest with hostProg := prog } 0x002)) ∧
    (decode w = .error .badPhase →
      step s = .next (withErr { afterDraw s ans rest with hostProg := prog } 0x004))

/-- The host makes its accesses in order, one a step; only a legal `CMD` write waits, and only while
an invocation of the interrupt engine is in progress (20_memory.md R72, 60_exceptions.md R193). That a
write of another width does not wait is the model's reading (entry 10). -/
def Obligations.HostAccessesProceedUnlessCommandWaits : Prop :=
  ∀ (s : State) (a : HostAccess) (ans : Answers) (rest : List Turn) (prog : List HostAccess),
    s.draws.turns = ⟨.host, ans⟩ :: rest → s.hostProg = a :: prog →
    (s.isrActive = false ∨ (∀ w, a ≠ .write (s.cfg.sdeBase + 0x10) 4 w) →
      step s = hostAccess a { afterDraw s ans rest with hostProg := prog }) ∧
    (s.isrActive = true → (∃ w, a = .write (s.cfg.sdeBase + 0x10) 4 w) →
      step s = .next (afterDraw s ans rest))

/-- The model's interface (entry 9): a command placed by `withFetchWord` is what the very next step
runs. -/
def Obligations.PlacedCommandRunsNext : Prop :=
  ∀ (s : State) (w : Nat) (i : Instr), decodeTableWord 32 w = some i →
    step (s.withFetchWord 32 w) =
      exec i { afterDraw s .none s.draws.turns with isrActive := false }

/-- 60_exceptions.md R186: a command that sets an error bit leaves all other state as it was, and sets
one bit. -/
def Obligations.RefusedCommandChangesOnlyErr : Prop :=
  ∀ (w : Word) (s : State), ∃ t, commandWrite w s = .next t ∧
    (t.err ≠ s.err → ∃ b : Fin 8, t = withErr s (BitVec.twoPow 9 b.val))

/-- 42_inverter.md R147, 60_exceptions.md R187: while the sequencer is active every well-formed
foreground command is refused with `BUSY` and changes nothing else; `NOP` and `TBL_READ` are
accepted; an ill-formed phase is `BAD_PHASE` before that. -/
def Obligations.ForegroundCommandsBusyWhileSequencing : Prop :=
  ∀ s : State,
    (seqActive s = true → ∀ i : Instr, i.wf = true → i ≠ .nop → (∀ imm, i ≠ .tblRead imm) →
      exec i s = .next (withErr s 0x008)) ∧
    exec .nop s = .next s ∧
    (∀ imm, imm.toNat < s.cfg.n → exec (.tblRead imm) s =
      .next { s with result := ((s.cfg.table[imm.toNat]?).getD 0).setWidth 32 }) ∧
    exec (.phInit 3) s = .next (withErr s 0x004) ∧
    exec (.phApply 3) s = .next (withErr s 0x004) ∧
    exec (.phSetCarrier 3) s = .next (withErr s 0x004)

/-- 70_reset_and_hazards.md R214: what is refused with `NOT_INIT` before boot, and what is accepted
then: `NOP` always, `TBL_READ` of a table index, `ADC_INIT`, and each initialisation that is the
first. -/
def Obligations.BeforeBootRefusals : Prop :=
  ∀ s : State, initDone s = false → seqActive s = false →
    (∀ imm, exec (.invUpdateFs imm) s = .next (withErr s 0x010)) ∧
    exec .scalerCheck s = .next (withErr s 0x010) ∧
    exec .fgIter s = .next (withErr s 0x010) ∧
    (∀ v : Word, v.getLsbD 0 = true →
      hostAccess (.write (s.cfg.sdeBase + 0x0C) 4 v) s = .next (withErr s 0x010)) ∧
    (∀ (ph : BitVec 2) (k : Phase), ph.toNat = k.toNat → s.cfg.present.get k = true →
      (s.ph.get k).chInit = false →
        exec (.phApply ph) s = .next (withErr s 0x010) ∧
        exec (.phSetCarrier ph) s = .next (withErr s 0x010)) ∧
    exec .nop s = .next s ∧
    (∀ imm, imm.toNat < s.cfg.n → ∃ t, exec (.tblRead imm) s = .next t ∧ t.err = s.err) ∧
    (∃ t, exec .adcInit s = .next t ∧ t.err = s.err) ∧
    (∀ (ph : BitVec 2) (k : Phase), ph.toNat = k.toNat → (s.ph.get k).chInit = false →
      ∃ t, exec (.phInit ph) s = .next t ∧ t.err = s.err) ∧
    (anyInit s = false → ∃ t, exec .invInit s = .next t ∧ t.err = s.err)

/-! ### The commands -/

/-- 42_inverter.md R149: `NOP` is exactly one word, changes nothing and is accepted in every state;
any other word of its opcode is `RSV_FIELD`. -/
def Obligations.NopIsOneWordWithoutEffect : Prop :=
  encode .nop = 0x00000000#32 ∧
  (∀ s : State, exec .nop s = .next s) ∧
  (∀ s : State, commandWrite 0x00000000#32 s = .next s) ∧
  (∀ (w : Word) (s : State), w.toNat / 2 ^ 28 = 0 → w ≠ 0x00000000#32 →
    commandWrite w s = .next (withErr s 0x002))

/-- 40_sine_table.md R112: `TBL_READ #i` writes the zero-extended entry to `RESULT` and nothing else;
an index at or above `N` is `BAD_INDEX`, a reserved bit `RSV_FIELD`; entry 0 is 50 percent; and the
rule's example on the reference table. -/
def Obligations.TableReadReturnsEntry : Prop :=
  ∀ (s : State) (imm : BitVec 12),
    encode (.tblRead imm) = 0x10000000#32 ||| imm.setWidth 32 ∧
    (imm.toNat < s.cfg.n → ∃ t, s.cfg.table[imm.toNat]? = some t ∧
      exec (.tblRead imm) s = .next { s with result := t.setWidth 32 }) ∧
    (s.cfg.n ≤ imm.toNat → exec (.tblRead imm) s = .next (withErr s 0x040)) ∧
    (imm = 0 → exec (.tblRead imm) s = .next { s with result := 12800#32 }) ∧
    (s.cfg.table = Config.tRef33 → imm = 11 → encode (.tblRead imm) = 0x1000000B#32 ∧
      exec (.tblRead imm) s = .next { s with result := 0x5D4D#32 }) ∧
    (∀ w : Word, w.toNat / 2 ^ 28 = 1 → w &&& 0x0FFFF000#32 ≠ 0 →
      commandWrite w s = .next (withErr s 0x002))

/-- 41_phase_channel.md R120: `PH_INIT pK` on an existing, uninitialised channel issues the six
transactions in order, arms and starts the timer, and writes `CH_INIT`, `DUTY` and `FREQ`; nothing
else changes. A second init is `ALREADY_INIT`; an absent channel is a silent no-op. -/
def Obligations.PhaseInitConfiguresChannel : Prop :=
  ∀ (s : State) (ph : BitVec 2) (k : Phase), ph.toNat = k.toNat → seqActive s = false →
    (s.cfg.present.get k = false → exec (.phInit ph) s = .next s) ∧
    (s.cfg.present.get k = true → (s.ph.get k).chInit = true →
      exec (.phInit ph) s = .next (withErr s 0x020)) ∧
    (s.cfg.present.get k = true → (s.ph.get k).chInit = false →
      exec (.phInit ph) s = .next { s with
        pwmLog := s.pwmLog ++
          [ .bindPin s.cfg.unit (s.cfg.hiSig.get k) (s.cfg.hiPin.get k),
            .bindPin s.cfg.unit (s.cfg.loSig.get k) (s.cfg.loPin.get k),
            .configure s.cfg.unit (s.cfg.timer.get k) s.cfg.carrierDefault 0 0
              s.cfg.counterMode s.cfg.dutyMode,
            .enableDeadtime s.cfg.unit (s.cfg.timer.get k) s.cfg.dtMode
              (s.cfg.riseDelay.get k) (s.cfg.fallDelay.get k),
            .enablePeriodInt s.cfg.unit (s.cfg.timer.get k),
            .start s.cfg.unit (s.cfg.timer.get k) ]
        ena := s.ena.set k true
        started := s.started.set k true
        ph := s.ph.set k
          { s.ph.get k with chInit := true, duty := 0, freq := s.cfg.carrierDefault } })

/-- 41_phase_channel.md R125: `PH_APPLY pK` with a pending update clears the flag, sends the duty of
the entry at the cursor before the advance at the current scale, records it, and advances the
cursor modulo `N`; without one it does nothing; `NOT_INIT` comes first. Nothing else changes. -/
def Obligations.PhaseApplyConsumesPendingUpdate : Prop :=
  ∀ (s : State) (ph : BitVec 2) (k : Phase), ph.toNat = k.toNat → seqActive s = false →
    (s.cfg.present.get k = false → exec (.phApply ph) s = .next s) ∧
    (s.cfg.present.get k = true → (s.ph.get k).chInit = false →
      exec (.phApply ph) s = .next (withErr s 0x010)) ∧
    (s.cfg.present.get k = true → (s.ph.get k).chInit = true → (s.ph.get k).pending = false →
      exec (.phApply ph) s = .next s) ∧
    (s.cfg.present.get k = true → (s.ph.get k).chInit = true → (s.ph.get k).pending = true →
      (s.ph.get k).cursor.toNat < s.cfg.n →
      ∃ e duty, s.cfg.table[(s.ph.get k).cursor.toNat]? = some e ∧
        duty = BitVec.ofInt 16
          (12800 + (((e.toNat : Int) - 12800) * (s.scale.toNat : Int) + 16384) / 32768) ∧
        exec (.phApply ph) s = .next { s with
          pwmLog := s.pwmLog ++
            [.setDuty s.cfg.unit (s.cfg.timer.get k) s.cfg.opA duty]
          ph := s.ph.set k
            { s.ph.get k with
              pending := false
              duty := duty
              cursor := BitVec.ofNat 12 (((s.ph.get k).cursor.toNat + 1) % s.cfg.n) } })

/-- 41_phase_channel.md R128: `PH_SET_CARRIER pK` forwards `ARG`, whatever its value, to phase `k`'s
timer and records it; nothing else changes. -/
def Obligations.PhaseSetCarrierForwardsArg : Prop :=
  ∀ (s : State) (ph : BitVec 2) (k : Phase), ph.toNat = k.toNat → seqActive s = false →
    (s.cfg.present.get k = false → exec (.phSetCarrier ph) s = .next s) ∧
    (s.cfg.present.get k = true → (s.ph.get k).chInit = false →
      exec (.phSetCarrier ph) s = .next (withErr s 0x010)) ∧
    (s.cfg.present.get k = true → (s.ph.get k).chInit = true →
      exec (.phSetCarrier ph) s = .next { s with
        pwmLog := s.pwmLog ++ [.setFrequency s.cfg.unit (s.cfg.timer.get k) s.arg]
        ph := s.ph.set k { s.ph.get k with freq := s.arg } })

/-- 42_inverter.md R140: `INV_INIT` initialises every existing channel in some order, each with its six
transactions together, then registers the handler; startup is then complete. Nothing else changes
but the draw. The order is the one of the number answered, if one is (the numbering is the model's,
entry 8; EveryDrawnOrderIsAdmitted: every order has its number). Any earlier initialisation is
`ALREADY_INIT`. -/
def Obligations.InverterInitStartsEveryChannel : Prop :=
  ∀ s : State, seqActive s = false →
    (anyInit s = true → exec .invInit s = .next (withErr s 0x020)) ∧
    (anyInit s = false → ∃ (order : List Phase) (t : State),
      order.Perm Phase.all ∧ (∀ d, s.draws.answers.order = some d → order = initOrder d) ∧
      exec .invInit s = .next t ∧ initDone t = true ∧
      t = { s with
        pwmLog := s.pwmLog
          ++ ((order.filter fun k => s.cfg.present.get k).flatMap fun k => phInitTxs s.cfg k)
          ++ [.registerHandler s.cfg.unit]
        ena := onPresent s.cfg (fun _ => true) s.ena
        started := onPresent s.cfg (fun _ => true) s.started
        ph := onPresent s.cfg
          (fun r => { r with chInit := true, duty := 0, freq := s.cfg.carrierDefault }) s.ph
        handlerReg := true
        draws := { s.draws with
          answers := { s.draws.answers with order := none }, count := s.draws.count + 1 } })

/-- 42_inverter.md R140, R146: the model admits all 6 orders of the channel inits and all 24 orders of
the tasks, and no other. -/
def Obligations.EveryDrawnOrderIsAdmitted : Prop :=
  (∀ d, (initOrder d).Perm Phase.all) ∧ (∀ d, (taskOrder d).Perm fourTasks) ∧
  (∀ order : List Phase, order.Perm Phase.all → ∃ d, d < 6 ∧ initOrder d = order) ∧
  (∀ order : List Task, order.Perm fourTasks → ∃ d, d < 24 ∧ taskOrder d = order)

/-- 42_inverter.md R143: `INV_UPDATE_FS #s` stores the scale, computes both frequencies and sends the
carrier to every existing channel in the order 0, 1, 2; nothing else changes. `NOT_INIT` comes
before `RANGE`. -/
def Obligations.UpdateAppliesFrequencyLaw : Prop :=
  ∀ (s : State) (imm : BitVec 16), seqActive s = false →
    encode (.invUpdateFs imm) = 0x60000000#32 ||| imm.setWidth 32 ∧
    (initDone s = false → exec (.invUpdateFs imm) s = .next (withErr s 0x010)) ∧
    (initDone s = true → 0x8000 < imm.toNat →
      exec (.invUpdateFs imm) s = .next (withErr s 0x080)) ∧
    (initDone s = true → imm.toNat ≤ 0x8000 →
      exec (.invUpdateFs imm) s = .next (afterUpdateFs s imm))

/-- 42_inverter.md R146: `FG_ITER` runs the four tasks once each, one after another, in a drawn order;
the number drawn is the one answered, if one is (the numbering is the model's, entry 8). What a task
does, SequencerStartsAndRunsTasks states. -/
def Obligations.IterationRunsEachTaskOnce : Prop :=
  ∀ s : State, seqActive s = false →
    (initDone s = false → exec .fgIter s = .next (withErr s 0x010)) ∧
    (initDone s = true → ∃ order : List Task, order.Perm fourTasks ∧
      exec .fgIter s = .next (order.foldl runTask { s with
        draws := { s.draws with
          answers := { s.draws.answers with order := none }, count := s.draws.count + 1 } })) ∧
    (initDone s = true → ∀ d, s.draws.answers.order = some d →
      exec .fgIter s = .next ((taskOrder d).foldl runTask { s with
        draws := { s.draws with
          answers := { s.draws.answers with order := none }, count := s.draws.count + 1 } }))

/-- 42_inverter.md R146 with 41_phase_channel.md R125, whatever the order drawn: an `FG_ITER` leaves no
existing phase pending, advances exactly the cursors of those that were, and touches no absent
phase, no error bit, no host register and no sequencer or interrupt register. -/
def Obligations.IterationConsumesEveryPendingFlag : Prop :=
  ∀ s : State, seqActive s = false → initDone s = true →
    ∃ t, exec .fgIter s = .next t ∧
      (∀ k, s.cfg.present.get k = true →
        (t.ph.get k).pending = false ∧ (t.ph.get k).chInit = (s.ph.get k).chInit ∧
        (t.ph.get k).cursor =
          if (s.ph.get k).pending then
            BitVec.ofNat 12 (((s.ph.get k).cursor.toNat + 1) % s.cfg.n)
          else (s.ph.get k).cursor) ∧
      (∀ k, s.cfg.present.get k = false → t.ph.get k = s.ph.get k) ∧
      t.err = s.err ∧ t.arg = s.arg ∧ t.result = s.result ∧ t.runReq = s.runReq ∧
      t.fgTodo = s.fgTodo ∧ t.isrActive = s.isrActive ∧ t.isrM = s.isrM ∧
      t.intSt = s.intSt ∧ t.started = s.started ∧ t.ena = s.ena ∧
      t.handlerReg = s.handlerReg ∧ t.cfg = s.cfg ∧
      t.hostProg = s.hostProg ∧ t.hostReads = s.hostReads

/-- 44_analog_scaler.md R176: `SCALER_CHECK` reads a time not before `NOW_PREV`; when more than a
period has passed it reads one sample in `[0, ADC_MAX]`, sets `LAST_T` and updates the scale and
frequencies from it; else it changes nothing more. -/
def Obligations.ScalerCheckSamplesWhenDue : Prop :=
  ∀ s : State, seqActive s = false →
    (initDone s = false → exec .scalerCheck s = .next (withErr s 0x010)) ∧
    (initDone s = true → ∃ t, exec .scalerCheck s = .next t ∧ ScalerChecked s t)

/-- 20_memory.md R75, R76: every answer the ports may give is admitted, at every read. Of the task
`SCALER`, which the sequencer, `FG_ITER` and the command `SCALER_CHECK` run: a time answered that is not
before `NOW_PREV` is the time read, and, when that time makes a sample due, a sample answered that lies
in `[0, ADC_MAX]` is the sample read and the scale is its `Norm`. -/
def Obligations.EveryPortAnswerIsAdmitted : Prop :=
  ∀ s : State,
    (seqActive s = false → initDone s = true →
      exec .scalerCheck s = .next (runTask s .scaler)) ∧
    (∀ now : BitVec 64, s.draws.answers.time = some now → s.nowPrev.toNat ≤ now.toNat →
      (runTask s .scaler).nowPrev = now) ∧
    (∀ raw : BitVec 16, s.draws.answers.sample = some raw → raw.toNat ≤ s.cfg.adcMax →
      s.lastT.toNat + s.cfg.samplePeriod.toNat < (runTask s .scaler).nowPrev.toNat →
        (runTask s .scaler).adcLog = s.adcLog ++ [.readRaw s.cfg.adcCh raw] ∧
        (runTask s .scaler).scale = BitVec.ofNat 16
          ((2 * raw.toNat * 32768 + s.cfg.adcMax) / (2 * s.cfg.adcMax)))

/-- 42_inverter.md R150: `ADC_INIT` appends its two transactions and changes nothing else; it needs no
initialisation, may be repeated, and is `BUSY` while the sequencer is active. -/
def Obligations.AdcInitIssuesConfiguration : Prop :=
  encode .adcInit = 0x90000000#32 ∧
  ∀ s : State,
    (seqActive s = false → exec .adcInit s = .next { s with
      adcLog := s.adcLog ++
        [ .configureResolution (BitVec.ofNat 5 s.cfg.adcBits),
          .configureInputRange s.cfg.adcCh s.cfg.adcAtten ] }) ∧
    (seqActive s = true → exec .adcInit s = .next (withErr s 0x008)) ∧
    (∀ w : Word, w.toNat / 2 ^ 28 = 9 → w ≠ 0x90000000#32 →
      commandWrite w s = .next (withErr s 0x002))

/-! ### The laws -/

/-- 41_phase_channel.md R123: the endpoints, the range, the zero crossing and the monotonicity of
`DutyLaw`. -/
def Obligations.DutyLawProperties : Prop :=
  ∀ t s : BitVec 16, t.toNat ≤ 25600 → s.toNat ≤ 32768 →
    dutyLaw t 0 = 12800 ∧ dutyLaw t 32768 = t ∧ (dutyLaw t s).toNat ≤ 25600 ∧
    dutyLaw 12800 s = 12800 ∧
    (∀ u : BitVec 16, u.toNat ≤ 25600 → t.toNat ≤ u.toNat →
      (dutyLaw t s).toNat ≤ (dutyLaw u s).toNat) ∧
    (∀ r : BitVec 16, r.toNat ≤ 32768 → s.toNat ≤ r.toNat →
      (12800 ≤ t.toNat → (dutyLaw t s).toNat ≤ (dutyLaw t r).toNat) ∧
      (t.toNat ≤ 12800 → (dutyLaw t r).toNat ≤ (dutyLaw t s).toNat))

/-- 41_phase_channel.md R122: `DutyLaw` on legal operands is the integer it defines, and equals the
32-bit datapath (signed product, add 0x4000, arithmetic shift right by 15, add 12800), in which
the product stays within 419430400. -/
def Obligations.DutyLawMatchesDatapath : Prop :=
  ∀ t s : BitVec 16, t.toNat ≤ 25600 → s.toNat ≤ 32768 →
    ((dutyLaw t s).toNat : Int) =
      12800 + (((t.toNat : Int) - 12800) * (s.toNat : Int) + 16384) / 32768 ∧
    (dutyLaw t s).toNat ≤ 25600 ∧
    |((t.toNat : Int) - 12800) * (s.toNat : Int)| ≤ 419430400 ∧
    (dutyLaw t s).setWidth 32 =
      ((t.setWidth 32 - 12800#32) * s.setWidth 32 + 0x4000#32).sshiftRight 15 + 12800#32

/-- 41_phase_channel.md R124: the block's duty is the source's real-valued duty in units of 1/256
percent, rounded to nearest with ties up, so it is within 1/2 of it; when a tie occurs; and the two
ties the rule gives. -/
def Obligations.DutyLawRoundsRealLaw : Prop :=
  dutyLaw 12799 0x4000 = 12800 ∧ dutyLaw 12801 0x4000 = 12801 ∧
  ∀ t s : BitVec 16, t.toNat ≤ 25600 → s.toNat ≤ 32768 →
    ∀ x : ℚ, x = ((t.toNat : ℚ) / 256 - 50) * ((s.toNat : ℚ) / 32768) + 50 →
      ((dutyLaw t s).toNat : Int) = ⌊256 * x + 1 / 2⌋ ∧
      |((dutyLaw t s).toNat : ℚ) - 256 * x| ≤ 1 / 2 ∧
      (|((dutyLaw t s).toNat : ℚ) - 256 * x| = 1 / 2 ↔
        (((t.toNat : Int) - 12800) * (s.toNat : Int)) % 32768 = 16384)

/-- 42_inverter.md R142: the endpoints, the monotonicity, the bounds and the exactness of `ElecLaw`
and `CarrierLaw` in every configuration; the source's real-valued law rounded to nearest; and the
source's example at the default bounds. -/
def Obligations.FrequencyLawProperties : Prop :=
  ∀ c : Config,
    (elecLaw c.toParams 0).toNat = c.minFreq * 256 ∧
    (elecLaw c.toParams 32768).toNat = c.maxFreq * 256 ∧
    (∀ r s : Nat, r ≤ s → s ≤ 32768 →
      (elecLaw c.toParams r).toNat ≤ (elecLaw c.toParams s).toNat ∧
      (carrierLaw c.toParams r).toNat ≤ (carrierLaw c.toParams s).toNat) ∧
    (∀ s : Nat, s ≤ 32768 →
      c.minFreq * 256 ≤ (elecLaw c.toParams s).toNat ∧
      (elecLaw c.toParams s).toNat ≤ c.maxFreq * 256 ∧
      (carrierLaw c.toParams s).toNat % c.n = 0 ∧
      (carrierLaw c.toParams s).toNat / c.n = (elecLaw c.toParams s).toNat ∧
      ((elecLaw c.toParams s).toNat : Int) =
        ⌊256 * ((c.minFreq : ℚ) + ((c.maxFreq : ℚ) - c.minFreq) * (s : ℚ) / 32768) + 1 / 2⌋) ∧
    (c.minFreq = 40 → c.maxFreq = 60 → c.n = 33 →
      elecLaw c.toParams 0x4000 = 0x3200 ∧ carrierLaw c.toParams 0x4000 = 0x67200)

/-- 44_analog_scaler.md R175: `Norm` is the rounded ratio, exact at both ends, monotone, and never an
illegal scale; with the examples for a 12-bit ADC. -/
def Obligations.NormalisationProperties : Prop :=
  ∀ c : Config,
    Machine.norm c.toParams 0 = 0 ∧ Machine.norm c.toParams c.adcMax = 0x8000 ∧
    (∀ raw : Nat, raw ≤ c.adcMax →
      (Machine.norm c.toParams raw).toNat =
        (2 * raw * 32768 + c.adcMax) / (2 * c.adcMax) ∧
      (Machine.norm c.toParams raw).toNat ≤ 0x8000) ∧
    (∀ a b : Nat, a ≤ b → b ≤ c.adcMax →
      (Machine.norm c.toParams a).toNat ≤ (Machine.norm c.toParams b).toNat) ∧
    (c.adcBits = 12 →
      Machine.norm c.toParams 2048 = 0x4004 ∧ Machine.norm c.toParams 2047 = 0x3FFC ∧
      Machine.norm c.toParams 1 = 8 ∧
      ∀ raw : Nat, raw ≤ c.adcMax → Machine.norm c.toParams raw ≠ 0x4000)

/-! ### The interrupt engine and the environment -/

/-- 43_completion_handler.md R164: each event sets its bit of `INT_ST` when it is enabled, and nothing
else. That it changes nothing when drawn while it is not enabled is the model's choice (entry 5). -/
def Obligations.EventsLatchTheirBit : Prop :=
  ∀ (s : State) (ans : Answers) (rest : List Turn),
    (∀ k, s.draws.turns = ⟨.evPeriod k, ans⟩ :: rest →
      step s = .next (if s.started.get k = true ∧ s.ena.get k = true then
        { afterDraw s ans rest with
          intSt := s.intSt ||| BitVec.twoPow 32 (s.cfg.irqBit.get k).val }
        else afterDraw s ans rest)) ∧
    (∀ b : Fin 32, s.draws.turns = ⟨.evForeign b, ans⟩ :: rest →
      step s = .next (if s.cfg.foreignMask.getLsbD b.val = true then
        { afterDraw s ans rest with intSt := s.intSt ||| BitVec.twoPow 32 b.val }
        else afterDraw s ans rest))

/-- 43_completion_handler.md R165: the engine's entry, enabled exactly when `IRQ = 1` and no invocation
is in progress, latches the pending mask; nothing else changes. That it changes nothing when drawn
while it is not enabled is the model's choice (entry 5). -/
def Obligations.EntryLatchesPendingMask : Prop :=
  ∀ (s : State) (ans : Answers) (rest : List Turn), s.draws.turns = ⟨.isrEntry, ans⟩ :: rest →
    (s.handlerReg = true ∧ s.intSt ≠ 0 ∧ s.isrActive = false →
      step s = .next { afterDraw s ans rest with
        pwmLog := s.pwmLog ++ [.readStatus s.cfg.unit s.intSt]
        isrM := s.intSt
        isrActive := true }) ∧
    (¬(s.handlerReg = true ∧ s.intSt ≠ 0 ∧ s.isrActive = false) →
      step s = .next (afterDraw s ans rest))

/-- 43_completion_handler.md R166: the engine's return marks exactly the latched phases, acknowledges
exactly the latched mask, and ends the invocation; nothing else changes. That it changes nothing when
drawn while no invocation is in progress is the model's choice (entry 5). -/
def Obligations.ReturnMarksAndAcknowledges : Prop :=
  ∀ (s : State) (ans : Answers) (rest : List Turn), s.draws.turns = ⟨.isrMarkAck, ans⟩ :: rest →
    (s.isrActive = true → ∃ r : PerPhase PhaseRegs,
      (∀ k, r.get k = { s.ph.get k with
        pending := (s.ph.get k).pending || s.isrM.getLsbD (s.cfg.irqBit.get k).val }) ∧
      step s = .next { afterDraw s ans rest with
        ph := r
        pwmLog := s.pwmLog ++ [.clearStatus s.cfg.unit s.isrM]
        intSt := s.intSt &&& ~~~s.isrM
        isrActive := false }) ∧
    (s.isrActive = false → step s = .next (afterDraw s ans rest))

/-- 20_memory.md R79, 10_state.md R24: the ownership of the pending flag, over every step: it is set
only by the engine's return for a latched phase, and cleared only by the foreground (the host, or
the sequencer's apply of that phase) or by reset. -/
def Obligations.PendingFlagHandoff : Prop :=
  ∀ (s t : State) (k : Phase), step s = .next t →
    ((s.ph.get k).pending = false → (t.ph.get k).pending = true →
      nextAgent s = .isrMarkAck ∧ s.isrActive = true ∧ irqBitSet s s.isrM k = true) ∧
    ((s.ph.get k).pending = true → (t.ph.get k).pending = false →
      (s.isrActive = false ∧ (nextAgent s = .host ∨ nextAgent s = .seqTask (.apply k))) ∨
        nextAgent s = .reset)

/-- 43_completion_handler.md R168: over any run from a state that meets the invariant, the duties sent
to a phase are at most its period events, counting those already on their way. -/
def Obligations.PeriodEventsBoundDuties : Prop :=
  ∀ (n : Nat) (s t : State) (k : Phase), Inv s → Host.Core.run Sys2Proof.core n s = .next t →
    dutiesSent t k + eventsWaiting t k
      ≤ dutiesSent s k + eventsWaiting s k + periodEvents k n s

/-- 41_phase_channel.md R126: an apply without a pending update changes nothing however often it runs;
any number `m >= 1` of marks followed by one apply advance the cursor by one and send one duty. -/
def Obligations.MarksCoalesce : Prop :=
  ∀ (s : State) (k : Phase),
    ((s.ph.get k).pending = false → ∀ m, (applyProc k)^[m] s = s) ∧
    (∀ m, 1 ≤ m → ∃ duty,
      (applyProc k ((markDirty k)^[m] s)).pwmLog =
        s.pwmLog ++ [.setDuty s.cfg.unit (s.cfg.timer.get k) s.cfg.opA duty] ∧
      (applyProc k ((markDirty k)^[m] s)).ph =
        s.ph.set k { s.ph.get k with
          pending := false
          duty := duty
          cursor := BitVec.ofNat 12 (((s.ph.get k).cursor.toNat + 1) % s.cfg.n) })

/-- 41_phase_channel.md R127: `N` applies of a phase, each after a mark and each at whatever scale then
stands, bring the cursor back and send the duties of one whole table walk from it. -/
def Obligations.TableWalkCloses : Prop :=
  ∀ (s : State) (k : Phase) (scales : List (BitVec 16)),
    (s.ph.get k).cursor.toNat < s.cfg.n → scales.length = s.cfg.n →
    ∃ t, t = scales.foldl (fun u sc => applyProc k (markDirty k { u with scale := sc })) s ∧
      (t.ph.get k).cursor = (s.ph.get k).cursor ∧
      t.pwmLog = s.pwmLog ++ (scales.zipIdx.map fun p =>
        .setDuty s.cfg.unit (s.cfg.timer.get k) s.cfg.opA
          (dutyLaw (tableAt s.cfg (((s.ph.get k).cursor.toNat + p.2) % s.cfg.n)) p.1))

/-! ### The sequencer -/

/-- 42_inverter.md R145, R148: the sequencer's two steps when they are enabled: all each does. The
task `SCALER` is a complete `ScalerCheck()`, whatever the mode. The task of a phase is a complete
`Apply` of that phase where it exists and has an update pending, and nothing where it does not exist
or has none. That a step drawn while it is not enabled changes nothing is the model's choice
(entry 5). -/
def Obligations.SequencerStartsAndRunsTasks : Prop :=
  ∀ (s : State) (ans : Answers) (rest : List Turn),
    ScalerChecked s (runTask s .scaler) ∧
    (∀ k, (s.cfg.present.get k = true → (s.ph.get k).pending = true →
        (s.ph.get k).cursor.toNat < s.cfg.n → Applied k s (runTask s (.apply k))) ∧
      (s.cfg.present.get k = false ∨ (s.ph.get k).pending = false →
        runTask s (.apply k) = s)) ∧
    (s.draws.turns = ⟨.seqStart, ans⟩ :: rest →
      (s.runReq = true ∧ s.fgTodo = 0 ∧ s.isrActive = false →
        step s = .next { afterDraw s ans rest with fgTodo := 0b1111#4 }) ∧
      (¬(s.runReq = true ∧ s.fgTodo = 0 ∧ s.isrActive = false) →
        step s = .next (afterDraw s ans rest))) ∧
    (∀ (task : Task) (b : Fin 4), (task, b) ∈ fourTasks.zip [0, 1, 2, 3] →
      s.draws.turns = ⟨.seqTask task, ans⟩ :: rest →
      (s.fgTodo.getLsbD b.val = true ∧ s.isrActive = false →
        step s = .next { runTask (afterDraw s ans rest) task with
          fgTodo := s.fgTodo &&& ~~~BitVec.twoPow 4 b.val }) ∧
      (¬(s.fgTodo.getLsbD b.val = true ∧ s.isrActive = false) →
        step s = .next (afterDraw s ans rest)))

/-- 10_state.md R51 with 42_inverter.md R147: a write of `CTRL` starts the sequencer only on an
initialised block, stops it without touching the tasks still to do, and ignores its reserved
bits. -/
def Obligations.ControlWriteRequestsRun : Prop :=
  ∀ (s : State) (v : Word),
    (v.getLsbD 0 = true → initDone s = true →
      hostAccess (.write (s.cfg.sdeBase + 0x0C) 4 v) s = .next { s with runReq := true }) ∧
    (v.getLsbD 0 = true → initDone s = false →
      hostAccess (.write (s.cfg.sdeBase + 0x0C) 4 v) s = .next (withErr s 0x010)) ∧
    (v.getLsbD 0 = false →
      hostAccess (.write (s.cfg.sdeBase + 0x0C) 4 v) s = .next { s with runReq := false }) ∧
    hostAccess (.read (s.cfg.sdeBase + 0x0C) 4) s =
      .next { s with hostReads := s.hostReads ++ [if s.runReq then 1 else 0] }

/-! ### The register window -/

/-- The register map (20_memory.md R69): each register is reached by a 32-bit access at its offset, and
at no other offset or width. -/
def Obligations.RegisterMapIsExact : Prop :=
  ∀ (off bytes : Nat) (r : Reg), off < 256 →
    (accessReg off bytes = some r ↔ bytes = 4 ∧ (off, r) ∈
      [ (0x00, Reg.ident), (0x04, .param), (0x08, .status), (0x0C, .ctrl), (0x10, .cmd),
        (0x14, .arg), (0x18, .result), (0x1C, .err), (0x20, .scale), (0x24, .elecFreq),
        (0x28, .carrier), (0x2C, .isrM), (0x30, .lastTLo), (0x34, .lastTHi),
        (0x40, .phCursor .p0), (0x44, .phDuty .p0), (0x48, .phFreq .p0), (0x4C, .phFlags .p0),
        (0x50, .phCursor .p1), (0x54, .phDuty .p1), (0x58, .phFreq .p1), (0x5C, .phFlags .p1),
        (0x60, .phCursor .p2), (0x64, .phDuty .p2), (0x68, .phFreq .p2), (0x6C, .phFlags .p2) ])

/-- 20_memory.md R66, R67: a misaligned or non-32-bit access, an unmapped offset, a write of a
read-only register and a read of `CMD` set `ERR.BUS` and nothing else; the read returns 0. -/
def Obligations.RefusedAccessSetsOnlyBus : Prop :=
  ∀ (s : State) (off bytes : Nat) (v : Word), off < 256 →
    ((accessReg off bytes = none ∨ accessReg off bytes = some .cmd) →
      hostAccess (.read (s.cfg.sdeBase + off) bytes) s =
        .next { withErr s 0x100 with hostReads := s.hostReads ++ [0] }) ∧
    ((accessReg off bytes = none ∨ ∃ r, accessReg off bytes = some r ∧
        r ≠ .cmd ∧ r ≠ .ctrl ∧ r ≠ .arg ∧ r ≠ .err) →
      hostAccess (.write (s.cfg.sdeBase + off) bytes v) s = .next (withErr s 0x100)) ∧
    ((bytes ≠ 4 ∨ off % 4 ≠ 0 ∨ off = 0x38 ∨ off = 0x3C ∨ 0x70 ≤ off) →
      accessReg off bytes = none)

/-- 10_state.md R47 to R63: what each register reads as, every field at its place and every reserved
bit 0; a legal read changes nothing. -/
def Obligations.LiveRegisterReads : Prop :=
  ∀ s : State,
    (∀ r v, regValue s r = some v →
      hostAccess (.read (s.cfg.sdeBase + regOffset r) 4) s =
        .next { s with hostReads := s.hostReads ++ [v] }) ∧
    regValue s .ident = some 0x53505737 ∧
    (∃ v, regValue s .param = some v ∧ v.toNat = s.cfg.n + 2 ^ 16 * s.cfg.adcBits) ∧
    (∃ v, regValue s .status = some v ∧ v.toNat =
      (initDone s).toNat + 2 * (seqActive s).toNat + 4 * s.isrActive.toNat
        + 8 * s.handlerReg.toNat + 16 * (irq s).toNat + 256 * s.fgTodo.toNat) ∧
    regValue s .ctrl = some (if s.runReq then 1 else 0) ∧
    regValue s .arg = some s.arg ∧ regValue s .result = some s.result ∧
    (∃ v, regValue s .err = some v ∧ v.toNat = s.err.toNat) ∧
    (∃ v, regValue s .scale = some v ∧ v.toNat = s.scale.toNat) ∧
    regValue s .elecFreq = some s.elecFreq ∧ regValue s .carrier = some s.carrier ∧
    regValue s .isrM = some s.isrM ∧
    (∃ lo hi, regValue s .lastTLo = some lo ∧ regValue s .lastTHi = some hi ∧
      s.lastT.toNat = lo.toNat + 2 ^ 32 * hi.toNat) ∧
    ∀ k,
      (∃ v, regValue s (.phCursor k) = some v ∧ v.toNat = (s.ph.get k).cursor.toNat) ∧
      (∃ v, regValue s (.phDuty k) = some v ∧ v.toNat = (s.ph.get k).duty.toNat) ∧
      regValue s (.phFreq k) = some (s.ph.get k).freq ∧
      (∃ v, regValue s (.phFlags k) = some v ∧ v.toNat =
        (s.ph.get k).pending.toNat + 2 * (s.ph.get k).chInit.toNat
          + 4 * (s.cfg.present.get k).toNat)

/-- 10_state.md R52, R54: a write of `ARG` stores the word; a write of `ERR` clears exactly the bits
written 1. Nothing else changes. -/
def Obligations.HostWritesArgAndClearsErr : Prop :=
  ∀ (s : State) (v : Word),
    hostAccess (.write (s.cfg.sdeBase + 0x14) 4 v) s = .next { s with arg := v } ∧
    hostAccess (.write (s.cfg.sdeBase + 0x1C) 4 v) s =
      .next { s with err := s.err &&& ~~~v.extractLsb' 0 9 }

/-- The model's choice (entry 13): an access outside the window of 20_memory.md R65 faults, and an access
inside never does. A step faults only where the host's next access is such an access, and no step is
refused. -/
def Obligations.OnlyOutsideWindowFaults : Prop :=
  (∀ s : State, (∀ r, step s ≠ .refused r) ∧
    ∀ f, step s = .fault f → f = .outsideWindow ∧ nextAgent s = .host ∧
      ∃ (addr bytes : Nat) (v : Word) (rest : List HostAccess),
        (s.hostProg = .read addr bytes :: rest ∨ s.hostProg = .write addr bytes v :: rest) ∧
        ¬(s.cfg.sdeBase ≤ addr ∧ addr < s.cfg.sdeBase + 256)) ∧
  ∀ (s : State) (addr bytes : Nat) (v : Word),
    (s.cfg.sdeBase ≤ addr ∧ addr < s.cfg.sdeBase + 256 →
      (∃ t, hostAccess (.read addr bytes) s = .next t) ∧
      ∃ t, hostAccess (.write addr bytes v) s = .next t) ∧
    (¬(s.cfg.sdeBase ≤ addr ∧ addr < s.cfg.sdeBase + 256) →
      hostAccess (.read addr bytes) s = .fault .outsideWindow ∧
      hostAccess (.write addr bytes v) s = .fault .outsideWindow)

/-! ### Rules about every step -/

/-- 10_state.md R21, R42, R43: no step changes a parameter or a table entry; the port logs only
grow. -/
def Obligations.ConfigurationFixedLogsGrow : Prop :=
  ∀ s t : State, step s = .next t →
    t.cfg = s.cfg ∧ s.pwmLog <+: t.pwmLog ∧ s.adcLog <+: t.adcLog

/-- 20_memory.md R76, 10_state.md R46: time does not run backwards over any step. -/
def Obligations.TimeNeverRunsBackwards : Prop :=
  ∀ s t : State, step s = .next t → s.nowPrev.toNat ≤ t.nowPrev.toNat

/-- 44_analog_scaler.md R177: but for reset, `LAST_T` moves only when a sample is taken, to the time of
that sample, more than a period after the last one; while it stays no sample is taken. -/
def Obligations.SamplesAreAPeriodApart : Prop :=
  ∀ s t : State, step s = .next t → nextAgent s ≠ .reset →
    (t.lastT = s.lastT → ∀ ch raw, t.adcLog.count (.readRaw ch raw)
      = s.adcLog.count (.readRaw ch raw)) ∧
    (t.lastT ≠ s.lastT → t.lastT = t.nowPrev ∧
      s.lastT.toNat + s.cfg.samplePeriod.toNat < t.lastT.toNat ∧
      ∃ raw, t.adcLog = s.adcLog ++ [.readRaw s.cfg.adcCh raw])

/-- 42_inverter.md R144: whenever a step other than reset changes the scale or a frequency law's value,
every existing phase has the one carrier in the same step. -/
def Obligations.CarrierUpdatesAreBalanced : Prop :=
  ∀ s t : State, step s = .next t → nextAgent s ≠ .reset →
    (t.scale ≠ s.scale ∨ t.elecFreq ≠ s.elecFreq ∨ t.carrier ≠ s.carrier) →
    t.carrier = BitVec.ofNat 32 (t.elecFreq.toNat * t.cfg.n) ∧
    ∀ k, t.cfg.present.get k = true → (t.ph.get k).freq = t.carrier

/-- 60_exceptions.md R190, R193: while an invocation is in progress no command and no foreground task
runs: until the engine's return or a reset, no step changes a phase register, a frequency, the
scale, the tasks to do, the last sample, the time last read, the port logs, the timers' running and
enabling, or the latched mask. -/
def Obligations.InvocationHoldsForeground : Prop :=
  ∀ s t : State, step s = .next t → s.isrActive = true →
    nextAgent s ≠ .isrMarkAck → nextAgent s ≠ .reset →
    t.ph = s.ph ∧ t.scale = s.scale ∧ t.elecFreq = s.elecFreq ∧ t.carrier = s.carrier ∧
    t.handlerReg = s.handlerReg ∧ t.lastT = s.lastT ∧ t.fgTodo = s.fgTodo ∧
    t.result = s.result ∧ t.pwmLog = s.pwmLog ∧ t.adcLog = s.adcLog ∧ t.isrM = s.isrM ∧
    t.nowPrev = s.nowPrev ∧ t.started = s.started ∧ t.ena = s.ena ∧ t.isrActive = true

/-- 43_completion_handler.md R162: a pending bit stays set until an acknowledge with that bit in its
mask. -/
def Obligations.PendingBitsStayUntilAcknowledged : Prop :=
  ∀ (s t : State) (b : Nat), step s = .next t →
    s.intSt.getLsbD b = true → t.intSt.getLsbD b = false →
    nextAgent s = .isrMarkAck ∧ s.isrActive = true ∧ s.isrM.getLsbD b = true

/-- 10_state.md R25, R31: over every step, `HANDLER_REG` is set only by the host's `INV_INIT`, and
`CH_INIT[k]` only by its `INV_INIT` or its `PH_INIT` of phase `k`, each written to `CMD` with no invocation
in progress; both are cleared only by reset. -/
def Obligations.LifecycleFlagsSetByHostClearedByReset : Prop :=
  ∀ (s t : State) (k : Phase), step s = .next t →
    let runs := fun i : Instr => nextAgent s = .host ∧ s.isrActive = false ∧
      ∃ (w : Word) (prog : List HostAccess),
        s.hostProg = .write (s.cfg.sdeBase + 0x10) 4 w :: prog ∧ decode w = .ok i
    (t.handlerReg ≠ s.handlerReg →
      (runs .invInit ∧ t.handlerReg = true ∧ initDone t = true) ∨ nextAgent s = .reset) ∧
    ((t.ph.get k).chInit ≠ (s.ph.get k).chInit →
      ((runs .invInit ∨ ∃ ph : BitVec 2, ph.toNat = k.toNat ∧ runs (.phInit ph)) ∧
        (t.ph.get k).chInit = true ∧ s.cfg.present.get k = true) ∨ nextAgent s = .reset)

/-- 10_state.md R39, 60_exceptions.md R188: error bits change only by the host's accesses or by reset:
the sequencer, the interrupt engine and the environment raise none. -/
def Obligations.OnlyHostRaisesErrors : Prop :=
  ∀ s t : State, step s = .next t → nextAgent s ≠ .host → nextAgent s ≠ .reset → t.err = s.err

/-- 43_completion_handler.md R167: in an execution in which the engine's return is weakly fair, every
invocation ends. -/
def Obligations.FairInvocationsEnd : Prop :=
  ∀ e : Nat → State, Execution e → WeaklyFair .isrMarkAck e →
    ∀ n, (e n).isrActive = true → ∃ m, n ≤ m ∧ (e m).isrActive = false

/-! ### Host programs -/

/-- 30_encoding.md R95: the accesses each pseudo-instruction expands to. -/
def Obligations.PseudoInstructionsExpand : Prop :=
  ∀ c : Config,
    (∀ (k : Phase) (hz : Word), stmtAccesses c (.pseudo (.setCarrier k hz)) =
      [ .write (c.sdeBase + 0x14) 4 hz,
        .write (c.sdeBase + 0x10) 4 (BitVec.ofNat 32 (0x40000000 + k.toNat * 2 ^ 26)) ]) ∧
    stmtAccesses c (.pseudo .start) = [.write (c.sdeBase + 0x0C) 4 1] ∧
    stmtAccesses c (.pseudo .stop) = [.write (c.sdeBase + 0x0C) 4 0] ∧
    stmtAccesses c (.pseudo .clrErr) = [.write (c.sdeBase + 0x1C) 4 0x1FF] ∧
    stmtAccesses c (.pseudo .boot) =
      [ .write (c.sdeBase + 0x10) 4 0x90000000, .write (c.sdeBase + 0x10) 4 0x50000000,
        .write (c.sdeBase + 0x0C) 4 1 ]

/-- 30_encoding.md R94: in a program, the time and sample of `@TIME` and `@ADC` lines are the answers to
the command or task that follows them, and the order on an `FG_ITER` line is its own. An answer is given
once: a command or task that follows another has only what the lines between them give, be it a time
and a sample, one of them or none. A command that reads no port is given no answer. All of this holds
whatever lines come before; that the later of two answers to one read counts, and that a program is
placed after the inputs already there, are the model's deductions (entry 20). -/
def Obligations.AnswersReachTheCommandThatFollows : Prop :=
  ∀ (ls : List Line) (s : State) (t : BitVec 64) (r : BitVec 16) (d : Nat),
    let readers : List (Line × List HostAccess × AgentStep × Option Nat) :=
      [ (.stmt (.cmd .scalerCheck), [commandAccess s.cfg 0x70000000#32], .host, none),
        (.stmt (.cmd .fgIter), [commandAccess s.cfg 0x80000000#32], .host, none),
        (.fgIter d, [commandAccess s.cfg 0x80000000#32], .host, some d),
        (.agent (.seqTask .scaler), [], .seqTask .scaler, none) ]
    (∀ line as agent order, (line, as, agent, order) ∈ readers →
      loadProgram (ls ++ [.time t, .adc r, line]) s =
        adding (loadProgram ls s) as [⟨agent, ⟨some t, some r, order⟩⟩] ∧
      ∀ earlier ∈ readers.map (·.1),
        let u := loadProgram (ls ++ [earlier]) s
        loadProgram (ls ++ [earlier, line]) s =
          adding u as [⟨agent, ⟨none, none, order⟩⟩] ∧
        loadProgram (ls ++ [earlier, .time t, line]) s =
          adding u as [⟨agent, ⟨some t, none, order⟩⟩] ∧
        loadProgram (ls ++ [earlier, .adc r, line]) s =
          adding u as [⟨agent, ⟨none, some r, order⟩⟩]) ∧
    ∀ i : Instr, i ≠ .scalerCheck → i ≠ .fgIter →
      loadProgram (ls ++ [.stmt (.cmd i)]) s =
        adding (loadProgram ls s) [commandAccess s.cfg (encode i)] [⟨.host, ⟨none, none, none⟩⟩]

/-- 30_encoding.md R94 with R95: no other line of a program is given an answer: not another agent's step,
`@ISR`, a command that reads no port, a read, a write of a register other than `CMD`, a word the decoder
refuses or a pseudo-instruction. An answer passes over any number of such lines, of every kind, to the
command or task after them that reads the ports, which is the model's deduction (entry 20). A command word
written by `WR CMD` is the command it decodes to, whatever lines come before and after. -/
def Obligations.OtherLinesAreGivenNoAnswer : Prop :=
  ∀ (ls : List Line) (s : State) (t : BitVec 64) (r : BitVec 16) (d : Nat),
    let u := loadProgram ls s
    let readers : List (Line × List HostAccess × AgentStep × Option Nat) :=
      [ (.stmt (.cmd .scalerCheck), [commandAccess s.cfg 0x70000000#32], .host, none),
        (.stmt (.cmd .fgIter), [commandAccess s.cfg 0x80000000#32], .host, none),
        (.fgIter d, [commandAccess s.cfg 0x80000000#32], .host, some d),
        (.agent (.seqTask .scaler), [], .seqTask .scaler, none) ]
    (∀ others : List (Line × List HostAccess × List AgentStep),
      (∀ line as agents, (line, as, agents) ∈ others → OtherLine s.cfg line as agents) →
      let lines := others.map fun o => o.1
      let accesses := others.flatMap fun o => o.2.1
      let turns := others.flatMap fun o => o.2.2.map fun a => (⟨a, ⟨none, none, none⟩⟩ : Turn)
      loadProgram (ls ++ lines) s = adding u accesses turns ∧
      ∀ line as agent order, (line, as, agent, order) ∈ readers →
        loadProgram (ls ++ [.time t, .adc r] ++ lines ++ [line]) s =
          adding u (accesses ++ as) (turns ++ [⟨agent, ⟨some t, some r, order⟩⟩])) ∧
    ∀ (w : Word) (i : Instr) (ms : List Line), decode w = .ok i →
      loadProgram (ls ++ .stmt (.wr .cmd w) :: ms) s = loadProgram (ls ++ .stmt (.cmd i) :: ms) s
end

