-- ==== Sys2Proof/Laws/Config.lean ====
section
/-! SUPPORT. What an admitted configuration guarantees (00_scope.md R5 to R14), and the range of each
arithmetic law. -/

namespace Sys2Proof.Machine

theorem config_ok (c : Config) : c.toParams.ok = true := c.admitted

theorem config_parts (c : Config) :
    (1 ≤ c.n ∧ c.n ≤ 4095) ∧
    (c.table.length = c.n ∧ (∀ t ∈ c.table, t.toNat ≤ 25600) ∧ c.table[0]? = some 12800#16) ∧
    (c.minFreq ≤ c.maxFreq ∧ c.maxFreq ≤ 16777215 ∧ c.maxFreq * 256 * c.n ≤ 4294967295) ∧
    (1 ≤ c.adcBits ∧ c.adcBits ≤ 16) ∧
    (c.timer.p0 ≠ c.timer.p1 ∧ c.timer.p0 ≠ c.timer.p2 ∧ c.timer.p1 ≠ c.timer.p2) ∧
    ((c.irqBit.p0 ≠ c.irqBit.p1 ∧ c.irqBit.p0 ≠ c.irqBit.p2 ∧ c.irqBit.p1 ≠ c.irqBit.p2) ∧
      ∀ k, c.foreignMask.getLsbD (c.irqBit.get k).val = false) ∧
    c.sdeBase % 256 = 0 := by
  have h := config_ok c
  simp only [Params.ok, Params.tableOk, PerPhase.distinct, Bool.and_eq_true, Bool.not_eq_true',
    decide_eq_true_eq, beq_iff_eq, bne_iff_ne, List.all_eq_true, and_assoc] at h
  obtain ⟨h1, h2, h3, h4, h5, h6, h7, h8, h9, h10, h11, h12, h13, h14, h15, h16, h17, h18, h19,
    h20⟩ := h
  refine ⟨⟨h1, h2⟩, ⟨h3, h4, h5⟩, ⟨h6, h7, h8⟩, ⟨h9, h10⟩, ⟨h11, h12, h13⟩,
    ⟨⟨h14, h15, h16⟩, fun k => ?_⟩, h20⟩
  cases k <;> assumption

theorem config_n_pos (c : Config) : 0 < c.n := (config_parts c).1.1

theorem config_n_le (c : Config) : c.n ≤ 4095 := (config_parts c).1.2

theorem config_table_length (c : Config) : c.table.length = c.n := (config_parts c).2.1.1

theorem config_freq_le (c : Config) : c.minFreq ≤ c.maxFreq := (config_parts c).2.2.1.1

theorem config_carrier_fits (c : Config) : c.maxFreq * 256 * c.n ≤ 4294967295 :=
  (config_parts c).2.2.1.2.2

theorem config_adcBits (c : Config) : 1 ≤ c.adcBits ∧ c.adcBits ≤ 16 := (config_parts c).2.2.2.1

theorem config_base_aligned (c : Config) : c.sdeBase % 256 = 0 := (config_parts c).2.2.2.2.2.2

theorem config_foreign_disjoint (c : Config) (k : Phase) :
    c.foreignMask.getLsbD (c.irqBit.get k).val = false := (config_parts c).2.2.2.2.2.1.2 k

theorem config_timer_inj (c : Config) {j k : Phase} (h : c.timer.get j = c.timer.get k) : j = k := by
  obtain ⟨h1, h2, h3⟩ := (config_parts c).2.2.2.2.1
  cases j <;> cases k <;> simp_all [PerPhase.get]

theorem config_irqBit_inj (c : Config) {j k : Phase} (h : c.irqBit.get j = c.irqBit.get k) :
    j = k := by
  obtain ⟨h1, h2, h3⟩ := (config_parts c).2.2.2.2.2.1.1
  cases j <;> cases k <;> simp_all [PerPhase.get]

/-- Every table entry the block reads is a legal percentage (40_sine_table.md R111). -/
theorem tableAt_le (c : Config) (i : Nat) : (tableAt c i).toNat ≤ 25600 := by
  unfold tableAt
  rw [List.getD_eq_getElem?_getD]
  rcases hi : c.table[i]? with _ | t
  · simp
  · exact (config_parts c).2.1.2.1 t (List.mem_of_getElem? hi)

theorem tableAt_zero (c : Config) : tableAt c 0 = 12800#16 := by
  rw [tableAt, List.getD_eq_getElem?_getD, (config_parts c).2.1.2.2]
  rfl

/-- `ADC_MAX` is positive and fits 16 bits (00_scope.md R9). -/
theorem config_adcMax (c : Config) : 1 ≤ c.adcMax ∧ c.adcMax ≤ 65535 := by
  obtain ⟨h1, h2⟩ := config_adcBits c
  have h3 : 2 ^ 1 ≤ 2 ^ c.adcBits := Nat.pow_le_pow_right (by omega) h1
  have h4 : 2 ^ c.adcBits ≤ 2 ^ 16 := Nat.pow_le_pow_right (by omega) h2
  unfold Params.adcMax
  omega

/-! ### Ranges of the laws -/

theorem cursorOffset_toNat (c : Config) (k : Phase) :
    (cursorOffset c.n k).toNat = k.toNat * c.n / 3 := by
  have hp := config_n_pos c
  have hn := config_n_le c
  rw [cursorOffset, BitVec.toNat_ofNat]
  apply Nat.mod_eq_of_lt
  cases k <;> simp [Phase.toNat] <;> omega

theorem cursorOffset_lt (c : Config) (k : Phase) : (cursorOffset c.n k).toNat < c.n := by
  have hp := config_n_pos c
  rw [cursorOffset_toNat]
  cases k <;> simp [Phase.toNat] <;> omega

theorem cursorNext_toNat (c : Config) (x : BitVec 12) :
    (cursorNext c.n x).toNat = (x.toNat + 1) % c.n := by
  have hn := config_n_le c
  have hlt : (x.toNat + 1) % c.n < c.n := Nat.mod_lt _ (config_n_pos c)
  rw [cursorNext, BitVec.toNat_ofNat]
  omega

theorem cursorNext_lt (c : Config) (x : BitVec 12) : (cursorNext c.n x).toNat < c.n := by
  rw [cursorNext_toNat]
  exact Nat.mod_lt _ (config_n_pos c)

/-- The integer `DutyLaw` computes before it is stored (41_phase_channel.md R122). -/
def dutyInt (t s : BitVec 16) : Int :=
  12800 + (((t.toNat : Int) - 12800) * (s.toNat : Int) + 16384) / 32768

/-- The duty of a legal table value at a legal scale lies between 0 and 100 percent
(41_phase_channel.md R123). -/
theorem dutyInt_range {t s : BitVec 16} (ht : t.toNat ≤ 25600) (hs : s.toNat ≤ 32768) :
    0 ≤ dutyInt t s ∧ dutyInt t s ≤ 25600 := by
  have ht' : (t.toNat : Int) ≤ 25600 := by exact_mod_cast ht
  have hs' : (s.toNat : Int) ≤ 32768 := by exact_mod_cast hs
  have hs0 : (0 : Int) ≤ s.toNat := Int.natCast_nonneg _
  have ht0 : (0 : Int) ≤ t.toNat := Int.natCast_nonneg _
  have hlo : -(12800 * 32768) ≤ ((t.toNat : Int) - 12800) * s.toNat := by nlinarith
  have hhi : ((t.toNat : Int) - 12800) * s.toNat ≤ 12800 * 32768 := by nlinarith
  unfold dutyInt
  omega

theorem dutyLaw_toNat {t s : BitVec 16} (ht : t.toNat ≤ 25600) (hs : s.toNat ≤ 32768) :
    ((dutyLaw t s).toNat : Int) = dutyInt t s := by
  obtain ⟨h0, h1⟩ := dutyInt_range ht hs
  show ((BitVec.ofInt 16 (dutyInt t s)).toNat : Int) = dutyInt t s
  rw [BitVec.toNat_ofInt]
  omega

theorem dutyLaw_le {t s : BitVec 16} (ht : t.toNat ≤ 25600) (hs : s.toNat ≤ 32768) :
    (dutyLaw t s).toNat ≤ 25600 := by
  have h := dutyLaw_toNat ht hs
  have h1 := (dutyInt_range ht hs).2
  omega

/-- The number `ElecLaw` computes, within `[MIN_FREQ, MAX_FREQ]` in UQ24.8 (42_inverter.md R142). -/
theorem elecLaw_toNat (c : Config) {s : Nat} (hs : s ≤ 32768) :
    (elecLaw c.toParams s).toNat
        = c.minFreq * 256 + ((c.maxFreq - c.minFreq) * s + 64) / 128 ∧
      c.minFreq * 256 ≤ (elecLaw c.toParams s).toNat ∧
      (elecLaw c.toParams s).toNat ≤ c.maxFreq * 256 := by
  have hf := config_freq_le c
  have hc := config_carrier_fits c
  have hn := config_n_pos c
  have hmul : (c.maxFreq - c.minFreq) * s ≤ (c.maxFreq - c.minFreq) * 32768 :=
    Nat.mul_le_mul_left _ hs
  have hcap : c.maxFreq * 256 ≤ c.maxFreq * 256 * c.n := Nat.le_mul_of_pos_right _ hn
  have hval : (elecLaw c.toParams s).toNat
      = c.minFreq * 256 + ((c.maxFreq - c.minFreq) * s + 64) / 128 := by
    rw [elecLaw, BitVec.toNat_ofNat]
    apply Nat.mod_eq_of_lt
    omega
  have hrange : c.minFreq * 256 ≤ c.minFreq * 256 + ((c.maxFreq - c.minFreq) * s + 64) / 128 ∧
      c.minFreq * 256 + ((c.maxFreq - c.minFreq) * s + 64) / 128 ≤ c.maxFreq * 256 := by
    clear hval
    omega
  exact ⟨hval, hval ▸ hrange⟩

theorem carrierOf_toNat (c : Config) {e : Word} (he : e.toNat ≤ c.maxFreq * 256) :
    (carrierOf c.toParams e).toNat = e.toNat * c.n := by
  have hc := config_carrier_fits c
  have h : e.toNat * c.n ≤ c.maxFreq * 256 * c.n := Nat.mul_le_mul_right _ he
  rw [carrierOf, BitVec.toNat_ofNat]
  apply Nat.mod_eq_of_lt
  omega

theorem norm_toNat (c : Config) {raw : Nat} (h : raw ≤ c.adcMax) :
    (norm c.toParams raw).toNat = (2 * raw * 32768 + c.adcMax) / (2 * c.adcMax) ∧
      (norm c.toParams raw).toNat ≤ 32768 := by
  have hp := (config_adcMax c).1
  have hle : (2 * raw * 32768 + c.adcMax) / (2 * c.adcMax) ≤ 32768 := by
    refine Nat.lt_succ_iff.mp (Nat.div_lt_of_lt_mul ?_)
    omega
  have hval : (norm c.toParams raw).toNat = (2 * raw * 32768 + c.adcMax) / (2 * c.adcMax) := by
    rw [norm, BitVec.toNat_ofNat]
    apply Nat.mod_eq_of_lt
    omega
  exact ⟨hval, hval ▸ hle⟩

/-! ### Ranges of the draws -/

theorem nextTime_ge (s : State) : s.nowPrev.toNat ≤ (nextTime s).toNat := by
  simp only [nextTime]
  split
  · exact le_rfl
  · rename_i h
    rw [BitVec.lt_def] at h
    omega

theorem nextSample_le (s : State) : (nextSample s).toNat ≤ s.cfg.adcMax := by
  obtain ⟨h1, h2⟩ := config_adcMax s.cfg
  have h := Nat.mod_lt (s.draws.answers.sample.getD (Config.freeSample s.draws.count)).toNat
    (show 0 < s.cfg.adcMax + 1 by omega)
  show (BitVec.ofNat 16 _).toNat ≤ _
  rw [BitVec.toNat_ofNat, Nat.mod_eq_of_lt (by omega)]
  omega

end Sys2Proof.Machine
end

