-- ==== Sys2Proof/Laws/State.lean ====
section
/-! SUPPORT. One lemma per field per update of the state, each true by unfolding, so that no later proof
unfolds a record update. -/

namespace Sys2Proof.Machine

/-! ### One copy per phase -/

@[simp] theorem perPhase_get_const {α : Type} (v : α) (k : Phase) :
    (PerPhase.const v).get k = v := by cases k <;> rfl

@[simp] theorem perPhase_get_set_same {α : Type} (r : PerPhase α) (k : Phase) (v : α) :
    (r.set k v).get k = v := by cases k <;> rfl

@[simp] theorem perPhase_get_set_of_ne {α : Type} (r : PerPhase α) {j k : Phase} (v : α)
    (h : j ≠ k) : (r.set k v).get j = r.get j := by cases j <;> cases k <;> first | rfl | simp at h

theorem perPhase_get_set {α : Type} (r : PerPhase α) (j k : Phase) (v : α) :
    (r.set k v).get j = if j = k then v else r.get j := by cases j <;> cases k <;> rfl

@[simp] theorem perPhase_set_set {α : Type} (r : PerPhase α) (k : Phase) (v w : α) :
    (r.set k v).set k w = r.set k w := by cases k <;> rfl

@[simp] theorem perPhase_set_get {α : Type} (r : PerPhase α) (k : Phase) :
    r.set k (r.get k) = r := by cases k <;> rfl

/-- Two families of copies are equal when their copies are. -/
theorem perPhase_eq_of_get {α : Type} {r q : PerPhase α} (h : ∀ k, r.get k = q.get k) : r = q := by
  cases r
  cases q
  have h0 := h .p0
  have h1 := h .p1
  have h2 := h .p2
  simp_all [PerPhase.get]

/-! ### The shared updates -/

@[simp] theorem raise_cfg (e : CmdError) (s : State) : (raise e s).cfg = s.cfg := rfl
@[simp] theorem raise_ph (e : CmdError) (s : State) : (raise e s).ph = s.ph := rfl
@[simp] theorem raise_scale (e : CmdError) (s : State) : (raise e s).scale = s.scale := rfl
@[simp] theorem raise_elecFreq (e : CmdError) (s : State) : (raise e s).elecFreq = s.elecFreq := rfl
@[simp] theorem raise_carrier (e : CmdError) (s : State) : (raise e s).carrier = s.carrier := rfl
@[simp] theorem raise_handlerReg (e : CmdError) (s : State) :
    (raise e s).handlerReg = s.handlerReg := rfl
@[simp] theorem raise_lastT (e : CmdError) (s : State) : (raise e s).lastT = s.lastT := rfl
@[simp] theorem raise_isrActive (e : CmdError) (s : State) :
    (raise e s).isrActive = s.isrActive := rfl
@[simp] theorem raise_isrM (e : CmdError) (s : State) : (raise e s).isrM = s.isrM := rfl
@[simp] theorem raise_fgTodo (e : CmdError) (s : State) : (raise e s).fgTodo = s.fgTodo := rfl
@[simp] theorem raise_runReq (e : CmdError) (s : State) : (raise e s).runReq = s.runReq := rfl
@[simp] theorem raise_arg (e : CmdError) (s : State) : (raise e s).arg = s.arg := rfl
@[simp] theorem raise_result (e : CmdError) (s : State) : (raise e s).result = s.result := rfl
@[simp] theorem raise_err (e : CmdError) (s : State) : (raise e s).err = s.err ||| errBit e := rfl
@[simp] theorem raise_pwmLog (e : CmdError) (s : State) : (raise e s).pwmLog = s.pwmLog := rfl
@[simp] theorem raise_adcLog (e : CmdError) (s : State) : (raise e s).adcLog = s.adcLog := rfl
@[simp] theorem raise_intSt (e : CmdError) (s : State) : (raise e s).intSt = s.intSt := rfl
@[simp] theorem raise_started (e : CmdError) (s : State) : (raise e s).started = s.started := rfl
@[simp] theorem raise_ena (e : CmdError) (s : State) : (raise e s).ena = s.ena := rfl
@[simp] theorem raise_nowPrev (e : CmdError) (s : State) : (raise e s).nowPrev = s.nowPrev := rfl
@[simp] theorem raise_hostProg (e : CmdError) (s : State) : (raise e s).hostProg = s.hostProg := rfl
@[simp] theorem raise_hostReads (e : CmdError) (s : State) :
    (raise e s).hostReads = s.hostReads := rfl
@[simp] theorem raise_draws (e : CmdError) (s : State) : (raise e s).draws = s.draws := rfl

@[simp] theorem emitAdc_cfg (tx : AdcTx) (s : State) : (emitAdc tx s).cfg = s.cfg := rfl
@[simp] theorem emitAdc_ph (tx : AdcTx) (s : State) : (emitAdc tx s).ph = s.ph := rfl
@[simp] theorem emitAdc_scale (tx : AdcTx) (s : State) : (emitAdc tx s).scale = s.scale := rfl
@[simp] theorem emitAdc_elecFreq (tx : AdcTx) (s : State) :
    (emitAdc tx s).elecFreq = s.elecFreq := rfl
@[simp] theorem emitAdc_carrier (tx : AdcTx) (s : State) : (emitAdc tx s).carrier = s.carrier := rfl
@[simp] theorem emitAdc_handlerReg (tx : AdcTx) (s : State) :
    (emitAdc tx s).handlerReg = s.handlerReg := rfl
@[simp] theorem emitAdc_lastT (tx : AdcTx) (s : State) : (emitAdc tx s).lastT = s.lastT := rfl
@[simp] theorem emitAdc_isrActive (tx : AdcTx) (s : State) :
    (emitAdc tx s).isrActive = s.isrActive := rfl
@[simp] theorem emitAdc_isrM (tx : AdcTx) (s : State) : (emitAdc tx s).isrM = s.isrM := rfl
@[simp] theorem emitAdc_fgTodo (tx : AdcTx) (s : State) : (emitAdc tx s).fgTodo = s.fgTodo := rfl
@[simp] theorem emitAdc_runReq (tx : AdcTx) (s : State) : (emitAdc tx s).runReq = s.runReq := rfl
@[simp] theorem emitAdc_arg (tx : AdcTx) (s : State) : (emitAdc tx s).arg = s.arg := rfl
@[simp] theorem emitAdc_result (tx : AdcTx) (s : State) : (emitAdc tx s).result = s.result := rfl
@[simp] theorem emitAdc_err (tx : AdcTx) (s : State) : (emitAdc tx s).err = s.err := rfl
@[simp] theorem emitAdc_pwmLog (tx : AdcTx) (s : State) : (emitAdc tx s).pwmLog = s.pwmLog := rfl
@[simp] theorem emitAdc_adcLog (tx : AdcTx) (s : State) :
    (emitAdc tx s).adcLog = s.adcLog ++ [tx] := rfl
@[simp] theorem emitAdc_intSt (tx : AdcTx) (s : State) : (emitAdc tx s).intSt = s.intSt := rfl
@[simp] theorem emitAdc_started (tx : AdcTx) (s : State) : (emitAdc tx s).started = s.started := rfl
@[simp] theorem emitAdc_ena (tx : AdcTx) (s : State) : (emitAdc tx s).ena = s.ena := rfl
@[simp] theorem emitAdc_nowPrev (tx : AdcTx) (s : State) : (emitAdc tx s).nowPrev = s.nowPrev := rfl
@[simp] theorem emitAdc_hostProg (tx : AdcTx) (s : State) :
    (emitAdc tx s).hostProg = s.hostProg := rfl
@[simp] theorem emitAdc_hostReads (tx : AdcTx) (s : State) :
    (emitAdc tx s).hostReads = s.hostReads := rfl
@[simp] theorem emitAdc_draws (tx : AdcTx) (s : State) : (emitAdc tx s).draws = s.draws := rfl

@[simp] theorem tookTurn_cfg (s : State) : (tookTurn s).cfg = s.cfg := rfl
@[simp] theorem tookTurn_ph (s : State) : (tookTurn s).ph = s.ph := rfl
@[simp] theorem tookTurn_scale (s : State) : (tookTurn s).scale = s.scale := rfl
@[simp] theorem tookTurn_elecFreq (s : State) : (tookTurn s).elecFreq = s.elecFreq := rfl
@[simp] theorem tookTurn_carrier (s : State) : (tookTurn s).carrier = s.carrier := rfl
@[simp] theorem tookTurn_handlerReg (s : State) : (tookTurn s).handlerReg = s.handlerReg := rfl
@[simp] theorem tookTurn_lastT (s : State) : (tookTurn s).lastT = s.lastT := rfl
@[simp] theorem tookTurn_isrActive (s : State) : (tookTurn s).isrActive = s.isrActive := rfl
@[simp] theorem tookTurn_isrM (s : State) : (tookTurn s).isrM = s.isrM := rfl
@[simp] theorem tookTurn_fgTodo (s : State) : (tookTurn s).fgTodo = s.fgTodo := rfl
@[simp] theorem tookTurn_runReq (s : State) : (tookTurn s).runReq = s.runReq := rfl
@[simp] theorem tookTurn_arg (s : State) : (tookTurn s).arg = s.arg := rfl
@[simp] theorem tookTurn_result (s : State) : (tookTurn s).result = s.result := rfl
@[simp] theorem tookTurn_err (s : State) : (tookTurn s).err = s.err := rfl
@[simp] theorem tookTurn_pwmLog (s : State) : (tookTurn s).pwmLog = s.pwmLog := rfl
@[simp] theorem tookTurn_adcLog (s : State) : (tookTurn s).adcLog = s.adcLog := rfl
@[simp] theorem tookTurn_intSt (s : State) : (tookTurn s).intSt = s.intSt := rfl
@[simp] theorem tookTurn_started (s : State) : (tookTurn s).started = s.started := rfl
@[simp] theorem tookTurn_ena (s : State) : (tookTurn s).ena = s.ena := rfl
@[simp] theorem tookTurn_nowPrev (s : State) : (tookTurn s).nowPrev = s.nowPrev := rfl
@[simp] theorem tookTurn_hostProg (s : State) : (tookTurn s).hostProg = s.hostProg := rfl
@[simp] theorem tookTurn_hostReads (s : State) : (tookTurn s).hostReads = s.hostReads := rfl

@[simp] theorem tookTurn_draws (s : State) : (tookTurn s).draws =
    { turns := s.draws.turns.tail, answers := nextAnswers s, count := s.draws.count + 1 } := rfl
@[simp] theorem tookTime_draws (s : State) : (tookTime s).draws =
    { s.draws with
      answers := { s.draws.answers with time := none }, count := s.draws.count + 1 } := rfl
@[simp] theorem tookSample_draws (s : State) : (tookSample s).draws =
    { s.draws with
      answers := { s.draws.answers with sample := none }, count := s.draws.count + 1 } := rfl
@[simp] theorem tookOrder_draws (s : State) : (tookOrder s).draws =
    { s.draws with
      answers := { s.draws.answers with order := none }, count := s.draws.count + 1 } := rfl

@[simp] theorem tookTime_cfg (s : State) : (tookTime s).cfg = s.cfg := rfl
@[simp] theorem tookTime_ph (s : State) : (tookTime s).ph = s.ph := rfl
@[simp] theorem tookTime_scale (s : State) : (tookTime s).scale = s.scale := rfl
@[simp] theorem tookTime_elecFreq (s : State) : (tookTime s).elecFreq = s.elecFreq := rfl
@[simp] theorem tookTime_carrier (s : State) : (tookTime s).carrier = s.carrier := rfl
@[simp] theorem tookTime_handlerReg (s : State) : (tookTime s).handlerReg = s.handlerReg := rfl
@[simp] theorem tookTime_lastT (s : State) : (tookTime s).lastT = s.lastT := rfl
@[simp] theorem tookTime_isrActive (s : State) : (tookTime s).isrActive = s.isrActive := rfl
@[simp] theorem tookTime_isrM (s : State) : (tookTime s).isrM = s.isrM := rfl
@[simp] theorem tookTime_fgTodo (s : State) : (tookTime s).fgTodo = s.fgTodo := rfl
@[simp] theorem tookTime_runReq (s : State) : (tookTime s).runReq = s.runReq := rfl
@[simp] theorem tookTime_arg (s : State) : (tookTime s).arg = s.arg := rfl
@[simp] theorem tookTime_result (s : State) : (tookTime s).result = s.result := rfl
@[simp] theorem tookTime_err (s : State) : (tookTime s).err = s.err := rfl
@[simp] theorem tookTime_pwmLog (s : State) : (tookTime s).pwmLog = s.pwmLog := rfl
@[simp] theorem tookTime_adcLog (s : State) : (tookTime s).adcLog = s.adcLog := rfl
@[simp] theorem tookTime_intSt (s : State) : (tookTime s).intSt = s.intSt := rfl
@[simp] theorem tookTime_started (s : State) : (tookTime s).started = s.started := rfl
@[simp] theorem tookTime_ena (s : State) : (tookTime s).ena = s.ena := rfl
@[simp] theorem tookTime_nowPrev (s : State) : (tookTime s).nowPrev = nextTime s := rfl
@[simp] theorem tookTime_hostProg (s : State) : (tookTime s).hostProg = s.hostProg := rfl
@[simp] theorem tookTime_hostReads (s : State) : (tookTime s).hostReads = s.hostReads := rfl

@[simp] theorem tookSample_cfg (s : State) : (tookSample s).cfg = s.cfg := rfl
@[simp] theorem tookSample_ph (s : State) : (tookSample s).ph = s.ph := rfl
@[simp] theorem tookSample_scale (s : State) : (tookSample s).scale = s.scale := rfl
@[simp] theorem tookSample_elecFreq (s : State) : (tookSample s).elecFreq = s.elecFreq := rfl
@[simp] theorem tookSample_carrier (s : State) : (tookSample s).carrier = s.carrier := rfl
@[simp] theorem tookSample_handlerReg (s : State) : (tookSample s).handlerReg = s.handlerReg := rfl
@[simp] theorem tookSample_lastT (s : State) : (tookSample s).lastT = s.lastT := rfl
@[simp] theorem tookSample_isrActive (s : State) : (tookSample s).isrActive = s.isrActive := rfl
@[simp] theorem tookSample_isrM (s : State) : (tookSample s).isrM = s.isrM := rfl
@[simp] theorem tookSample_fgTodo (s : State) : (tookSample s).fgTodo = s.fgTodo := rfl
@[simp] theorem tookSample_runReq (s : State) : (tookSample s).runReq = s.runReq := rfl
@[simp] theorem tookSample_arg (s : State) : (tookSample s).arg = s.arg := rfl
@[simp] theorem tookSample_result (s : State) : (tookSample s).result = s.result := rfl
@[simp] theorem tookSample_err (s : State) : (tookSample s).err = s.err := rfl
@[simp] theorem tookSample_pwmLog (s : State) : (tookSample s).pwmLog = s.pwmLog := rfl
@[simp] theorem tookSample_adcLog (s : State) : (tookSample s).adcLog = s.adcLog := rfl
@[simp] theorem tookSample_intSt (s : State) : (tookSample s).intSt = s.intSt := rfl
@[simp] theorem tookSample_started (s : State) : (tookSample s).started = s.started := rfl
@[simp] theorem tookSample_ena (s : State) : (tookSample s).ena = s.ena := rfl
@[simp] theorem tookSample_nowPrev (s : State) : (tookSample s).nowPrev = s.nowPrev := rfl
@[simp] theorem tookSample_hostProg (s : State) : (tookSample s).hostProg = s.hostProg := rfl
@[simp] theorem tookSample_hostReads (s : State) : (tookSample s).hostReads = s.hostReads := rfl

@[simp] theorem tookOrder_cfg (s : State) : (tookOrder s).cfg = s.cfg := rfl
@[simp] theorem tookOrder_ph (s : State) : (tookOrder s).ph = s.ph := rfl
@[simp] theorem tookOrder_scale (s : State) : (tookOrder s).scale = s.scale := rfl
@[simp] theorem tookOrder_elecFreq (s : State) : (tookOrder s).elecFreq = s.elecFreq := rfl
@[simp] theorem tookOrder_carrier (s : State) : (tookOrder s).carrier = s.carrier := rfl
@[simp] theorem tookOrder_handlerReg (s : State) : (tookOrder s).handlerReg = s.handlerReg := rfl
@[simp] theorem tookOrder_lastT (s : State) : (tookOrder s).lastT = s.lastT := rfl
@[simp] theorem tookOrder_isrActive (s : State) : (tookOrder s).isrActive = s.isrActive := rfl
@[simp] theorem tookOrder_isrM (s : State) : (tookOrder s).isrM = s.isrM := rfl
@[simp] theorem tookOrder_fgTodo (s : State) : (tookOrder s).fgTodo = s.fgTodo := rfl
@[simp] theorem tookOrder_runReq (s : State) : (tookOrder s).runReq = s.runReq := rfl
@[simp] theorem tookOrder_arg (s : State) : (tookOrder s).arg = s.arg := rfl
@[simp] theorem tookOrder_result (s : State) : (tookOrder s).result = s.result := rfl
@[simp] theorem tookOrder_err (s : State) : (tookOrder s).err = s.err := rfl
@[simp] theorem tookOrder_pwmLog (s : State) : (tookOrder s).pwmLog = s.pwmLog := rfl
@[simp] theorem tookOrder_adcLog (s : State) : (tookOrder s).adcLog = s.adcLog := rfl
@[simp] theorem tookOrder_intSt (s : State) : (tookOrder s).intSt = s.intSt := rfl
@[simp] theorem tookOrder_started (s : State) : (tookOrder s).started = s.started := rfl
@[simp] theorem tookOrder_ena (s : State) : (tookOrder s).ena = s.ena := rfl
@[simp] theorem tookOrder_nowPrev (s : State) : (tookOrder s).nowPrev = s.nowPrev := rfl
@[simp] theorem tookOrder_hostProg (s : State) : (tookOrder s).hostProg = s.hostProg := rfl
@[simp] theorem tookOrder_hostReads (s : State) : (tookOrder s).hostReads = s.hostReads := rfl

@[simp] theorem returnRead_cfg (v : Word) (s : State) : (returnRead v s).cfg = s.cfg := rfl
@[simp] theorem returnRead_ph (v : Word) (s : State) : (returnRead v s).ph = s.ph := rfl
@[simp] theorem returnRead_scale (v : Word) (s : State) : (returnRead v s).scale = s.scale := rfl
@[simp] theorem returnRead_elecFreq (v : Word) (s : State) :
    (returnRead v s).elecFreq = s.elecFreq := rfl
@[simp] theorem returnRead_carrier (v : Word) (s : State) :
    (returnRead v s).carrier = s.carrier := rfl
@[simp] theorem returnRead_handlerReg (v : Word) (s : State) :
    (returnRead v s).handlerReg = s.handlerReg := rfl
@[simp] theorem returnRead_lastT (v : Word) (s : State) : (returnRead v s).lastT = s.lastT := rfl
@[simp] theorem returnRead_isrActive (v : Word) (s : State) :
    (returnRead v s).isrActive = s.isrActive := rfl
@[simp] theorem returnRead_isrM (v : Word) (s : State) : (returnRead v s).isrM = s.isrM := rfl
@[simp] theorem returnRead_fgTodo (v : Word) (s : State) : (returnRead v s).fgTodo = s.fgTodo := rfl
@[simp] theorem returnRead_runReq (v : Word) (s : State) : (returnRead v s).runReq = s.runReq := rfl
@[simp] theorem returnRead_arg (v : Word) (s : State) : (returnRead v s).arg = s.arg := rfl
@[simp] theorem returnRead_result (v : Word) (s : State) : (returnRead v s).result = s.result := rfl
@[simp] theorem returnRead_err (v : Word) (s : State) : (returnRead v s).err = s.err := rfl
@[simp] theorem returnRead_pwmLog (v : Word) (s : State) : (returnRead v s).pwmLog = s.pwmLog := rfl
@[simp] theorem returnRead_adcLog (v : Word) (s : State) : (returnRead v s).adcLog = s.adcLog := rfl
@[simp] theorem returnRead_intSt (v : Word) (s : State) : (returnRead v s).intSt = s.intSt := rfl
@[simp] theorem returnRead_started (v : Word) (s : State) :
    (returnRead v s).started = s.started := rfl
@[simp] theorem returnRead_ena (v : Word) (s : State) : (returnRead v s).ena = s.ena := rfl
@[simp] theorem returnRead_nowPrev (v : Word) (s : State) :
    (returnRead v s).nowPrev = s.nowPrev := rfl
@[simp] theorem returnRead_hostProg (v : Word) (s : State) :
    (returnRead v s).hostProg = s.hostProg := rfl
@[simp] theorem returnRead_hostReads (v : Word) (s : State) :
    (returnRead v s).hostReads = s.hostReads ++ [v] := rfl
@[simp] theorem returnRead_draws (v : Word) (s : State) : (returnRead v s).draws = s.draws := rfl

@[simp] theorem evPeriod_cfg (k : Phase) (s : State) : (evPeriod k s).cfg = s.cfg := rfl
@[simp] theorem evPeriod_ph (k : Phase) (s : State) : (evPeriod k s).ph = s.ph := rfl
@[simp] theorem evPeriod_scale (k : Phase) (s : State) : (evPeriod k s).scale = s.scale := rfl
@[simp] theorem evPeriod_elecFreq (k : Phase) (s : State) :
    (evPeriod k s).elecFreq = s.elecFreq := rfl
@[simp] theorem evPeriod_carrier (k : Phase) (s : State) : (evPeriod k s).carrier = s.carrier := rfl
@[simp] theorem evPeriod_handlerReg (k : Phase) (s : State) :
    (evPeriod k s).handlerReg = s.handlerReg := rfl
@[simp] theorem evPeriod_lastT (k : Phase) (s : State) : (evPeriod k s).lastT = s.lastT := rfl
@[simp] theorem evPeriod_isrActive (k : Phase) (s : State) :
    (evPeriod k s).isrActive = s.isrActive := rfl
@[simp] theorem evPeriod_isrM (k : Phase) (s : State) : (evPeriod k s).isrM = s.isrM := rfl
@[simp] theorem evPeriod_fgTodo (k : Phase) (s : State) : (evPeriod k s).fgTodo = s.fgTodo := rfl
@[simp] theorem evPeriod_runReq (k : Phase) (s : State) : (evPeriod k s).runReq = s.runReq := rfl
@[simp] theorem evPeriod_arg (k : Phase) (s : State) : (evPeriod k s).arg = s.arg := rfl
@[simp] theorem evPeriod_result (k : Phase) (s : State) : (evPeriod k s).result = s.result := rfl
@[simp] theorem evPeriod_err (k : Phase) (s : State) : (evPeriod k s).err = s.err := rfl
@[simp] theorem evPeriod_pwmLog (k : Phase) (s : State) : (evPeriod k s).pwmLog = s.pwmLog := rfl
@[simp] theorem evPeriod_adcLog (k : Phase) (s : State) : (evPeriod k s).adcLog = s.adcLog := rfl
@[simp] theorem evPeriod_intSt (k : Phase) (s : State) :
    (evPeriod k s).intSt = s.intSt ||| BitVec.twoPow 32 (s.cfg.irqBit.get k).val := rfl
@[simp] theorem evPeriod_started (k : Phase) (s : State) : (evPeriod k s).started = s.started := rfl
@[simp] theorem evPeriod_ena (k : Phase) (s : State) : (evPeriod k s).ena = s.ena := rfl
@[simp] theorem evPeriod_nowPrev (k : Phase) (s : State) : (evPeriod k s).nowPrev = s.nowPrev := rfl
@[simp] theorem evPeriod_hostProg (k : Phase) (s : State) :
    (evPeriod k s).hostProg = s.hostProg := rfl
@[simp] theorem evPeriod_hostReads (k : Phase) (s : State) :
    (evPeriod k s).hostReads = s.hostReads := rfl
@[simp] theorem evPeriod_draws (k : Phase) (s : State) : (evPeriod k s).draws = s.draws := rfl

@[simp] theorem evForeign_cfg (b : Fin 32) (s : State) : (evForeign b s).cfg = s.cfg := rfl
@[simp] theorem evForeign_ph (b : Fin 32) (s : State) : (evForeign b s).ph = s.ph := rfl
@[simp] theorem evForeign_scale (b : Fin 32) (s : State) : (evForeign b s).scale = s.scale := rfl
@[simp] theorem evForeign_elecFreq (b : Fin 32) (s : State) :
    (evForeign b s).elecFreq = s.elecFreq := rfl
@[simp] theorem evForeign_carrier (b : Fin 32) (s : State) :
    (evForeign b s).carrier = s.carrier := rfl
@[simp] theorem evForeign_handlerReg (b : Fin 32) (s : State) :
    (evForeign b s).handlerReg = s.handlerReg := rfl
@[simp] theorem evForeign_lastT (b : Fin 32) (s : State) : (evForeign b s).lastT = s.lastT := rfl
@[simp] theorem evForeign_isrActive (b : Fin 32) (s : State) :
    (evForeign b s).isrActive = s.isrActive := rfl
@[simp] theorem evForeign_isrM (b : Fin 32) (s : State) : (evForeign b s).isrM = s.isrM := rfl
@[simp] theorem evForeign_fgTodo (b : Fin 32) (s : State) : (evForeign b s).fgTodo = s.fgTodo := rfl
@[simp] theorem evForeign_runReq (b : Fin 32) (s : State) : (evForeign b s).runReq = s.runReq := rfl
@[simp] theorem evForeign_arg (b : Fin 32) (s : State) : (evForeign b s).arg = s.arg := rfl
@[simp] theorem evForeign_result (b : Fin 32) (s : State) : (evForeign b s).result = s.result := rfl
@[simp] theorem evForeign_err (b : Fin 32) (s : State) : (evForeign b s).err = s.err := rfl
@[simp] theorem evForeign_pwmLog (b : Fin 32) (s : State) : (evForeign b s).pwmLog = s.pwmLog := rfl
@[simp] theorem evForeign_adcLog (b : Fin 32) (s : State) : (evForeign b s).adcLog = s.adcLog := rfl
@[simp] theorem evForeign_intSt (b : Fin 32) (s : State) :
    (evForeign b s).intSt = s.intSt ||| BitVec.twoPow 32 b.val := rfl
@[simp] theorem evForeign_started (b : Fin 32) (s : State) :
    (evForeign b s).started = s.started := rfl
@[simp] theorem evForeign_ena (b : Fin 32) (s : State) : (evForeign b s).ena = s.ena := rfl
@[simp] theorem evForeign_nowPrev (b : Fin 32) (s : State) :
    (evForeign b s).nowPrev = s.nowPrev := rfl
@[simp] theorem evForeign_hostProg (b : Fin 32) (s : State) :
    (evForeign b s).hostProg = s.hostProg := rfl
@[simp] theorem evForeign_hostReads (b : Fin 32) (s : State) :
    (evForeign b s).hostReads = s.hostReads := rfl
@[simp] theorem evForeign_draws (b : Fin 32) (s : State) : (evForeign b s).draws = s.draws := rfl

@[simp] theorem markDirty_cfg (k : Phase) (s : State) : (markDirty k s).cfg = s.cfg := rfl
@[simp] theorem markDirty_ph (k : Phase) (s : State) :
    (markDirty k s).ph = s.ph.set k { s.ph.get k with pending := true } := rfl
@[simp] theorem markDirty_scale (k : Phase) (s : State) : (markDirty k s).scale = s.scale := rfl
@[simp] theorem markDirty_elecFreq (k : Phase) (s : State) :
    (markDirty k s).elecFreq = s.elecFreq := rfl
@[simp] theorem markDirty_carrier (k : Phase) (s : State) :
    (markDirty k s).carrier = s.carrier := rfl
@[simp] theorem markDirty_handlerReg (k : Phase) (s : State) :
    (markDirty k s).handlerReg = s.handlerReg := rfl
@[simp] theorem markDirty_lastT (k : Phase) (s : State) : (markDirty k s).lastT = s.lastT := rfl
@[simp] theorem markDirty_isrActive (k : Phase) (s : State) :
    (markDirty k s).isrActive = s.isrActive := rfl
@[simp] theorem markDirty_isrM (k : Phase) (s : State) : (markDirty k s).isrM = s.isrM := rfl
@[simp] theorem markDirty_fgTodo (k : Phase) (s : State) : (markDirty k s).fgTodo = s.fgTodo := rfl
@[simp] theorem markDirty_runReq (k : Phase) (s : State) : (markDirty k s).runReq = s.runReq := rfl
@[simp] theorem markDirty_arg (k : Phase) (s : State) : (markDirty k s).arg = s.arg := rfl
@[simp] theorem markDirty_result (k : Phase) (s : State) : (markDirty k s).result = s.result := rfl
@[simp] theorem markDirty_err (k : Phase) (s : State) : (markDirty k s).err = s.err := rfl
@[simp] theorem markDirty_pwmLog (k : Phase) (s : State) : (markDirty k s).pwmLog = s.pwmLog := rfl
@[simp] theorem markDirty_adcLog (k : Phase) (s : State) : (markDirty k s).adcLog = s.adcLog := rfl
@[simp] theorem markDirty_intSt (k : Phase) (s : State) : (markDirty k s).intSt = s.intSt := rfl
@[simp] theorem markDirty_started (k : Phase) (s : State) :
    (markDirty k s).started = s.started := rfl
@[simp] theorem markDirty_ena (k : Phase) (s : State) : (markDirty k s).ena = s.ena := rfl
@[simp] theorem markDirty_nowPrev (k : Phase) (s : State) :
    (markDirty k s).nowPrev = s.nowPrev := rfl
@[simp] theorem markDirty_hostProg (k : Phase) (s : State) :
    (markDirty k s).hostProg = s.hostProg := rfl
@[simp] theorem markDirty_hostReads (k : Phase) (s : State) :
    (markDirty k s).hostReads = s.hostReads := rfl
@[simp] theorem markDirty_draws (k : Phase) (s : State) : (markDirty k s).draws = s.draws := rfl

@[simp] theorem seqStart_cfg (s : State) : (seqStart s).cfg = s.cfg := rfl
@[simp] theorem seqStart_ph (s : State) : (seqStart s).ph = s.ph := rfl
@[simp] theorem seqStart_scale (s : State) : (seqStart s).scale = s.scale := rfl
@[simp] theorem seqStart_elecFreq (s : State) : (seqStart s).elecFreq = s.elecFreq := rfl
@[simp] theorem seqStart_carrier (s : State) : (seqStart s).carrier = s.carrier := rfl
@[simp] theorem seqStart_handlerReg (s : State) : (seqStart s).handlerReg = s.handlerReg := rfl
@[simp] theorem seqStart_lastT (s : State) : (seqStart s).lastT = s.lastT := rfl
@[simp] theorem seqStart_isrActive (s : State) : (seqStart s).isrActive = s.isrActive := rfl
@[simp] theorem seqStart_isrM (s : State) : (seqStart s).isrM = s.isrM := rfl
@[simp] theorem seqStart_fgTodo (s : State) : (seqStart s).fgTodo = 0xF#4 := rfl
@[simp] theorem seqStart_runReq (s : State) : (seqStart s).runReq = s.runReq := rfl
@[simp] theorem seqStart_arg (s : State) : (seqStart s).arg = s.arg := rfl
@[simp] theorem seqStart_result (s : State) : (seqStart s).result = s.result := rfl
@[simp] theorem seqStart_err (s : State) : (seqStart s).err = s.err := rfl
@[simp] theorem seqStart_pwmLog (s : State) : (seqStart s).pwmLog = s.pwmLog := rfl
@[simp] theorem seqStart_adcLog (s : State) : (seqStart s).adcLog = s.adcLog := rfl
@[simp] theorem seqStart_intSt (s : State) : (seqStart s).intSt = s.intSt := rfl
@[simp] theorem seqStart_started (s : State) : (seqStart s).started = s.started := rfl
@[simp] theorem seqStart_ena (s : State) : (seqStart s).ena = s.ena := rfl
@[simp] theorem seqStart_nowPrev (s : State) : (seqStart s).nowPrev = s.nowPrev := rfl
@[simp] theorem seqStart_hostProg (s : State) : (seqStart s).hostProg = s.hostProg := rfl
@[simp] theorem seqStart_hostReads (s : State) : (seqStart s).hostReads = s.hostReads := rfl
@[simp] theorem seqStart_draws (s : State) : (seqStart s).draws = s.draws := rfl

@[simp] theorem writeErr_cfg (v : Word) (s : State) : (writeErr v s).cfg = s.cfg := rfl
@[simp] theorem writeErr_ph (v : Word) (s : State) : (writeErr v s).ph = s.ph := rfl
@[simp] theorem writeErr_scale (v : Word) (s : State) : (writeErr v s).scale = s.scale := rfl
@[simp] theorem writeErr_elecFreq (v : Word) (s : State) :
    (writeErr v s).elecFreq = s.elecFreq := rfl
@[simp] theorem writeErr_carrier (v : Word) (s : State) : (writeErr v s).carrier = s.carrier := rfl
@[simp] theorem writeErr_handlerReg (v : Word) (s : State) :
    (writeErr v s).handlerReg = s.handlerReg := rfl
@[simp] theorem writeErr_lastT (v : Word) (s : State) : (writeErr v s).lastT = s.lastT := rfl
@[simp] theorem writeErr_isrActive (v : Word) (s : State) :
    (writeErr v s).isrActive = s.isrActive := rfl
@[simp] theorem writeErr_isrM (v : Word) (s : State) : (writeErr v s).isrM = s.isrM := rfl
@[simp] theorem writeErr_fgTodo (v : Word) (s : State) : (writeErr v s).fgTodo = s.fgTodo := rfl
@[simp] theorem writeErr_runReq (v : Word) (s : State) : (writeErr v s).runReq = s.runReq := rfl
@[simp] theorem writeErr_arg (v : Word) (s : State) : (writeErr v s).arg = s.arg := rfl
@[simp] theorem writeErr_result (v : Word) (s : State) : (writeErr v s).result = s.result := rfl
@[simp] theorem writeErr_err (v : Word) (s : State) :
    (writeErr v s).err = s.err &&& ~~~(v.setWidth 9) := rfl
@[simp] theorem writeErr_pwmLog (v : Word) (s : State) : (writeErr v s).pwmLog = s.pwmLog := rfl
@[simp] theorem writeErr_adcLog (v : Word) (s : State) : (writeErr v s).adcLog = s.adcLog := rfl
@[simp] theorem writeErr_intSt (v : Word) (s : State) : (writeErr v s).intSt = s.intSt := rfl
@[simp] theorem writeErr_started (v : Word) (s : State) : (writeErr v s).started = s.started := rfl
@[simp] theorem writeErr_ena (v : Word) (s : State) : (writeErr v s).ena = s.ena := rfl
@[simp] theorem writeErr_nowPrev (v : Word) (s : State) : (writeErr v s).nowPrev = s.nowPrev := rfl
@[simp] theorem writeErr_hostProg (v : Word) (s : State) :
    (writeErr v s).hostProg = s.hostProg := rfl
@[simp] theorem writeErr_hostReads (v : Word) (s : State) :
    (writeErr v s).hostReads = s.hostReads := rfl
@[simp] theorem writeErr_draws (v : Word) (s : State) : (writeErr v s).draws = s.draws := rfl

@[simp] theorem resetBlock_cfg (s : State) : (resetBlock s).cfg = s.cfg := rfl
@[simp] theorem resetBlock_ph (s : State) :
    (resetBlock s).ph = ⟨.reset s.cfg.n .p0, .reset s.cfg.n .p1, .reset s.cfg.n .p2⟩ := rfl
@[simp] theorem resetBlock_scale (s : State) : (resetBlock s).scale = 0 := rfl
@[simp] theorem resetBlock_elecFreq (s : State) : (resetBlock s).elecFreq = 0 := rfl
@[simp] theorem resetBlock_carrier (s : State) : (resetBlock s).carrier = 0 := rfl
@[simp] theorem resetBlock_handlerReg (s : State) : (resetBlock s).handlerReg = false := rfl
@[simp] theorem resetBlock_lastT (s : State) : (resetBlock s).lastT = s.cfg.lastTInit := rfl
@[simp] theorem resetBlock_isrActive (s : State) : (resetBlock s).isrActive = false := rfl
@[simp] theorem resetBlock_isrM (s : State) : (resetBlock s).isrM = 0 := rfl
@[simp] theorem resetBlock_fgTodo (s : State) : (resetBlock s).fgTodo = 0 := rfl
@[simp] theorem resetBlock_runReq (s : State) : (resetBlock s).runReq = false := rfl
@[simp] theorem resetBlock_arg (s : State) : (resetBlock s).arg = 0 := rfl
@[simp] theorem resetBlock_result (s : State) : (resetBlock s).result = 0 := rfl
@[simp] theorem resetBlock_err (s : State) : (resetBlock s).err = 0 := rfl
@[simp] theorem resetBlock_pwmLog (s : State) : (resetBlock s).pwmLog = s.pwmLog := rfl
@[simp] theorem resetBlock_adcLog (s : State) : (resetBlock s).adcLog = s.adcLog := rfl
@[simp] theorem resetBlock_intSt (s : State) : (resetBlock s).intSt = s.intSt := rfl
@[simp] theorem resetBlock_started (s : State) : (resetBlock s).started = s.started := rfl
@[simp] theorem resetBlock_ena (s : State) : (resetBlock s).ena = s.ena := rfl
@[simp] theorem resetBlock_nowPrev (s : State) : (resetBlock s).nowPrev = s.nowPrev := rfl
@[simp] theorem resetBlock_hostProg (s : State) : (resetBlock s).hostProg = s.hostProg := rfl
@[simp] theorem resetBlock_hostReads (s : State) : (resetBlock s).hostReads = s.hostReads := rfl
@[simp] theorem resetBlock_draws (s : State) : (resetBlock s).draws = s.draws := rfl

/-! ### The PWM port -/

@[simp] theorem emitPwm_cfg (tx : PwmTx) (s : State) : (emitPwm tx s).cfg = s.cfg := by
  cases tx <;> rfl
@[simp] theorem emitPwm_ph (tx : PwmTx) (s : State) : (emitPwm tx s).ph = s.ph := by
  cases tx <;> rfl
@[simp] theorem emitPwm_scale (tx : PwmTx) (s : State) : (emitPwm tx s).scale = s.scale := by
  cases tx <;> rfl
@[simp] theorem emitPwm_elecFreq (tx : PwmTx) (s : State) : (emitPwm tx s).elecFreq = s.elecFreq := by
  cases tx <;> rfl
@[simp] theorem emitPwm_carrier (tx : PwmTx) (s : State) : (emitPwm tx s).carrier = s.carrier := by
  cases tx <;> rfl
@[simp] theorem emitPwm_handlerReg (tx : PwmTx) (s : State) : (emitPwm tx s).handlerReg = s.handlerReg := by
  cases tx <;> rfl
@[simp] theorem emitPwm_lastT (tx : PwmTx) (s : State) : (emitPwm tx s).lastT = s.lastT := by
  cases tx <;> rfl
@[simp] theorem emitPwm_isrActive (tx : PwmTx) (s : State) : (emitPwm tx s).isrActive = s.isrActive := by
  cases tx <;> rfl
@[simp] theorem emitPwm_isrM (tx : PwmTx) (s : State) : (emitPwm tx s).isrM = s.isrM := by
  cases tx <;> rfl
@[simp] theorem emitPwm_fgTodo (tx : PwmTx) (s : State) : (emitPwm tx s).fgTodo = s.fgTodo := by
  cases tx <;> rfl
@[simp] theorem emitPwm_runReq (tx : PwmTx) (s : State) : (emitPwm tx s).runReq = s.runReq := by
  cases tx <;> rfl
@[simp] theorem emitPwm_arg (tx : PwmTx) (s : State) : (emitPwm tx s).arg = s.arg := by
  cases tx <;> rfl
@[simp] theorem emitPwm_result (tx : PwmTx) (s : State) : (emitPwm tx s).result = s.result := by
  cases tx <;> rfl
@[simp] theorem emitPwm_err (tx : PwmTx) (s : State) : (emitPwm tx s).err = s.err := by
  cases tx <;> rfl
@[simp] theorem emitPwm_pwmLog (tx : PwmTx) (s : State) : (emitPwm tx s).pwmLog = s.pwmLog ++ [tx] := by
  cases tx <;> rfl
@[simp] theorem emitPwm_adcLog (tx : PwmTx) (s : State) : (emitPwm tx s).adcLog = s.adcLog := by
  cases tx <;> rfl
@[simp] theorem emitPwm_nowPrev (tx : PwmTx) (s : State) : (emitPwm tx s).nowPrev = s.nowPrev := by
  cases tx <;> rfl
@[simp] theorem emitPwm_hostProg (tx : PwmTx) (s : State) : (emitPwm tx s).hostProg = s.hostProg := by
  cases tx <;> rfl
@[simp] theorem emitPwm_hostReads (tx : PwmTx) (s : State) : (emitPwm tx s).hostReads = s.hostReads := by
  cases tx <;> rfl
@[simp] theorem emitPwm_draws (tx : PwmTx) (s : State) : (emitPwm tx s).draws = s.draws := by
  cases tx <;> rfl

end Sys2Proof.Machine
end

