-- ==== Sys2Proof/Laws/Ops.lean ====
section
/-! SUPPORT. For each shared operation, one lemma that says all it can do. -/

namespace Sys2Proof.Machine

/-! ### The turn -/

/-- A listed turn is the next step's: its agent and its answers (entry 4). -/
theorem nextTurn_of_turns {s : State} {t : Turn} {ts : List Turn} (h : s.draws.turns = t :: ts) :
    nextAgent s = t.agent ∧ nextAnswers s = t.answers ∧
      tookTurn s = { s with
        draws := { turns := ts, answers := t.answers, count := s.draws.count + 1 } } := by
  simp [nextAgent, nextAnswers, tookTurn, h]

/-! ### The PWM port -/

/-- Every PWM transaction changes the log and at most the external state of 20_memory.md R74. -/
theorem emitPwm_eq (tx : PwmTx) (s : State) :
    emitPwm tx s = { s with
      pwmLog := s.pwmLog ++ [tx]
      ena := (emitPwm tx s).ena
      started := (emitPwm tx s).started
      intSt := (emitPwm tx s).intSt } := by cases tx <;> rfl

/-- Setting the flag of a phase's own timer sets that phase's flag: timers are distinct (00_scope.md
R11, 20_memory.md R74). -/
theorem setForTimer_timer (c : Config) (k : Phase) (r : PerPhase Bool) :
    setForTimer c (c.timer.get k) r = r.set k true := by
  obtain ⟨h1, h2, h3⟩ := (config_parts c).2.2.2.2.1
  cases k <;>
    simp [setForTimer, PerPhase.get, PerPhase.set, h1, h2, h3, h1.symm, h2.symm, h3.symm]

/-- `PhInit(k)`: all it does (41_phase_channel.md R120). -/
theorem phInitProc_eq (k : Phase) (s : State) :
    phInitProc k s = { s with
      pwmLog := s.pwmLog ++ phInitTxs s.cfg k
      ena := s.ena.set k true
      started := s.started.set k true
      ph := s.ph.set k
        { s.ph.get k with chInit := true, duty := 0, freq := s.cfg.carrierDefault } } := by
  have he := setForTimer_timer s.cfg k s.ena
  have hs := setForTimer_timer s.cfg k s.started
  simp [phInitProc, phInitTxs, emitAll, emitPwm, peripheral, he, hs]

/-- `Apply(k)` with a pending update: all it does (41_phase_channel.md R125). -/
theorem applyProc_of_pending {k : Phase} {s : State} (h : (s.ph.get k).pending = true) :
    applyProc k s = { s with
      pwmLog := s.pwmLog ++ [.setDuty s.cfg.unit (s.cfg.timer.get k) s.cfg.opA (nextDuty s k)]
      ph := s.ph.set k
        { s.ph.get k with
          pending := false
          duty := nextDuty s k
          cursor := cursorNext s.cfg.n (s.ph.get k).cursor } } := by
  simp [applyProc, h, emitPwm, peripheral]

/-- `Apply(k)` without one does nothing (41_phase_channel.md R126). -/
theorem applyProc_of_clear {k : Phase} {s : State} (h : (s.ph.get k).pending = false) :
    applyProc k s = s := by
  simp [applyProc, h]

/-- `SetCarrier(k, hz)`: all it does (41_phase_channel.md R128). -/
theorem setCarrier_eq (k : Phase) (hz : Word) (s : State) :
    setCarrier k hz s = { s with
      pwmLog := s.pwmLog ++ [.setFrequency s.cfg.unit (s.cfg.timer.get k) hz]
      ph := s.ph.set k { s.ph.get k with freq := hz } } := rfl

/-! ### `UpdateFS` -/

/-- The phases that exist, in the order 0, 1, 2. -/
def presentPhases (c : Config) : List Phase := Phase.all.filter fun k => c.present.get k

/-- Carriers sent to a list of phases. -/
theorem foldl_setCarrierIfPresent (ks : List Phase) (s : State) :
    ∃ ph, ks.foldl setCarrierIfPresent s = { s with
        pwmLog := s.pwmLog ++ (ks.filter fun k => s.cfg.present.get k).map
          fun k => .setFrequency s.cfg.unit (s.cfg.timer.get k) s.carrier
        ph := ph } ∧
      ∀ k, ph.get k =
        if k ∈ ks ∧ s.cfg.present.get k = true then { s.ph.get k with freq := s.carrier }
        else s.ph.get k := by
  induction ks generalizing s with
  | nil => exact ⟨s.ph, by simp, by simp⟩
  | cons j js ih =>
    obtain ⟨ph, h, hph⟩ := ih (setCarrierIfPresent s j)
    by_cases hj : s.cfg.present.get j = true
    · have hone : setCarrierIfPresent s j = setCarrier j s.carrier s := by
        simp [setCarrierIfPresent, hj]
      rw [hone, setCarrier_eq] at h hph
      refine ⟨ph, ?_, fun k => ?_⟩
      · rw [List.foldl_cons, hone, setCarrier_eq, h]
        simp [hj]
      · rw [hph k]
        by_cases hkj : k = j
        · subst hkj
          by_cases hin : k ∈ js <;> simp [hin, hj]
        · by_cases hin : k ∈ js <;> simp [hin, hkj]
    · have hone : setCarrierIfPresent s j = s := by simp [setCarrierIfPresent, hj]
      rw [hone] at h hph
      refine ⟨ph, ?_, fun k => ?_⟩
      · rw [List.foldl_cons, hone, h]
        simp [hj]
      · rw [hph k]
        by_cases hkj : k = j
        · subst hkj
          simp [hj]
        · simp [hkj]

/-- The phases' registers once every existing phase has the carrier `hz`. -/
def withCarrier (c : Config) (hz : Word) (r : PerPhase PhaseRegs) : PerPhase PhaseRegs where
  p0 := if c.present.p0 then { r.p0 with freq := hz } else r.p0
  p1 := if c.present.p1 then { r.p1 with freq := hz } else r.p1
  p2 := if c.present.p2 then { r.p2 with freq := hz } else r.p2

theorem withCarrier_get (c : Config) (hz : Word) (r : PerPhase PhaseRegs) (k : Phase) :
    (withCarrier c hz r).get k
      = if c.present.get k then { r.get k with freq := hz } else r.get k := by
  cases k <;> rfl

theorem phase_mem_all (k : Phase) : k ∈ Phase.all := by cases k <;> decide

/-- `UpdateFS(s)`: all it does (42_inverter.md R143). -/
theorem updateFs_eq (sc : BitVec 16) (s : State) :
    updateFs sc s = { s with
      scale := sc
      elecFreq := elecLaw s.cfg.toParams sc.toNat
      carrier := carrierLaw s.cfg.toParams sc.toNat
      pwmLog := s.pwmLog ++ (presentPhases s.cfg).map fun k =>
        .setFrequency s.cfg.unit (s.cfg.timer.get k) (carrierLaw s.cfg.toParams sc.toNat)
      ph := withCarrier s.cfg (carrierLaw s.cfg.toParams sc.toNat) s.ph } := by
  obtain ⟨ph, h, hph⟩ := foldl_setCarrierIfPresent Phase.all
    { s with
      scale := sc
      elecFreq := elecLaw s.cfg.toParams sc.toNat
      carrier := carrierOf s.cfg.toParams (elecLaw s.cfg.toParams sc.toNat) }
  have hregs : ph = withCarrier s.cfg (carrierLaw s.cfg.toParams sc.toNat) s.ph := by
    refine perPhase_eq_of_get fun k => ?_
    rw [hph k, withCarrier_get]
    simp [phase_mem_all, carrierLaw]
  rw [updateFs, h, hregs]
  rfl

/-! ### The scaler -/

/-- Taking a sample: all it does (44_analog_scaler.md R176). -/
theorem takeSample_eq (s : State) :
    takeSample s = updateFs (norm s.cfg.toParams (nextSample s).toNat)
      { tookSample s with
        adcLog := s.adcLog ++ [.readRaw s.cfg.adcCh (nextSample s)]
        lastT := s.nowPrev } := rfl

/-- `ScalerCheck()`: it reads the time, and samples exactly when more than a period has passed
(44_analog_scaler.md R176). -/
theorem scalerCheck_cases (s : State) :
    (s.lastT.toNat + s.cfg.samplePeriod.toNat < (nextTime s).toNat ∧
        scalerCheck s = takeSample (tookTime s)) ∨
      ((nextTime s).toNat ≤ s.lastT.toNat + s.cfg.samplePeriod.toNat ∧
        scalerCheck s = tookTime s) := by
  by_cases h : s.lastT.toNat + s.cfg.samplePeriod.toNat < (nextTime s).toNat
  · exact .inl ⟨h, by simp [scalerCheck, sampleDue, h]⟩
  · exact .inr ⟨by omega, by simp [scalerCheck, sampleDue, h]⟩

/-! ### The interrupt engine -/

theorem isrEntry_eq (s : State) :
    isrEntry s = { s with
      pwmLog := s.pwmLog ++ [.readStatus s.cfg.unit s.intSt]
      isrM := s.intSt
      isrActive := true } := rfl

/-- The phases' registers with the pending flag set where the mask has the phase's bit. -/
def withMarks (s : State) (r : PerPhase PhaseRegs) : PerPhase PhaseRegs where
  p0 := { r.p0 with pending := r.p0.pending || irqBitSet s s.isrM .p0 }
  p1 := { r.p1 with pending := r.p1.pending || irqBitSet s s.isrM .p1 }
  p2 := { r.p2 with pending := r.p2.pending || irqBitSet s s.isrM .p2 }

theorem withMarks_get (s : State) (r : PerPhase PhaseRegs) (k : Phase) :
    (withMarks s r).get k
      = { r.get k with pending := (r.get k).pending || irqBitSet s s.isrM k } := by
  cases k <;> rfl

/-- The marks of `ISR_MARK_ACK`: the pending flag of every latched phase (43_completion_handler.md
R166). -/
theorem foldl_markIfLatched (s : State) :
    Phase.all.foldl markIfLatched s = { s with ph := withMarks s s.ph } := by
  have h : ∀ (t : State) (k : Phase), markIfLatched t k = { t with
      ph := t.ph.set k
        { t.ph.get k with pending := (t.ph.get k).pending || irqBitSet t t.isrM k } } := by
    intro t k
    unfold markIfLatched
    cases hb : irqBitSet t t.isrM k
    · rw [if_neg Bool.false_ne_true]
      simp only [Bool.or_false]
      exact (congrArg (fun p => { t with ph := p }) (perPhase_set_get t.ph k)).symm
    · simp [markDirty]
  simp only [Phase.all, List.foldl_cons, List.foldl_nil, h]
  rfl

theorem isrMarkAck_eq (s : State) :
    isrMarkAck s = { s with
      ph := withMarks s s.ph
      pwmLog := s.pwmLog ++ [.clearStatus s.cfg.unit s.isrM]
      intSt := s.intSt &&& ~~~s.isrM
      isrActive := false } := by
  rw [isrMarkAck, foldl_markIfLatched]
  rfl

/-! ### Initialised channels, orders -/

/-- Startup of the channels, phase by phase (10_state.md R40). -/
theorem channelsInit_iff (s : State) : channelsInit s = true ↔
    ∀ k, s.cfg.present.get k = true → (s.ph.get k).chInit = true := by
  simp only [channelsInit, Phase.all, List.all_cons, List.all_nil, Bool.and_true, Bool.and_eq_true,
    Bool.or_eq_true, Bool.not_eq_true']
  constructor
  · rintro ⟨h0, h1, h2⟩ k hk
    cases k <;> simp_all
  · intro h
    refine ⟨?_, ?_, ?_⟩
    · have := h .p0; cases hh : s.cfg.present.get .p0 <;> simp_all
    · have := h .p1; cases hh : s.cfg.present.get .p1 <;> simp_all
    · have := h .p2; cases hh : s.cfg.present.get .p2 <;> simp_all

/-- Inserting an element gives the list with that element, in some order. -/
theorem insertAt_perm {α} (x : α) (i) (l : List α) : (insertAt x i l).Perm (x :: l) := by
  induction l generalizing i with
  | nil => cases i <;> exact .refl _
  | cons y ys ih =>
    cases i with
    | zero => exact .refl _
    | succ i => exact ((ih i).cons y).trans (.swap _ _ _)

/-! ### Decoding a register access -/

/-- A register's own offset reaches it by a 32-bit access (20_memory.md R69). -/
theorem accessReg_regOffset (r : Reg) : accessReg (regOffset r) 4 = some r := by
  cases r with
  | phCursor k => cases k <;> rfl
  | phDuty k => cases k <;> rfl
  | phFreq k => cases k <;> rfl
  | phFlags k => cases k <;> rfl
  | _ => rfl

theorem regOffset_lt (r : Reg) : regOffset r < 256 := by
  cases r with
  | phCursor k => cases k <;> decide
  | phDuty k => cases k <;> decide
  | phFreq k => cases k <;> decide
  | phFlags k => cases k <;> decide
  | _ => decide

/-- An offset of the window, added to its base, is that offset of the window (20_memory.md R65). -/
theorem windowOffset_base (c : Config) {off : Nat} (h : off < 256) :
    windowOffset c (c.sdeBase + off) = some off := by
  have hb := config_base_aligned c
  rw [windowOffset, if_pos ⟨by omega, by omega⟩]
  congr 1
  omega

/-- The command access is a command, and reaches `CMD` (20_memory.md R69, R72). -/
theorem isCommand_commandAccess (c : Config) (w : Word) : isCommand c (commandAccess c w) = true := by
  have h : windowOffset c (c.sdeBase + regOffset .cmd) = some 16 :=
    windowOffset_base c (regOffset_lt .cmd)
  simp [isCommand, commandAccess, h]
  rfl

/-- Only the 32-bit write at the offset of `CMD` is a command (20_memory.md R66, R69). -/
theorem exists_commandAccess {c : Config} {a : HostAccess} (h : isCommand c a = true) :
    ∃ w, a = commandAccess c w := by
  cases a with
  | read addr bytes => cases h
  | write addr bytes v =>
    have hb := config_base_aligned c
    simp only [isCommand, windowOffset] at h
    split at h
    · simp only [Option.bind_some, accessReg] at h
      split at h
      · rename_i hw hm
        have hreg : ∀ o < 256, regAt o = some .cmd → o = 16 := by decide +kernel
        have ho := hreg (addr % 256) (by omega) (by simpa using h)
        refine ⟨v, ?_⟩
        rw [commandAccess, hm.1, show addr = c.sdeBase + regOffset .cmd by
          show addr = c.sdeBase + 16
          omega]
      · cases h
    · cases h

theorem hostAccess_commandAccess (w : Word) (s : State) :
    hostAccess (commandAccess s.cfg w) s = commandWrite w s := by
  have h : windowOffset s.cfg (s.cfg.sdeBase + regOffset .cmd) = some 16 :=
    windowOffset_base s.cfg (regOffset_lt .cmd)
  simp only [hostAccess, commandAccess, h]
  rfl

end Sys2Proof.Machine
end

