-- ==== Sys2Proof/Laws/PerInstr.lean ====
section
/-! SUPPORT. A property of every instruction as syntax, one lemma per constructor. -/

namespace Sys2Proof.Laws

/-- The operand form of an instruction (30_encoding.md R86). -/
def formOf : Instr → Form
  | .nop => .none
  | .tblRead _ => .index
  | .phInit _ => .phase
  | .phApply _ => .phase
  | .phSetCarrier _ => .phase
  | .invInit => .none
  | .invUpdateFs _ => .scale
  | .scalerCheck => .none
  | .fgIter => .none
  | .adcInit => .none

/-- The encoded word has a 0 in every bit its form must have 0 (30_encoding.md R87, R91). -/
def ReservedBitsClear.Statement (i : Instr) : Prop := encode i &&& (formOf i).mustBeZero = 0#32

theorem ReservedBitsClear.nop : Statement .nop := rfl

theorem ReservedBitsClear.tblRead (imm : BitVec 12) : Statement (.tblRead imm) := by
  refine BitVec.eq_of_getElem_eq fun j hj => ?_
  interval_cases j <;> simp [formOf, Form.mustBeZero, encode]

theorem ReservedBitsClear.phInit (ph : BitVec 2) : Statement (.phInit ph) := by
  unfold ReservedBitsClear.Statement
  revert ph
  decide

theorem ReservedBitsClear.phApply (ph : BitVec 2) : Statement (.phApply ph) := by
  unfold ReservedBitsClear.Statement
  revert ph
  decide

theorem ReservedBitsClear.phSetCarrier (ph : BitVec 2) : Statement (.phSetCarrier ph) := by
  unfold ReservedBitsClear.Statement
  revert ph
  decide

theorem ReservedBitsClear.invInit : Statement .invInit := rfl

theorem ReservedBitsClear.invUpdateFs (imm : BitVec 16) : Statement (.invUpdateFs imm) := by
  refine BitVec.eq_of_getElem_eq fun j hj => ?_
  interval_cases j <;> simp [formOf, Form.mustBeZero, encode]

theorem ReservedBitsClear.scalerCheck : Statement .scalerCheck := rfl

theorem ReservedBitsClear.fgIter : Statement .fgIter := rfl

theorem ReservedBitsClear.adcInit : Statement .adcInit := rfl

end Sys2Proof.Laws
end

