-- ==== Sys2Proof/Laws/Program.lean ====
section
/-! SUPPORT. How programs compose. -/

namespace Sys2Proof.Machine

/-- The answers still waiting after some entries of a program. -/
def waitingAfter (c : Config) (waiting : Answers) : List Entry → Answers
  | [] => waiting
  | .time t :: es => waitingAfter c { waiting with time := some t } es
  | .sample r :: es => waitingAfter c { waiting with sample := some r } es
  | .turn agent access _ :: es =>
    waitingAfter c (if turnReadsPorts c agent access then .none else waiting) es

/-- The answers still waiting after some lines of a program. -/
def waitingAfterLines (c : Config) (ls : List Line) : Answers :=
  waitingAfter c .none (ls.flatMap (lineEntries c))

/-- The turns of two programs put together: the second's, with what the first left waiting. -/
theorem turnsOf_append (c : Config) (waiting : Answers) (es fs : List Entry) :
    turnsOf c waiting (es ++ fs)
      = turnsOf c waiting es ++ turnsOf c (waitingAfter c waiting es) fs := by
  induction es generalizing waiting with
  | nil => rfl
  | cons e es ih =>
    cases e with
    | time t => exact ih _
    | sample r => exact ih _
    | turn agent access order =>
      simp only [List.cons_append, turnsOf, waitingAfter]
      split <;> simp [ih]

theorem waitingAfter_append (c : Config) (waiting : Answers) (es fs : List Entry) :
    waitingAfter c waiting (es ++ fs) = waitingAfter c (waitingAfter c waiting es) fs := by
  induction es generalizing waiting with
  | nil => rfl
  | cons e es ih => cases e <;> exact ih _

/-- Two programs put together: the second's accesses and turns after the first's. -/
theorem loadProgram_append (ls ms : List Line) (s : State) :
    loadProgram (ls ++ ms) s = adding (loadProgram ls s)
      ((ms.flatMap (lineEntries s.cfg)).filterMap entryAccess)
      (turnsOf s.cfg (waitingAfterLines s.cfg ls) (ms.flatMap (lineEntries s.cfg))) := by
  simp [loadProgram, adding, waitingAfterLines, turnsOf_append]

/-- A command word reads the ports exactly when the command it decodes to does. -/
theorem accessReadsPorts_commandAccess (c : Config) (w : Word) :
    accessReadsPorts c (commandAccess c w) =
      match decode w with
      | .ok i => readsPorts i
      | .error _ => false := by
  have h := isCommand_commandAccess c w
  simp only [commandAccess] at h ⊢
  cases hd : decode w <;> simp only [accessReadsPorts, h, hd, Bool.true_and]

end Sys2Proof.Machine
end

