-- ==== Sys2Proof/Laws/Step.lean ====
section
/-! SUPPORT. What a command, an access and a step can do, said once: the case lists that statements
about every step are proved from. -/

namespace Sys2Proof.Machine

/-! ### Commands -/

/-- All a command can do to the state it starts in. -/
inductive CommandEffect (s : State) : State → Prop where
  /-- `NOP`, or a phase command on an absent channel. -/
  | same : CommandEffect s s
  /-- A refused command (60_exceptions.md R186). -/
  | refused (e : CmdError) : CommandEffect s (raise e s)
  | tableRead (i : Nat) (h : i < s.cfg.n) :
      CommandEffect s { s with result := (tableAt s.cfg i).setWidth 32 }
  | channelInit (k : Phase) (hb : seqActive s = false) (hp : s.cfg.present.get k = true)
      (hi : (s.ph.get k).chInit = false) : CommandEffect s (phInitProc k s)
  | applied (k : Phase) (hb : seqActive s = false) (hp : s.cfg.present.get k = true)
      (hi : (s.ph.get k).chInit = true) : CommandEffect s (applyProc k s)
  | carrierSet (k : Phase) (hz : Word) (hb : seqActive s = false)
      (hp : s.cfg.present.get k = true) (hi : (s.ph.get k).chInit = true) :
      CommandEffect s (setCarrier k hz s)
  | inverterInit (hb : seqActive s = false) (hi : anyInit s = false) :
      CommandEffect s (invInitProc s)
  | updated (sc : BitVec 16) (hb : seqActive s = false) (hi : initDone s = true)
      (hs : sc.toNat ≤ 0x8000) : CommandEffect s (updateFs sc s)
  | scaled (hb : seqActive s = false) (hi : initDone s = true) : CommandEffect s (scalerCheck s)
  | iterated (hb : seqActive s = false) (hi : initDone s = true) : CommandEffect s (fgIterProc s)
  | adcConfigured (hb : seqActive s = false) : CommandEffect s (adcInitProc s)

/-- A foreground command is refused, or runs while the sequencer is idle. -/
theorem foreground_cases (run : State → State) (s : State) :
    (seqActive s = true ∧ foreground run s = raise .busy s) ∨
      (seqActive s = false ∧ foreground run s = run s) := by
  cases h : seqActive s
  · exact .inr ⟨rfl, by simp [foreground, h]⟩
  · exact .inl ⟨rfl, by simp [foreground, h]⟩

/-- A phase command is refused, does nothing on an absent channel, or runs on a phase. -/
theorem phaseCommand_cases (ph : BitVec 2) (run : Phase → State → State) (s : State) :
    (∃ e, phaseCommand ph run s = raise e s) ∨ phaseCommand ph run s = s ∨
      ∃ k, phaseOperand ph = some k ∧ seqActive s = false ∧ s.cfg.present.get k = true ∧
        phaseCommand ph run s = run k s := by
  unfold phaseCommand
  rcases phaseOperand ph with _ | k
  · exact .inl ⟨_, rfl⟩
  rcases foreground_cases (fun s => if s.cfg.present.get k then run k s else s) s with
    ⟨_, h⟩ | ⟨hb, h⟩
  · exact .inl ⟨_, h⟩
  cases hp : s.cfg.present.get k
  · exact .inr (.inl (by simp [h, hp]))
  · exact .inr (.inr ⟨k, rfl, hb, hp, by simp [h, hp]⟩)

/-- What a command answers: always a next state, with one of the effects listed. -/
theorem exec_effect (i : Instr) (s : State) : ∃ t, exec i s = .next t ∧ CommandEffect s t := by
  cases i with
  | nop => exact ⟨_, rfl, .same⟩
  | tblRead imm =>
    refine ⟨_, rfl, ?_⟩
    unfold tblRead
    split
    · exact .refused _
    · exact .tableRead _ (by omega)
  | phInit ph =>
    refine ⟨_, rfl, ?_⟩
    rcases phaseCommand_cases ph phInitChecked s with ⟨e, h⟩ | h | ⟨k, _, hb, hp, h⟩ <;> rw [h]
    · exact .refused e
    · exact .same
    unfold phInitChecked
    split
    · exact .refused _
    · exact .channelInit k hb hp (by simp_all)
  | phApply ph =>
    refine ⟨_, rfl, ?_⟩
    rcases phaseCommand_cases ph phApplyChecked s with ⟨e, h⟩ | h | ⟨k, _, hb, hp, h⟩ <;> rw [h]
    · exact .refused e
    · exact .same
    unfold phApplyChecked
    split
    · exact .applied k hb hp (by assumption)
    · exact .refused _
  | phSetCarrier ph =>
    refine ⟨_, rfl, ?_⟩
    rcases phaseCommand_cases ph phSetCarrierChecked s with ⟨e, h⟩ | h | ⟨k, _, hb, hp, h⟩ <;>
      rw [h]
    · exact .refused e
    · exact .same
    unfold phSetCarrierChecked
    split
    · exact .carrierSet k _ hb hp (by assumption)
    · exact .refused _
  | invInit =>
    refine ⟨_, rfl, ?_⟩
    rcases foreground_cases invInitChecked s with ⟨_, h⟩ | ⟨hb, h⟩ <;> rw [h]
    · exact .refused _
    unfold invInitChecked
    split
    · exact .refused _
    · exact .inverterInit hb (by simp_all)
  | invUpdateFs imm =>
    refine ⟨_, rfl, ?_⟩
    rcases foreground_cases (invUpdateFsChecked imm) s with ⟨_, h⟩ | ⟨hb, h⟩ <;> rw [h]
    · exact .refused _
    unfold invUpdateFsChecked
    split
    · split
      · exact .refused _
      · rename_i hi hr
        exact .updated imm hb hi (by simpa [scaleOperand] using hr)
    · exact .refused _
  | scalerCheck =>
    refine ⟨_, rfl, ?_⟩
    rcases foreground_cases scalerCheckChecked s with ⟨_, h⟩ | ⟨hb, h⟩ <;> rw [h]
    · exact .refused _
    unfold scalerCheckChecked
    split
    · exact .scaled hb (by assumption)
    · exact .refused _
  | fgIter =>
    refine ⟨_, rfl, ?_⟩
    rcases foreground_cases fgIterChecked s with ⟨_, h⟩ | ⟨hb, h⟩ <;> rw [h]
    · exact .refused _
    unfold fgIterChecked
    split
    · exact .iterated hb (by assumption)
    · exact .refused _
  | adcInit =>
    refine ⟨_, rfl, ?_⟩
    rcases foreground_cases adcInitProc s with ⟨_, h⟩ | ⟨hb, h⟩ <;> rw [h]
    · exact .refused _
    · exact .adcConfigured hb

/-- A command word is refused by the decoder or runs its command. -/
theorem commandWrite_effect (w : Word) (s : State) :
    ∃ t, commandWrite w s = .next t ∧ CommandEffect s t := by
  unfold commandWrite
  rcases decode w with e | i
  · exact ⟨_, rfl, .refused e⟩
  · exact exec_effect i s

/-! ### Accesses and steps -/

/-- All an access of the host can do to the state it starts in. -/
inductive AccessEffect (s : State) : State → Prop where
  | readLegal (v : Word) : AccessEffect s (returnRead v s)
  | readRefused : AccessEffect s (returnRead 0 (raise .bus s))
  | writeRefused : AccessEffect s (raise .bus s)
  | runStarted (h : initDone s = true) : AccessEffect s { s with runReq := true }
  | runRefused : AccessEffect s (raise .notInit s)
  | runStopped : AccessEffect s { s with runReq := false }
  | argWritten (v : Word) : AccessEffect s { s with arg := v }
  | errCleared (v : Word) : AccessEffect s (writeErr v s)

/-- A write of a register other than `CMD` has one of the effects listed. -/
theorem writeReg_effect (r : Reg) (v : Word) (s : State) : AccessEffect s (writeReg r v s) := by
  cases r <;> try exact .writeRefused
  · show AccessEffect s (writeCtrl v s)
    unfold writeCtrl
    split
    · split
      · exact .runStarted (by assumption)
      · exact .runRefused
    · exact .runStopped
  · exact .argWritten v
  · exact .errCleared v

theorem readAt_effect (off bytes : Nat) (s : State) : AccessEffect s (readAt off bytes s) := by
  unfold readAt
  split
  · exact .readLegal _
  · exact .readRefused

/-- An access faults outside the window, is a command, or has one of the effects listed. -/
theorem hostAccess_cases (a : HostAccess) (s : State) :
    hostAccess a s = .fault .outsideWindow ∨
      (isCommand s.cfg a = true ∧ ∃ t, hostAccess a s = .next t ∧ CommandEffect s t) ∨
      ∃ t, hostAccess a s = .next t ∧ AccessEffect s t := by
  cases a with
  | read addr bytes =>
    simp only [hostAccess]
    rcases windowOffset s.cfg addr with _ | off
    · exact .inl rfl
    · exact .inr (.inr ⟨_, rfl, readAt_effect off bytes s⟩)
  | write addr bytes v =>
    simp only [hostAccess, isCommand]
    rcases windowOffset s.cfg addr with _ | off
    · exact .inl rfl
    simp only [writeAt, Option.bind_some]
    rcases accessReg off bytes with _ | r
    · exact .inr (.inr ⟨_, rfl, .writeRefused⟩)
    cases r with
    | cmd => exact .inr (.inl ⟨by rfl, commandWrite_effect v s⟩)
    | _ => exact .inr (.inr ⟨_, rfl, writeReg_effect _ v s⟩)

/-- All a step of the drawn agent can do to the state in which the draw was made. -/
inductive StepEffect (s : State) : AgentStep → State → Prop where
  /-- A step that is not enabled, a host with nothing to do, or a command that waits. -/
  | idle (a : AgentStep) : StepEffect s a s
  /-- A command: the word that is written, what it does, and all that a command can do. -/
  | command (w : Word) (rest : List HostAccess)
      (hp : s.hostProg = commandAccess s.cfg w :: rest) (hi : s.isrActive = false) {t : State}
      (hw : commandWrite w { s with hostProg := rest } = .next t)
      (h : CommandEffect { s with hostProg := rest } t) : StepEffect s .host t
  | access (w : HostAccess) (rest : List HostAccess) (hp : s.hostProg = w :: rest) {t : State}
      (h : AccessEffect { s with hostProg := rest } t) : StepEffect s .host t
  | seqStart (hr : s.runReq = true) (hf : s.fgTodo = 0) (hi : s.isrActive = false) :
      StepEffect s .seqStart (seqStart s)
  | seqTask (t : Task) (ht : taskToDo s t = true) (hi : s.isrActive = false) :
      StepEffect s (.seqTask t) (seqTask t s)
  | isrEntry (hq : irq s = true) (hi : s.isrActive = false) : StepEffect s .isrEntry (isrEntry s)
  | isrMarkAck (hi : s.isrActive = true) : StepEffect s .isrMarkAck (isrMarkAck s)
  | evPeriod (k : Phase) (h : s.started.get k = true ∧ s.ena.get k = true) :
      StepEffect s (.evPeriod k) (evPeriod k s)
  | evForeign (b : Fin 32) (h : s.cfg.foreignMask.getLsbD b.val = true) :
      StepEffect s (.evForeign b) (evForeign b s)
  | reset : StepEffect s .reset (resetBlock s)

/-- If a step answers a next state, the drawn agent had one of the effects listed. -/
theorem step_effect {s t : State} (h : step s = .next t) :
    StepEffect (tookTurn s) (nextAgent s) t := by
  rw [step, agentStep] at h
  generalize nextAgent s = a at h ⊢
  generalize tookTurn s = u at h ⊢
  split at h
  · rename_i he
    cases a with
    | host =>
      simp only [takeStep, hostStep] at h
      split at h
      · cases h
        exact .idle _
      · rename_i w rest hw
        split at h
        · cases h
          exact .idle _
        · rename_i hc
          rcases hostAccess_cases w { u with hostProg := rest } with hf | ⟨hcmd, t', ht, he'⟩ |
            ⟨t', ht, he'⟩
          · rw [hf] at h
            cases h
          · have hcmd' : isCommand u.cfg w = true := hcmd
            obtain ⟨v, rfl⟩ := exists_commandAccess hcmd'
            have hv := hostAccess_commandAccess v { u with hostProg := rest }
            rw [ht] at h
            cases h
            exact .command v rest hw (by simpa [hcmd'] using hc) (hv.symm.trans ht) he'
          · rw [ht] at h
            cases h
            exact .access w rest hw he'
    | seqStart =>
      cases h
      simp only [enabled, Bool.and_eq_true, beq_iff_eq, Bool.not_eq_true'] at he
      exact .seqStart he.1.1 he.1.2 he.2
    | seqTask t =>
      cases h
      simp only [enabled, Bool.and_eq_true, Bool.not_eq_true'] at he
      exact .seqTask t he.1 he.2
    | isrEntry =>
      cases h
      simp only [enabled, Bool.and_eq_true, Bool.not_eq_true'] at he
      exact .isrEntry he.1 he.2
    | isrMarkAck =>
      cases h
      exact .isrMarkAck he
    | evPeriod k =>
      cases h
      simp only [enabled, Bool.and_eq_true] at he
      exact .evPeriod k he
    | evForeign b =>
      cases h
      exact .evForeign b he
    | reset =>
      cases h
      exact .reset
  · cases h
    exact .idle _

end Sys2Proof.Machine
end

