-- ==== Sys2Proof/Tests/Slice0.lean ====
section
/-! SUPPORT. Tests: ill-formed terms refused, words decoded, one step each of the spec's vectors, and
for each obligation with hypotheses a state and operands that meet them. -/

namespace Sys2Proof.Tests

open Sys2Proof.Machine

/-! ### Well-formedness -/

theorem test_phInit_phase3_illFormed : Instr.wf (.phInit 3) = false := by decide
theorem test_phApply_phase3_illFormed : Instr.wf (.phApply 3) = false := by decide
theorem test_phSetCarrier_phase3_illFormed : Instr.wf (.phSetCarrier 3) = false := by decide

/-! ### Decoding: the words of 30_encoding.md R96 and 95_test_vectors.md V11 -/

theorem test_decode_nop : decode 0x00000000#32 = .ok .nop := by decide
theorem test_decode_tblRead : decode 0x10000020#32 = .ok (.tblRead 32) := by decide
theorem test_decode_tblRead_max : decode 0x10000FFF#32 = .ok (.tblRead 4095) := by decide
theorem test_decode_phInit : decode 0x28000000#32 = .ok (.phInit 2) := by decide
theorem test_decode_phApply : decode 0x34000000#32 = .ok (.phApply 1) := by decide
theorem test_decode_phSetCarrier : decode 0x48000000#32 = .ok (.phSetCarrier 2) := by decide
theorem test_decode_invInit : decode 0x50000000#32 = .ok .invInit := by decide
theorem test_decode_invUpdateFs : decode 0x60008000#32 = .ok (.invUpdateFs 0x8000) := by decide
theorem test_decode_scalerCheck : decode 0x70000000#32 = .ok .scalerCheck := by decide
theorem test_decode_fgIter : decode 0x80000000#32 = .ok .fgIter := by decide
theorem test_decode_adcInit : decode 0x90000000#32 = .ok .adcInit := by decide
theorem test_decode_reserved_opcode : decode 0xAFFFFFFF#32 = .error .illegalOp := by decide
theorem test_decode_phase3 : decode 0x3C000000#32 = .error .badPhase := by decide
theorem test_decode_rsv_before_phase : decode 0x3C000001#32 = .error .rsvField := by decide
theorem test_decode_tblRead_bit12 : decode 0x10001000#32 = .error .rsvField := by decide
theorem test_decode_nop_phase : decode 0x04000000#32 = .error .rsvField := by decide
theorem test_decode_invUpdateFs_bit16 : decode 0x60018000#32 = .error .rsvField := by decide
theorem test_decodeTableWord : decodeTableWord 32 0x10000005 = some (.tblRead 5) := by decide

/-- The lanes of `IDENT` (95_test_vectors.md V10). -/
theorem test_lanes_of_ident : lanesOfWord 0x53505737#32 = [0x37, 0x57, 0x50, 0x53] := by decide

/-! ### Small states -/

/-- The default parameters with a number for each OPEN one that a test compares. -/
def testParams : Params :=
  { Config.defaultParams with
    carrierDefault := 0xCD00, unit := 9, opA := 7, adcCh := 4, adcAtten := 3, adcBits := 12 }

def testConfig : Config where
  toParams := testParams
  admitted := by decide

/-- The state after reset. -/
def fresh : State := State.resetOf testConfig

/-- The registers of an initialised channel. -/
def initialised (cursor : BitVec 12) (pending : Bool) : PhaseRegs where
  cursor := cursor
  pending := pending
  chInit := true
  duty := 0
  freq := 0xCD00

/-- An initialised block whose phase 2 has the given cursor and pending flag. -/
def booted (cursor : BitVec 12) (pending : Bool) : State :=
  { fresh with
    ph := ⟨initialised 0 false, initialised 11 false, initialised cursor pending⟩
    handlerReg := true
    started := .const true
    ena := .const true }

/-- The sequencer in the middle of an iteration: tasks A1 and A2 to do. -/
def sequencing : State := { booted 22 false with runReq := true, fgTodo := 0b1100#4 }

/-- The interrupt engine between its two steps, having latched phases 0 and 2; phase 1 came after. -/
def interrupted : State := { booted 22 false with isrActive := true, isrM := 5, intSt := 7 }

/-- `s` with the agents of the next steps listed, and no answers. -/
def drawn (agents : List AgentStep) (s : State) : State :=
  { s with draws := { s.draws with turns := agents.map fun a => ⟨a, .none⟩ } }

/-- `s` with one access for the host's next turn. -/
def withAccess (a : HostAccess) (s : State) : State := drawn [.host] { s with hostProg := [a] }

/-- The host about to write `w` to `CMD`, with the answers to that step. -/
def answering (ans : Answers) (w : Word) (s : State) : State :=
  { s with
    hostProg := [.write (s.cfg.sdeBase + 0x10) 4 w]
    draws := { s.draws with turns := [⟨.host, ans⟩] } }

/-- The host about to write `w` to `CMD`. -/
def commanding (w : Word) (s : State) : State := answering .none w s

/-- The state after one step, if there is one. -/
def after (s : State) : Option State :=
  match step s with
  | .next t => some t
  | .fault _ => none
  | .refused _ => none

/-- The state after one step that runs a command word. -/
def run1 (w : Nat) (s : State) : Option State := after (s.withFetchWord 32 w)

/-! ### One step per instruction (95_test_vectors.md V5 to V11) -/

theorem test_nop_busy_block : (run1 0x00000000 sequencing).map (·.err) = some 0 := by decide
theorem test_nop_rsv : (run1 0x00010000 fresh).map (·.err) = some 0x002 := by decide

theorem test_tblRead_11 : (run1 0x1000000B fresh).map (·.result) = some 0x5D4D := by decide
theorem test_tblRead_33 : (run1 0x10000021 sequencing).map (·.err) = some 0x040 := by decide

theorem test_phInit_flags :
    (run1 0x24000000 fresh).map (fun s => (flagsWord s .p1, (s.ph.get .p1).freq, statusWord s))
      = some (6, 0xCD00, 0) := by decide
theorem test_phInit_twice : (run1 0x24000000 (booted 22 false)).map (·.err) = some 0x020 := by
  decide

theorem test_phApply_wraps :
    (run1 0x38000000 { booted 32 true with scale := 0x8000 }).map
        (fun s => (s.pwmLog, (s.ph.get .p2).cursor, (s.ph.get .p2).pending))
      = some ([.setDuty 9 2 7 0x288A], 0, false) := by decide
theorem test_phApply_not_init : (run1 0x30000000 fresh).map (·.err) = some 0x010 := by decide

theorem test_phSetCarrier_zero :
    (run1 0x40000000 (booted 22 false)).map (fun s => (s.pwmLog, (s.ph.get .p0).freq))
      = some ([.setFrequency 9 0 0], 0) := by decide
theorem test_phSetCarrier_arg :
    (run1 0x48000000 { booted 22 false with arg := 0x67200 }).map (fun s => (s.ph.get .p2).freq)
      = some 0x67200 := by decide

theorem test_invInit_log :
    (after (answering { Answers.none with order := some 0 } 0x50000000 fresh)).map
        (fun s => (s.pwmLog.length, s.pwmLog.getLast?, statusWord s))
      = some (19, some (.registerHandler 9), 9) := by decide
theorem test_invInit_busy : (run1 0x50000000 sequencing).map (·.err) = some 0x008 := by decide

theorem test_invUpdateFs_half :
    (run1 0x60004000 (booted 22 false)).map (fun s => (s.scale, s.elecFreq, s.carrier))
      = some (0x4000, 0x3200, 0x67200) := by decide
theorem test_invUpdateFs_not_init_first : (run1 0x60008001 fresh).map (·.err) = some 0x010 := by
  decide

/-- The answers of a time and of the sample 2048. -/
def timeAnswer (t : BitVec 64) : Answers where
  time := some t
  sample := some 2048
  order := some 0

theorem test_scalerCheck_at_period :
    (after (answering (timeAnswer 1000000) 0x70000000 (booted 22 false))).map
        (fun s => (s.lastT, s.nowPrev, s.adcLog))
      = some (0, 1000000, []) := by decide
theorem test_scalerCheck_samples :
    (after (answering (timeAnswer 1000001) 0x70000000 (booted 22 false))).map
        (fun s => (s.lastT, s.scale, s.carrier, s.adcLog))
      = some (1000001, 0x4004, 0x67221, [.readRaw 4 2048]) := by decide

theorem test_fgIter_applies :
    (after (answering (timeAnswer 10) 0x80000000 { booted 22 true with scale := 0x4004 })).map
        (fun s => ((s.ph.get .p2).duty, (s.ph.get .p2).cursor, (s.ph.get .p1).cursor, s.nowPrev))
      = some (0x1C58, 23, 11, 10) := by decide
theorem test_fgIter_not_init : (run1 0x80000000 fresh).map (·.err) = some 0x010 := by decide

theorem test_adcInit_log :
    (run1 0x90000000 fresh).map (·.adcLog)
      = some [.configureResolution 12, .configureInputRange 4 3] := by decide
theorem test_adcInit_busy : (run1 0x90000000 sequencing).map (·.err) = some 0x008 := by decide

/-! ### The laws (95_test_vectors.md V1 to V4) -/

theorem test_dutyLaw_tie_down : dutyLaw 12799 0x4000 = 0x3200 := by decide
theorem test_dutyLaw_tie_up : dutyLaw 12801 0x4000 = 0x3201 := by decide
theorem test_dutyLaw_row : dutyLaw 23885 0x2000 = 0x3CD3 ∧ dutyLaw 14 0x6000 = 0x0C8B := by decide
theorem test_offsets :
    cursorOffset 32 .p1 = 10 ∧ cursorOffset 32 .p2 = 21 ∧ cursorOffset 4095 .p2 = 2730 := by
  decide
theorem test_elecLaw_first_step :
    elecLaw testParams 3 = 0x2800 ∧ elecLaw testParams 4 = 0x2801 := by decide
theorem test_norm_rows : norm testParams 3071 = 0x5FFE ∧ norm testParams 4094 = 0x7FF8 := by
  decide

/-! ### The port, the interrupt engine, the sequencer, the programs' text -/

theorem test_read_param :
    (after (withAccess (.read 0x004 4) fresh)).map (·.hostReads) = some [0x000C0021] := by decide
theorem test_read_cmd_bus :
    (after (withAccess (.read 0x010 4) fresh)).map (fun s => (s.hostReads, s.err))
      = some ([0], 0x100) := by decide
theorem test_write_err_clears :
    (after (withAccess (.write 0x01C 4 1) { fresh with err := 0x003 })).map (·.err)
      = some 0x002 := by decide
theorem test_command_waits_in_isr :
    (after (withAccess (.write 0x010 4 0x10000000) interrupted)).map (·.hostProg.length)
      = some 1 := by decide

/-- The return of the example under 43_completion_handler.md R169. -/
theorem test_isrMarkAck_example :
    (after (drawn [.isrMarkAck] interrupted)).map
        (fun s => (s.intSt, Phase.all.map fun k => (s.ph.get k).pending))
      = some (2, [true, false, true]) := by decide
/-- Program P5 of 95_test_vectors.md, `STATUS` once `SEQ_START` is taken. -/
theorem test_seqStart_status :
    (after (drawn [.seqStart] { sequencing with fgTodo := 0 })).map statusWord = some 0xF0B := by
  decide
/-- Program P5, the last task after `STOP`. -/
theorem test_seqTask_last :
    (after (drawn [.seqTask (.apply .p2)]
      { sequencing with runReq := false, fgTodo := 0b1000#4 })).map statusWord = some 0x009 := by
  decide

theorem test_parse_apply :
    parseLine "PH_APPLY p0              ; 0x30000000".toList
      = some (some (.stmt (.cmd (.phApply 0)))) := by decide
theorem test_parse_order :
    parseLine "FG_ITER                  ; 0x80000000  ; order S,A0,A1,A2".toList
      = some (some (.fgIter 0)) := by decide

/-- The end of program P3 after its `INV_INIT`: the order goes to the `FG_ITER`, and each time and
sample to the command under it. -/
theorem test_load_answers :
    (loadProgram [.stmt (.cmd .invInit), .time 1000000, .stmt (.cmd .scalerCheck), .time 1000001,
        .adc 2048, .stmt (.cmd .scalerCheck), .agent (.evPeriod .p0), .isr, .time 1500000,
        .fgIter 0] fresh).draws.turns
      = [ ⟨.host, .none⟩, ⟨.host, ⟨some 1000000, none, none⟩⟩,
          ⟨.host, ⟨some 1000001, some 2048, none⟩⟩, ⟨.evPeriod .p0, .none⟩, ⟨.isrEntry, .none⟩,
          ⟨.isrMarkAck, .none⟩, ⟨.host, ⟨some 1500000, none, some 0⟩⟩ ] := by decide

/-- `s` with the answers to the step being taken. -/
def answered (ans : Answers) (s : State) : State :=
  { s with draws := { s.draws with answers := ans } }

/-! ### Witnesses: for each obligation with hypotheses, a state and operands that meet them -/

theorem witness_ResetSetsEveryBlockRegister :
    (drawn [.reset] interrupted).draws.turns = ⟨.reset, .none⟩ :: [] := by decide

theorem witness_ResetLeavesLogsAndPeripheral :
    (drawn [.reset, .host] sequencing).draws.turns = ⟨.reset, .none⟩ :: [⟨.host, .none⟩] := by decide

/-- The invocation in progress of `interrupted` meets the invariant. -/
theorem interrupted_inv : Inv interrupted where
  phases k := by
    cases k <;> exact ⟨by decide, by decide, by decide, by decide, by decide⟩
  scale_le := by decide
  carrier_eq := by decide
  elec_range := .inl rfl
  last_le := by decide
  init_le := by decide
  handler_init _ := by decide
  seq_init h := by revert h; decide
  isr_handled _ := by decide
  latched_pending _ := by decide
  sources := by decide
  pwm_legal tx h := by cases h
  adc_legal tx h := by cases h

/-- Which agents are listed is no part of the invariant. -/
theorem drawn_inv {s : State} (h : Inv s) (agents : List AgentStep) : Inv (drawn agents s) :=
  ⟨fun k => ⟨(h.phases k).1, (h.phases k).2, (h.phases k).3, (h.phases k).4, (h.phases k).5⟩,
    h.2, h.3, h.4, h.5, h.6, h.7, h.8, h.9, h.10, h.11, h.12, h.13⟩

theorem witness_EveryStepKeepsInvariant :
    Inv (drawn [.isrMarkAck] interrupted) ∧
      step (drawn [.isrMarkAck] interrupted)
        = .next (isrMarkAck (tookTurn (drawn [.isrMarkAck] interrupted))) :=
  ⟨drawn_inv interrupted_inv _, rfl⟩

theorem witness_DecodeInvertsEncode :
    Instr.wf (.phSetCarrier 2) = true ∧ Instr.wf (.tblRead 4095) = true ∧
      Instr.wf (.invUpdateFs 0xFFFF) = true := by decide

theorem witness_EncodeInvertsDecode : decode 0x6000FFFF#32 = .ok (.invUpdateFs 0xFFFF) := by decide

theorem witness_StepRunsDecodedCommand :
    let s := commanding 0x38000000 (booted 32 true)
    s.draws.turns = ⟨.host, .none⟩ :: [] ∧
      s.hostProg = .write (s.cfg.sdeBase + 0x10) 4 0x38000000 :: [] ∧
      s.isrActive = false ∧ decode 0x38000000 = .ok (.phApply 2) ∧
      Instr.wf (.phApply 2) = true := by decide

theorem witness_StepRefusesUndecodableWord :
    let s := fun w => commanding w fresh
    (∀ w, (s w).draws.turns = ⟨.host, .none⟩ :: [] ∧
      (s w).hostProg = .write ((s w).cfg.sdeBase + 0x10) 4 w :: [] ∧ (s w).isrActive = false) ∧
      decode 0xA0000000 = .error .illegalOp ∧ decode 0x10001000 = .error .rsvField ∧
      decode 0x3C000000 = .error .badPhase :=
  ⟨fun _ => ⟨rfl, rfl, rfl⟩, by decide, by decide, by decide⟩

theorem witness_HostAccessesProceedUnlessCommandWaits :
    let free := withAccess (.write 0x10 4 0) fresh
    let reading := withAccess (.read 0x10 4) interrupted
    let waiting := withAccess (.write 0x10 4 0) interrupted
    (free.draws.turns = ⟨.host, .none⟩ :: [] ∧ free.hostProg = .write 0x10 4 0 :: [] ∧
      free.isrActive = false) ∧
    (reading.draws.turns = ⟨.host, .none⟩ :: [] ∧ reading.hostProg = .read 0x10 4 :: [] ∧
      ∀ w, HostAccess.read 0x10 4 ≠ .write (reading.cfg.sdeBase + 0x10) 4 w) ∧
    waiting.draws.turns = ⟨.host, .none⟩ :: [] ∧ waiting.hostProg = .write 0x10 4 0 :: [] ∧
      waiting.isrActive = true ∧
      ∃ w, HostAccess.write 0x10 4 0 = .write (waiting.cfg.sdeBase + 0x10) 4 w :=
  ⟨⟨rfl, rfl, rfl⟩, ⟨rfl, rfl, (fun _ h => by cases h)⟩, rfl, rfl, rfl, 0, rfl⟩

theorem witness_PlacedCommandRunsNext : decodeTableWord 32 0x90000000 = some .adcInit := by decide

theorem witness_RefusedCommandChangesOnlyErr :
    ∃ t, commandWrite 0xFFFFFFFF fresh = .next t ∧ t.err ≠ fresh.err :=
  ⟨withErr fresh 0x001, rfl, by decide⟩

theorem witness_ForegroundCommandsBusyWhileSequencing :
    seqActive sequencing = true ∧ Instr.wf .fgIter = true ∧ Instr.fgIter ≠ .nop ∧
      (∀ imm, Instr.fgIter ≠ .tblRead imm) ∧
      (32#12).toNat < sequencing.cfg.n :=
  ⟨by decide, by decide, by decide, (fun _ h => by cases h), by decide⟩

theorem witness_BeforeBootRefusals :
    initDone fresh = false ∧ seqActive fresh = false ∧ (1#32).getLsbD 0 = true ∧
      (2#2).toNat = Phase.p2.toNat ∧ fresh.cfg.present.get .p2 = true ∧
      (fresh.ph.get .p2).chInit = false ∧ (32#12).toNat < fresh.cfg.n ∧
      anyInit fresh = false := by decide

theorem witness_NopIsOneWordWithoutEffect :
    (0x0FFFFFFF#32).toNat / 2 ^ 28 = 0 ∧ 0x0FFFFFFF#32 ≠ 0x00000000#32 := by decide

theorem witness_TableReadReturnsEntry :
    (32#12).toNat < fresh.cfg.n ∧ fresh.cfg.n ≤ (33#12).toNat ∧ 0#12 = 0 ∧
      fresh.cfg.table = Config.tRef33 ∧ 11#12 = 11 ∧
      (0x10001000#32).toNat / 2 ^ 28 = 1 ∧ 0x10001000#32 &&& 0x0FFFF000#32 ≠ 0 := by decide

/-- The parameters with phase 1 absent. -/
def absentParams : Params := { testParams with present := ⟨true, false, true⟩ }

def absentConfig : Config where
  toParams := absentParams
  admitted := by decide

theorem witness_PhaseInitConfiguresChannel :
    seqActive (State.resetOf absentConfig) = false ∧ (1#2).toNat = Phase.p1.toNat ∧
      (State.resetOf absentConfig).cfg.present.get .p1 = false ∧
    seqActive (booted 22 false) = false ∧ (2#2).toNat = Phase.p2.toNat ∧
      (booted 22 false).cfg.present.get .p2 = true ∧ ((booted 22 false).ph.get .p2).chInit = true ∧
    seqActive fresh = false ∧ fresh.cfg.present.get .p2 = true ∧
      (fresh.ph.get .p2).chInit = false := by decide

theorem witness_PhaseApplyConsumesPendingUpdate :
    seqActive (State.resetOf absentConfig) = false ∧ (1#2).toNat = Phase.p1.toNat ∧
      (State.resetOf absentConfig).cfg.present.get .p1 = false ∧
    seqActive fresh = false ∧ (2#2).toNat = Phase.p2.toNat ∧
      fresh.cfg.present.get .p2 = true ∧ (fresh.ph.get .p2).chInit = false ∧
    (∀ b, seqActive (booted 32 b) = false ∧ (booted 32 b).cfg.present.get .p2 = true ∧
      ((booted 32 b).ph.get .p2).chInit = true ∧ ((booted 32 b).ph.get .p2).pending = b ∧
      ((booted 32 b).ph.get .p2).cursor.toNat < (booted 32 b).cfg.n) := by decide

theorem witness_PhaseSetCarrierForwardsArg :
    seqActive (State.resetOf absentConfig) = false ∧ (1#2).toNat = Phase.p1.toNat ∧
      (State.resetOf absentConfig).cfg.present.get .p1 = false ∧
    seqActive fresh = false ∧ (0#2).toNat = Phase.p0.toNat ∧ fresh.cfg.present.get .p0 = true ∧
      (fresh.ph.get .p0).chInit = false ∧
    seqActive (booted 22 false) = false ∧ (booted 22 false).cfg.present.get .p0 = true ∧
      ((booted 22 false).ph.get .p0).chInit = true := by decide

theorem witness_InverterInitStartsEveryChannel :
    let s := answered { Answers.none with order := some 5 } fresh
    seqActive (booted 22 false) = false ∧ anyInit (booted 22 false) = true ∧
      seqActive s = false ∧ anyInit s = false ∧ s.draws.answers.order = some 5 := by decide

theorem witness_EveryDrawnOrderIsAdmitted :
    [Phase.p2, .p1, .p0].Perm Phase.all ∧
      [Task.apply .p2, .apply .p1, .apply .p0, .scaler].Perm fourTasks := by decide

theorem witness_UpdateAppliesFrequencyLaw :
    seqActive fresh = false ∧ initDone fresh = false ∧ seqActive (booted 22 false) = false ∧
      initDone (booted 22 false) = true ∧ 0x8000 < (0x8001#16).toNat ∧
      (0x8000#16).toNat ≤ 0x8000 := by decide

theorem witness_IterationRunsEachTaskOnce :
    let s := answered { Answers.none with order := some 23 } (booted 22 true)
    seqActive fresh = false ∧ initDone fresh = false ∧ seqActive s = false ∧ initDone s = true ∧
      s.draws.answers.order = some 23 := by decide

theorem witness_IterationConsumesEveryPendingFlag :
    seqActive (booted 32 true) = false ∧ initDone (booted 32 true) = true ∧
      (booted 32 true).cfg.present.get .p2 = true := by decide

/-- The same with an absent phase. -/
theorem witness_IterationConsumesEveryPendingFlag_absent :
    let s := { booted 32 true with cfg := absentConfig }
    seqActive s = false ∧ initDone s = true ∧ s.cfg.present.get .p1 = false := by decide

theorem witness_ScalerCheckSamplesWhenDue :
    seqActive fresh = false ∧ initDone fresh = false ∧ seqActive (booted 22 false) = false ∧
      initDone (booted 22 false) = true := by decide

theorem witness_EveryPortAnswerIsAdmitted :
    let s := answered (timeAnswer 1000001) (booted 22 false)
    seqActive s = false ∧ initDone s = true ∧ s.draws.answers.time = some 1000001 ∧
      s.draws.answers.sample = some 2048 ∧ s.nowPrev.toNat ≤ (1000001#64).toNat ∧
      (2048#16).toNat ≤ s.cfg.adcMax ∧
      s.lastT.toNat + s.cfg.samplePeriod.toNat < (1000001#64).toNat := by decide

theorem witness_AdcInitIssuesConfiguration :
    seqActive fresh = false ∧ seqActive sequencing = true ∧
      (0x90000001#32).toNat / 2 ^ 28 = 9 ∧ 0x90000001#32 ≠ 0x90000000#32 := by decide

theorem witness_DutyLawProperties :
    (25600#16).toNat ≤ 25600 ∧ (32768#16).toNat ≤ 32768 ∧
      (0#16).toNat ≤ 25600 ∧ (0#16).toNat ≤ (25600#16).toNat ∧ (0#16).toNat ≤ (32768#16).toNat ∧
      12800 ≤ (12800#16).toNat ∧ (12800#16).toNat ≤ 12800 := by decide

theorem witness_DutyLawMatchesDatapath :
    (0#16).toNat ≤ 25600 ∧ (32768#16).toNat ≤ 32768 := by decide

theorem witness_DutyLawRoundsRealLaw :
    (12801#16).toNat ≤ 25600 ∧ (0x4000#16).toNat ≤ 32768 ∧
      (25601 / 512 : ℚ)
        = (((12801#16).toNat : ℚ) / 256 - 50) * (((0x4000#16).toNat : ℚ) / 32768) + 50 := by
  norm_num

theorem witness_FrequencyLawProperties :
    0 ≤ 32768 ∧ 32768 ≤ 32768 ∧ testConfig.minFreq = 40 ∧ testConfig.maxFreq = 60 ∧
      testConfig.n = 33 := by decide

theorem witness_NormalisationProperties :
    4095 ≤ testConfig.adcMax ∧ 0 ≤ 4095 ∧ testConfig.adcBits = 12 := by decide

theorem witness_EventsLatchTheirBit :
    (drawn [.evPeriod .p2] fresh).draws.turns = ⟨.evPeriod .p2, .none⟩ :: [] ∧
      (drawn [.evForeign 31] fresh).draws.turns = ⟨.evForeign 31, .none⟩ :: [] := by decide

theorem witness_EntryLatchesPendingMask :
    let s := drawn [.isrEntry] { booted 22 false with intSt := 4 }
    let t := drawn [.isrEntry] fresh
    (s.draws.turns = ⟨.isrEntry, .none⟩ :: [] ∧ s.handlerReg = true ∧ s.intSt ≠ 0 ∧
      s.isrActive = false) ∧
    t.draws.turns = ⟨.isrEntry, .none⟩ :: [] ∧
      ¬(t.handlerReg = true ∧ t.intSt ≠ 0 ∧ t.isrActive = false) := by decide

theorem witness_ReturnMarksAndAcknowledges :
    (drawn [.isrMarkAck] interrupted).draws.turns = ⟨.isrMarkAck, .none⟩ :: [] ∧
      (drawn [.isrMarkAck] interrupted).isrActive = true ∧
      (drawn [.isrMarkAck] fresh).draws.turns = ⟨.isrMarkAck, .none⟩ :: [] ∧
      (drawn [.isrMarkAck] fresh).isrActive = false := by decide

theorem witness_PendingFlagHandoff_set :
    let s := drawn [.isrMarkAck] interrupted
    ∃ t, step s = .next t ∧ (s.ph.get .p2).pending = false ∧ (t.ph.get .p2).pending = true :=
  ⟨_, rfl, by decide, by decide⟩

theorem witness_PendingFlagHandoff_clear :
    let s := commanding 0x38000000 (booted 32 true)
    ∃ t, step s = .next t ∧ (s.ph.get .p2).pending = true ∧ (t.ph.get .p2).pending = false :=
  ⟨_, rfl, by decide, by decide⟩

theorem witness_PeriodEventsBoundDuties :
    Inv (drawn [.evPeriod .p1] interrupted) ∧
      ∃ t, Host.Core.run Sys2Proof.core 1 (drawn [.evPeriod .p1] interrupted) = .next t :=
  ⟨drawn_inv interrupted_inv _, _, rfl⟩

theorem witness_MarksCoalesce : (fresh.ph.get .p1).pending = false ∧ 1 ≤ 1 := by decide

theorem witness_TableWalkCloses :
    ((booted 32 false).ph.get .p2).cursor.toNat < (booted 32 false).cfg.n ∧
      (List.replicate 33 0x8000#16).length = (booted 32 false).cfg.n := by decide

theorem witness_SequencerStartsAndRunsTasks :
    let s := drawn [.seqStart] { sequencing with fgTodo := 0 }
    let n := drawn [.seqStart] fresh
    let t := drawn [.seqTask (.apply .p2)] sequencing
    let u := drawn [.seqTask .scaler] sequencing
    let p := booted 32 true
    (p.cfg.present.get .p2 = true ∧ (p.ph.get .p2).pending = true ∧
      (p.ph.get .p2).cursor.toNat < p.cfg.n ∧ (p.ph.get .p0).pending = false ∧
      (State.resetOf absentConfig).cfg.present.get .p1 = false) ∧
    (s.draws.turns = ⟨.seqStart, .none⟩ :: [] ∧ s.runReq = true ∧ s.fgTodo = 0 ∧ s.isrActive = false) ∧
    (n.draws.turns = ⟨.seqStart, .none⟩ :: [] ∧
      ¬(n.runReq = true ∧ n.fgTodo = 0 ∧ n.isrActive = false)) ∧
    ((Task.apply .p2, (3 : Fin 4)) ∈ fourTasks.zip [0, 1, 2, 3] ∧
      t.draws.turns = ⟨.seqTask (.apply .p2), .none⟩ :: [] ∧ t.fgTodo.getLsbD 3 = true ∧
      t.isrActive = false) ∧
    (Task.scaler, (0 : Fin 4)) ∈ fourTasks.zip [0, 1, 2, 3] ∧
      u.draws.turns = ⟨.seqTask .scaler, .none⟩ :: [] ∧
      ¬(u.fgTodo.getLsbD 0 = true ∧ u.isrActive = false) := by decide

theorem witness_ControlWriteRequestsRun :
    (0xFFFFFFFF#32).getLsbD 0 = true ∧ initDone (booted 22 false) = true ∧
      initDone fresh = false ∧ (0xFFFFFFFE#32).getLsbD 0 = false := by decide

theorem witness_RegisterMapIsExact : 255 < 256 ∧ 0 < 256 := by decide

theorem witness_RefusedAccessSetsOnlyBus :
    accessReg 0x00 1 = none ∧ accessReg 0x10 4 = some .cmd ∧
      (accessReg 0x6C 4 = some (.phFlags .p2) ∧ Reg.phFlags .p2 ≠ .cmd ∧
        Reg.phFlags .p2 ≠ .ctrl ∧ Reg.phFlags .p2 ≠ .arg ∧ Reg.phFlags .p2 ≠ .err) ∧
      0xFE % 4 ≠ 0 ∧ 0x70 ≤ 0xFC ∧ 0xFE < 256 := by decide

theorem witness_LiveRegisterReads : regValue fresh (.phCursor .p1) = some 11 := by decide

theorem witness_OnlyOutsideWindowFaults :
    step (withAccess (.read 256 4) fresh) = .fault .outsideWindow ∧
      (fresh.cfg.sdeBase ≤ 255 ∧ 255 < fresh.cfg.sdeBase + 256) ∧
      ¬(fresh.cfg.sdeBase ≤ 256 ∧ 256 < fresh.cfg.sdeBase + 256) :=
  ⟨rfl, by decide, by decide⟩

/-- A step that meets the hypotheses of the statements about every step. -/
theorem witness_ConfigurationFixedLogsGrow :
    ∃ t, step (drawn [.isrMarkAck] interrupted) = .next t := ⟨_, rfl⟩

theorem witness_TimeNeverRunsBackwards :
    ∃ t, step (answering (timeAnswer 1000001) 0x70000000 (booted 22 false)) = .next t := ⟨_, rfl⟩

theorem witness_SamplesAreAPeriodApart :
    let due := answering (timeAnswer 1000001) 0x70000000 (booted 22 false)
    let early := answering (timeAnswer 1000000) 0x70000000 (booted 22 false)
    nextAgent due ≠ .reset ∧ nextAgent early ≠ .reset ∧
      (∃ t, step due = .next t ∧ t.lastT ≠ due.lastT) ∧
      ∃ t, step early = .next t ∧ t.lastT = early.lastT :=
  ⟨by decide, by decide, ⟨_, rfl, by decide⟩, ⟨_, rfl, by decide⟩⟩

theorem witness_CarrierUpdatesAreBalanced :
    let s := commanding 0x60008000 (booted 22 false)
    ∃ t, step s = .next t ∧ nextAgent s ≠ .reset ∧
      (t.scale ≠ s.scale ∨ t.elecFreq ≠ s.elecFreq ∨ t.carrier ≠ s.carrier) ∧
      t.cfg.present.get .p2 = true :=
  ⟨_, rfl, by decide, by decide, by decide⟩

theorem witness_InvocationHoldsForeground :
    let s := drawn [.evPeriod .p0] interrupted
    ∃ t, step s = .next t ∧ s.isrActive = true ∧ nextAgent s ≠ .isrMarkAck ∧
      nextAgent s ≠ .reset :=
  ⟨_, rfl, by decide, by decide, by decide⟩

theorem witness_PendingBitsStayUntilAcknowledged :
    let s := drawn [.isrMarkAck] interrupted
    ∃ t, step s = .next t ∧ s.intSt.getLsbD 2 = true ∧ t.intSt.getLsbD 2 = false :=
  ⟨_, rfl, by decide, by decide⟩

theorem witness_LifecycleFlagsSetByHostClearedByReset :
    let s := answering { Answers.none with order := some 5 } 0x50000000 fresh
    let v := answering .none 0x28000000 fresh
    let u := drawn [.reset] (booted 22 false)
    (∃ t, step s = .next t ∧
      t.handlerReg ≠ s.handlerReg ∧ (t.ph.get .p2).chInit ≠ (s.ph.get .p2).chInit) ∧
    (∃ t, step v = .next t ∧ (t.ph.get .p2).chInit ≠ (v.ph.get .p2).chInit) ∧
    ∃ t, step u = .next t ∧ t.handlerReg ≠ u.handlerReg ∧
      (t.ph.get .p2).chInit ≠ (u.ph.get .p2).chInit :=
  ⟨⟨_, rfl, by decide, by decide⟩, ⟨_, rfl, by decide⟩, ⟨_, rfl, by decide, by decide⟩⟩

theorem witness_AnswersReachTheCommandThatFollows :
    let readers : List (Line × List HostAccess × AgentStep × Option Nat) :=
      [ (.stmt (.cmd .scalerCheck), [commandAccess fresh.cfg 0x70000000#32], .host, none),
        (.stmt (.cmd .fgIter), [commandAccess fresh.cfg 0x80000000#32], .host, none),
        (.fgIter 23, [commandAccess fresh.cfg 0x80000000#32], .host, some 23),
        (.agent (.seqTask .scaler), [], .seqTask .scaler, none) ]
    (Line.fgIter 23, [commandAccess fresh.cfg 0x80000000#32], AgentStep.host, some 23) ∈ readers ∧
      Line.agent (.seqTask .scaler) ∈ readers.map (·.1) ∧
      Instr.invInit ≠ .scalerCheck ∧ Instr.invInit ≠ .fgIter := by decide

theorem witness_OtherLinesAreGivenNoAnswer :
    let c := fresh.cfg
    let readers : List (Line × List HostAccess × AgentStep × Option Nat) :=
      [ (.stmt (.cmd .scalerCheck), [commandAccess c 0x70000000#32], .host, none),
        (.stmt (.cmd .fgIter), [commandAccess c 0x80000000#32], .host, none),
        (.fgIter 23, [commandAccess c 0x80000000#32], .host, some 23),
        (.agent (.seqTask .scaler), [], .seqTask .scaler, none) ]
    OtherLine c (.agent (.evPeriod .p0)) [] [.evPeriod .p0] ∧
      OtherLine c .isr [] [.isrEntry, .isrMarkAck] ∧
      OtherLine c (.stmt (.cmd .invInit)) [commandAccess c 0x50000000#32] [.host] ∧
      OtherLine c (.stmt (.rd .status)) [.read (c.sdeBase + 0x08) 4] [.host] ∧
      OtherLine c (.stmt (.wr .arg 7)) [.write (c.sdeBase + 0x14) 4 7] [.host] ∧
      OtherLine c (.stmt (.wr .cmd 0xA0000000)) [commandAccess c 0xA0000000#32] [.host] ∧
      OtherLine c (.stmt (.pseudo .start)) [.write (c.sdeBase + 0x0C) 4 1] [.host] ∧
      (Line.fgIter 23, [commandAccess c 0x80000000#32], AgentStep.host, some 23) ∈ readers ∧
      decode 0x70000000 = .ok .scalerCheck :=
  ⟨.agent _ (by decide), .isr, .command _ (by decide), .read _, .write _ _ (by decide),
    .refused _ .illegalOp (by decide), .pseudo _, by decide, by decide⟩

theorem witness_OnlyHostRaisesErrors :
    let s := drawn [.isrEntry] { booted 22 false with intSt := 1, err := 0x1FF }
    ∃ t, step s = .next t ∧ nextAgent s ≠ .host ∧ nextAgent s ≠ .reset :=
  ⟨_, rfl, by decide, by decide⟩

/-! An infinite execution in which the engine's return is weakly fair: it is drawn first, and nothing
is enabled afterwards but the host, which is idle, and reset. -/

/-- Nothing but reset can change a state with no accesses, no source and no task. -/
def Quiet (s : State) : Prop :=
  s.hostProg = [] ∧ s.intSt = 0 ∧ s.isrActive = false ∧ s.started = .const false ∧
    s.cfg.foreignMask = 0 ∧ s.fgTodo = 0 ∧ s.runReq = false

theorem quiet_step {s : State} (h : Quiet s) : ∃ t, step s = .next t ∧ Quiet t := by
  obtain ⟨hp, hi, ha, hs, hf, ht, hr⟩ := h
  have hidle : Quiet (tookTurn s) := ⟨hp, hi, ha, hs, hf, ht, hr⟩
  rw [step]
  cases nextAgent s with
  | host =>
    exact ⟨tookTurn s, by simp [agentStep, enabled, takeStep, hostStep, tookTurn, hp], hidle⟩
  | seqStart => exact ⟨tookTurn s, by simp [agentStep, enabled, tookTurn, hr], hidle⟩
  | seqTask t => exact ⟨tookTurn s, by simp [agentStep, enabled, taskToDo, tookTurn, ht], hidle⟩
  | isrEntry => exact ⟨tookTurn s, by simp [agentStep, enabled, irq, tookTurn, hi], hidle⟩
  | isrMarkAck => exact ⟨tookTurn s, by simp [agentStep, enabled, tookTurn, ha], hidle⟩
  | evPeriod k =>
    refine ⟨tookTurn s, ?_, hidle⟩
    cases k <;> simp [agentStep, enabled, tookTurn, hs, PerPhase.const, PerPhase.get]
  | evForeign b => exact ⟨tookTurn s, by simp [agentStep, enabled, tookTurn, hf], hidle⟩
  | reset => exact ⟨resetBlock (tookTurn s), rfl, hp, hi, rfl, hs, hf, rfl, rfl⟩

/-- The state the execution starts in: an invocation in progress, its return drawn. -/
def returning : State :=
  drawn [.isrMarkAck] { fresh with handlerReg := true, isrActive := true, isrM := 1, intSt := 1 }

/-- The execution: each state the step of the one before. -/
def fairRun : Nat → State
  | 0 => returning
  | n + 1 => (after (fairRun n)).getD (fairRun n)

theorem fairRun_step (n : Nat) :
    step (fairRun n) = .next (fairRun (n + 1)) ∧ Quiet (fairRun (n + 1)) := by
  induction n with
  | zero => exact ⟨rfl, rfl, by decide, rfl, rfl, by decide, rfl, rfl⟩
  | succ n ih =>
    obtain ⟨t, ht, hq⟩ := quiet_step ih.2
    have he : fairRun (n + 2) = t := by
      show (after (fairRun (n + 1))).getD (fairRun (n + 1)) = t
      rw [after, ht]
      rfl
    rw [he]
    exact ⟨ht, hq⟩

theorem witness_FairInvocationsEnd :
    Execution fairRun ∧ WeaklyFair .isrMarkAck fairRun ∧ (fairRun 0).isrActive = true := by
  refine ⟨fun n => (fairRun_step n).1, fun n h => ?_, rfl⟩
  have h1 := h (n + 1) (by omega)
  rw [enabled, (fairRun_step n).2.2.2.1] at h1
  cases h1

end Sys2Proof.Tests
end

section
/-! Proofs. The frames: what foreground work and every step leave unchanged, said once per operation. -/

namespace Sys2Proof.Machine

/-! ### What a command and a task keep -/

/-- What every command keeps: the configuration, the interrupt engine's latch and the unit's pending
bits; the logs and the time only go forward, and no pending flag is set (10_state.md R21, R43,
20_memory.md R76, R79). -/
structure CommandFrame (s t : State) : Prop where
  cfg : t.cfg = s.cfg
  isrActive : t.isrActive = s.isrActive
  isrM : t.isrM = s.isrM
  intSt : t.intSt = s.intSt
  pwmLog : s.pwmLog <+: t.pwmLog
  adcLog : s.adcLog <+: t.adcLog
  nowPrev : s.nowPrev.toNat ≤ t.nowPrev.toNat
  pending : ∀ k, (t.ph.get k).pending = true → (s.ph.get k).pending = true

/-- What a task of the foreground loop keeps besides: the lifecycle flags, the sequencer's registers and
the errors (42_inverter.md R145). -/
structure TaskFrame (s t : State) : Prop extends CommandFrame s t where
  handlerReg : t.handlerReg = s.handlerReg
  chInit : ∀ k, (t.ph.get k).chInit = (s.ph.get k).chInit
  fgTodo : t.fgTodo = s.fgTodo
  runReq : t.runReq = s.runReq
  err : t.err = s.err

theorem CommandFrame.refl (s : State) : CommandFrame s s :=
  ⟨rfl, rfl, rfl, rfl, List.prefix_rfl, List.prefix_rfl, le_rfl, fun _ h => h⟩

theorem CommandFrame.trans {s t u : State} (h : CommandFrame s t) (g : CommandFrame t u) :
    CommandFrame s u where
  cfg := g.cfg.trans h.cfg
  isrActive := g.isrActive.trans h.isrActive
  isrM := g.isrM.trans h.isrM
  intSt := g.intSt.trans h.intSt
  pwmLog := h.pwmLog.trans g.pwmLog
  adcLog := h.adcLog.trans g.adcLog
  nowPrev := h.nowPrev.trans g.nowPrev
  pending k hk := h.pending k (g.pending k hk)

theorem TaskFrame.refl (s : State) : TaskFrame s s :=
  ⟨.refl s, rfl, fun _ => rfl, rfl, rfl, rfl⟩

theorem TaskFrame.trans {s t u : State} (h : TaskFrame s t) (g : TaskFrame t u) :
    TaskFrame s u where
  toCommandFrame := h.toCommandFrame.trans g.toCommandFrame
  handlerReg := g.handlerReg.trans h.handlerReg
  chInit k := (g.chInit k).trans (h.chInit k)
  fgTodo := g.fgTodo.trans h.fgTodo
  runReq := g.runReq.trans h.runReq
  err := g.err.trans h.err

/-- A field that an update of one copy does not change is unchanged in every copy. -/
theorem field_get_set {α β : Type} (field : α → β) {r : PerPhase α} {k : Phase} {v : α}
    (h : field v = field (r.get k)) (j : Phase) : field ((r.set k v).get j) = field (r.get j) := by
  rw [perPhase_get_set]
  split
  · subst j; exact h
  · rfl

/-! ### The operations of the foreground -/

theorem setCarrier_taskFrame (k : Phase) (hz : Word) (s : State) :
    TaskFrame s (setCarrier k hz s) := by
  rw [setCarrier_eq]
  exact { TaskFrame.refl s with
    pwmLog := List.prefix_append _ _
    pending := fun j => (field_get_set PhaseRegs.pending (by rfl) j).symm.trans
    chInit := field_get_set PhaseRegs.chInit rfl }

/-- The carrier of `UpdateFS` is no flag of a phase (42_inverter.md R143). -/
theorem withCarrier_flags (c : Config) (hz : Word) (r : PerPhase PhaseRegs) (k : Phase) :
    ((withCarrier c hz r).get k).pending = (r.get k).pending ∧
      ((withCarrier c hz r).get k).chInit = (r.get k).chInit := by
  rw [withCarrier_get]
  split <;> exact ⟨rfl, rfl⟩

theorem updateFs_taskFrame (sc : BitVec 16) (s : State) : TaskFrame s (updateFs sc s) := by
  rw [updateFs_eq]
  exact { TaskFrame.refl s with
    pwmLog := List.prefix_append _ _
    pending := fun k => (withCarrier_flags _ _ _ k).1.symm.trans
    chInit := fun k => (withCarrier_flags _ _ _ k).2 }

theorem applyProc_taskFrame (k : Phase) (s : State) : TaskFrame s (applyProc k s) := by
  cases hk : (s.ph.get k).pending
  · rw [applyProc_of_clear hk]
    exact .refl s
  · rw [applyProc_of_pending hk]
    refine { TaskFrame.refl s with
      pwmLog := List.prefix_append _ _
      pending := fun j => ?_
      chInit := field_get_set PhaseRegs.chInit rfl }
    rw [perPhase_get_set]
    split
    · exact fun h => absurd h Bool.false_ne_true
    · exact id

/-- `Apply(k)` changes the pending flag of no other phase (41_phase_channel.md R125). -/
theorem applyProc_pending_of_ne {j k : Phase} (h : j ≠ k) (s : State) :
    ((applyProc k s).ph.get j).pending = (s.ph.get j).pending := by
  cases hk : (s.ph.get k).pending
  · rw [applyProc_of_clear hk]
  · rw [applyProc_of_pending hk, perPhase_get_set_of_ne _ _ h]

theorem tookTime_taskFrame (s : State) : TaskFrame s (tookTime s) :=
  { TaskFrame.refl s with nowPrev := nextTime_ge s }

theorem takeSample_taskFrame (s : State) : TaskFrame s (takeSample s) := by
  rw [takeSample_eq]
  refine .trans ?_ (updateFs_taskFrame _ _)
  exact { TaskFrame.refl s with adcLog := List.prefix_append _ _ }

theorem scalerCheck_taskFrame (s : State) : TaskFrame s (scalerCheck s) := by
  rcases scalerCheck_cases s with ⟨_, h⟩ | ⟨_, h⟩ <;> rw [h]
  · exact (tookTime_taskFrame s).trans (takeSample_taskFrame _)
  · exact tookTime_taskFrame s

theorem runTask_apply (s : State) (k : Phase) :
    runTask s (.apply k) = if s.cfg.present.get k then applyProc k s else s := rfl

theorem runTask_taskFrame (s : State) (t : Task) : TaskFrame s (runTask s t) := by
  cases t with
  | scaler => exact scalerCheck_taskFrame s
  | apply k =>
    rw [runTask_apply]
    split
    · exact applyProc_taskFrame k s
    · exact .refl s

theorem fgIterProc_taskFrame (s : State) : TaskFrame s (fgIterProc s) :=
  List.foldlRecOn (motive := TaskFrame s) _ _ { TaskFrame.refl s with }
    fun u hu task _ => hu.trans (runTask_taskFrame u task)

theorem adcInitProc_taskFrame (s : State) : TaskFrame s (adcInitProc s) :=
  { TaskFrame.refl s with
    adcLog := (List.prefix_append _ _).trans (List.prefix_append _ _) }

theorem phInitProc_commandFrame (k : Phase) (s : State) : CommandFrame s (phInitProc k s) := by
  rw [phInitProc_eq]
  exact { CommandFrame.refl s with
    pwmLog := List.prefix_append _ _
    pending := fun j => (field_get_set PhaseRegs.pending (by rfl) j).symm.trans }

/-- The channel inits of an `INV_INIT`, before the handler is registered (42_inverter.md R140). -/
def channelInits (s : State) : State :=
  ((initOrder (nextOrder s)).filter fun k => s.cfg.present.get k).foldl
    (fun s k => phInitProc k s) (tookOrder s)

theorem channelInits_commandFrame (s : State) : CommandFrame s (channelInits s) :=
  List.foldlRecOn (motive := CommandFrame s) _ _ { CommandFrame.refl s with }
    fun u hu k _ => hu.trans (phInitProc_commandFrame k u)

/-- `InvInit()`: the channel inits, then the handler (42_inverter.md R140). -/
theorem invInitProc_eq (s : State) :
    invInitProc s = { channelInits s with
      pwmLog := (channelInits s).pwmLog ++ [.registerHandler s.cfg.unit]
      handlerReg := true } := by
  rw [← (channelInits_commandFrame s).cfg]
  rfl

theorem invInitProc_commandFrame (s : State) : CommandFrame s (invInitProc s) := by
  rw [invInitProc_eq]
  refine (channelInits_commandFrame s).trans ?_
  exact { CommandFrame.refl (channelInits s) with pwmLog := List.prefix_append _ _ }

/-! ### Commands, accesses and steps -/

theorem CommandEffect.frame {s t : State} (h : CommandEffect s t) : CommandFrame s t := by
  cases h with
  | same => exact .refl s
  | refused => exact { CommandFrame.refl s with }
  | tableRead => exact { CommandFrame.refl s with }
  | channelInit k => exact phInitProc_commandFrame k s
  | applied k => exact (applyProc_taskFrame k s).toCommandFrame
  | carrierSet k hz => exact (setCarrier_taskFrame k hz s).toCommandFrame
  | inverterInit => exact invInitProc_commandFrame s
  | updated sc => exact (updateFs_taskFrame sc s).toCommandFrame
  | scaled => exact (scalerCheck_taskFrame s).toCommandFrame
  | iterated => exact (fgIterProc_taskFrame s).toCommandFrame
  | adcConfigured => exact (adcInitProc_taskFrame s).toCommandFrame

/-- An access that runs no command changes no phase register, no lifecycle flag and no port log. -/
theorem AccessEffect.frame {s t : State} (h : AccessEffect s t) :
    CommandFrame s t ∧ t.ph = s.ph ∧ t.handlerReg = s.handlerReg := by
  cases h <;> exact ⟨{ CommandFrame.refl s with }, rfl, rfl⟩

/-- A task of the sequencer: the task, and its bit of `FG_TODO` cleared (42_inverter.md R148). -/
theorem seqTask_commandFrame (task : Task) (s : State) : CommandFrame s (seqTask task s) :=
  { (runTask_taskFrame s task).toCommandFrame with }

/-- What every step keeps: the configuration; the logs and the time only go forward (10_state.md R21,
R42, R43, R46). -/
structure StepFrame (s t : State) : Prop where
  cfg : t.cfg = s.cfg
  pwmLog : s.pwmLog <+: t.pwmLog
  adcLog : s.adcLog <+: t.adcLog
  nowPrev : s.nowPrev.toNat ≤ t.nowPrev.toNat

theorem StepFrame.refl (s : State) : StepFrame s s := ⟨rfl, List.prefix_rfl, List.prefix_rfl, le_rfl⟩

theorem CommandFrame.stepFrame {s t : State} (h : CommandFrame s t) : StepFrame s t :=
  ⟨h.cfg, h.pwmLog, h.adcLog, h.nowPrev⟩

theorem StepEffect.frame {s t : State} {a : AgentStep} (h : StepEffect s a t) : StepFrame s t := by
  cases h with
  | idle => exact .refl s
  | command _ _ _ _ _ he => exact { he.frame.stepFrame with }
  | access _ _ _ he => exact { he.frame.1.stepFrame with }
  | seqStart => exact { StepFrame.refl s with }
  | seqTask task => exact (seqTask_commandFrame task s).stepFrame
  | isrEntry =>
    rw [isrEntry_eq]
    exact { StepFrame.refl s with pwmLog := List.prefix_append _ _ }
  | isrMarkAck =>
    rw [isrMarkAck_eq]
    exact { StepFrame.refl s with pwmLog := List.prefix_append _ _ }
  | evPeriod => exact { StepFrame.refl s with }
  | evForeign => exact { StepFrame.refl s with }
  | reset => exact { StepFrame.refl s with }

theorem step_frame {s t : State} (h : step s = .next t) : StepFrame s t :=
  { (step_effect h).frame with }

/-! ### The statements -/

/-- Settles O48: the frame of every step. -/
theorem configurationFixedLogsGrow : Obligations.ConfigurationFixedLogsGrow := fun _ _ h =>
  have hf := step_frame h
  ⟨hf.cfg, hf.pwmLog, hf.adcLog⟩

/-- Settles O49: the frame of every step. -/
theorem timeNeverRunsBackwards : Obligations.TimeNeverRunsBackwards := fun _ _ h =>
  (step_frame h).nowPrev

/-- Settles O55: a step of another agent is a task of the sequencer, which keeps `ERR`, or one that
touches no error bit at all. -/
theorem onlyHostRaisesErrors : Obligations.OnlyHostRaisesErrors := by
  intro s t h hhost hreset
  have he := step_effect h
  generalize nextAgent s = a at he hhost hreset
  cases he with
  | idle => rfl
  | command => exact absurd rfl hhost
  | access => exact absurd rfl hhost
  | seqTask task => exact (runTask_taskFrame (tookTurn s) task).err
  | isrMarkAck => rw [isrMarkAck_eq]; rfl
  | reset => exact absurd rfl hreset
  | seqStart => rfl
  | isrEntry => rfl
  | evPeriod => rfl
  | evForeign => rfl

/-- Only the return of the engine sets a pending flag, and only of a latched phase
(43_completion_handler.md R166). -/
theorem StepEffect.pending_set {s t : State} {a : AgentStep} {k : Phase} (h : StepEffect s a t)
    (hs : (s.ph.get k).pending = false) (ht : (t.ph.get k).pending = true) :
    a = .isrMarkAck ∧ s.isrActive = true ∧ irqBitSet s s.isrM k = true := by
  have hkeep : ∀ {u : State}, CommandFrame u t → u.ph = s.ph → False := by
    intro u hu hph
    have hu' := hu.pending k ht
    rw [hph, hs] at hu'
    cases hu'
  cases h with
  | isrMarkAck hi =>
    rw [isrMarkAck_eq, withMarks_get] at ht
    exact ⟨rfl, hi, by simpa [hs] using ht⟩
  | command _ _ _ _ _ he => exact (hkeep he.frame rfl).elim
  | access _ _ _ he => exact (hkeep he.frame.1 rfl).elim
  | seqTask task => exact (hkeep (seqTask_commandFrame task s) rfl).elim
  | isrEntry => simp [isrEntry_eq, hs] at ht
  | reset => cases k <;> cases ht
  | idle => simp [hs] at ht
  | seqStart => simp [hs] at ht
  | evPeriod => simp [hs] at ht
  | evForeign => simp [hs] at ht

/-- A scaler check touches no pending flag (44_analog_scaler.md R176). -/
theorem scalerCheck_pending (s : State) (k : Phase) :
    ((scalerCheck s).ph.get k).pending = (s.ph.get k).pending := by
  rcases scalerCheck_cases s with ⟨_, h⟩ | ⟨_, h⟩ <;> rw [h]
  · rw [takeSample_eq, updateFs_eq]
    exact (withCarrier_flags _ _ _ k).1
  · rfl

/-- Only the task of phase `k`'s apply clears its flag (42_inverter.md R145). -/
theorem runTask_pending_of_ne {task : Task} {k : Phase} (h : task ≠ .apply k) (s : State) :
    ((runTask s task).ph.get k).pending = (s.ph.get k).pending := by
  cases task with
  | scaler => exact scalerCheck_pending s k
  | apply j =>
    rw [runTask_apply]
    split
    · exact applyProc_pending_of_ne (fun hkj => h (congrArg _ hkj.symm)) s
    · rfl

/-- Only the foreground, with no invocation in progress, clears a pending flag, or reset (10_state.md
R24). -/
theorem StepEffect.pending_cleared {s t : State} {a : AgentStep} {k : Phase} (h : StepEffect s a t)
    (hs : (s.ph.get k).pending = true) (ht : (t.ph.get k).pending = false) :
    (s.isrActive = false ∧ (a = .host ∨ a = .seqTask (.apply k))) ∨ a = .reset := by
  cases h with
  | command _ _ _ hi => exact .inl ⟨hi, .inl rfl⟩
  | access _ _ _ he =>
    rw [he.frame.2.1] at ht
    simp [hs] at ht
  | seqTask task _ hi =>
    refine .inl ⟨hi, .inr (congrArg _ (by_contra fun hne => ?_))⟩
    have hkeep := runTask_pending_of_ne hne s
    exact Bool.false_ne_true (ht.symm.trans (hkeep.trans hs))
  | isrMarkAck => simp [isrMarkAck_eq, withMarks_get, hs] at ht
  | reset => exact .inr rfl
  | idle => simp [hs] at ht
  | seqStart => simp [hs] at ht
  | isrEntry => simp [isrEntry_eq, hs] at ht
  | evPeriod => simp [hs] at ht
  | evForeign => simp [hs] at ht

/-- Settles O37: a flag is set by the engine's return, and cleared by the foreground or by reset. -/
theorem pendingFlagHandoff : Obligations.PendingFlagHandoff := fun _ _ _ h =>
  ⟨(step_effect h).pending_set, (step_effect h).pending_cleared⟩

end Sys2Proof.Machine
end

section
/-! Proofs. Every step keeps the invariant: one lemma per operation, then the cases of a command, an
access and a step. -/

namespace Sys2Proof.Machine

/-! ### Pieces of the invariant -/

/-- The invariant speaks of no error, operand or result register and of none of the model's own inputs:
a state that differs in these alone meets it too. -/
theorem Inv.of_bookkeeping {s t : State} (h : Inv s)
    (ht : t = { s with
      arg := t.arg, result := t.result, err := t.err
      hostProg := t.hostProg, hostReads := t.hostReads, draws := t.draws }) : Inv t := by
  rw [ht]
  exact { h with phases := fun k => { h.phases k with } }

/-- Channels initialised stay so when no initialised channel is lost (10_state.md R40). -/
theorem channelsInit_mono {s t : State} (hc : t.cfg = s.cfg)
    (hk : ∀ k, (s.ph.get k).chInit = true → (t.ph.get k).chInit = true)
    (h : channelsInit s = true) : channelsInit t = true := by
  rw [channelsInit_iff] at h ⊢
  rw [hc]
  exact fun k hp => hk k (h k hp)

theorem initDone_iff (s : State) :
    initDone s = true ↔ s.handlerReg = true ∧ channelsInit s = true := by
  simp [initDone]

theorem seqActive_iff (s : State) : seqActive s = true ↔ s.runReq = true ∨ s.fgTodo ≠ 0 := by
  simp [seqActive]

theorem irq_iff (s : State) : irq s = true ↔ s.handlerReg = true ∧ s.intSt ≠ 0 := by
  simp [irq]

/-- Phase `k`'s part of the invariant, said of the value of its registers. -/
theorem PhaseInv.of_regs {t : State} {k : Phase} {r : PhaseRegs} (hr : t.ph.get k = r)
    (hcursor : r.cursor.toNat < t.cfg.n) (hduty : r.duty.toNat ≤ 25600)
    (hpresent : r.chInit = true → t.cfg.present.get k = true)
    (hrunning : r.chInit = true → t.started.get k = true ∧ t.ena.get k = true)
    (hpending : r.pending = true → t.handlerReg = true) : PhaseInv t k := by
  subst hr
  exact ⟨hcursor, hduty, hpresent, hrunning, hpending⟩

/-- A phase of which at most the frequency changes keeps its part of the invariant. -/
theorem PhaseInv.of_freq {s t : State} {k : Phase} {hz : Word} (h : PhaseInv s k)
    (hr : t.ph.get k = { s.ph.get k with freq := hz }) (hc : t.cfg = s.cfg)
    (hs : t.started.get k = s.started.get k) (he : t.ena.get k = s.ena.get k)
    (hh : s.handlerReg = true → t.handlerReg = true) : PhaseInv t k :=
  .of_regs hr (hc ▸ h.cursor_lt) h.duty_le (hc ▸ h.init_present)
    (hs ▸ he ▸ h.init_running) fun hp => hh (h.pending_handled hp)

/-- An operation on the phases' registers that sends PWM transactions keeps the invariant if it keeps
each phase's part, loses no initialised channel and sends legal transactions. -/
theorem Inv.of_phases {s t : State} (h : Inv s)
    (ht : t = { s with ph := t.ph, started := t.started, ena := t.ena, pwmLog := t.pwmLog })
    (hphases : ∀ k, PhaseInv t k)
    (hinit : ∀ k, (s.ph.get k).chInit = true → (t.ph.get k).chInit = true)
    (hlegal : ∀ tx ∈ t.pwmLog, legalTx s.cfg tx) : Inv t := by
  have hci := channelsInit_mono (by rw [ht]) hinit
  rw [ht] at hphases hci ⊢
  exact { h with
    phases := hphases
    handler_init := fun hh => hci (h.handler_init hh)
    seq_init := fun ha =>
      have hd := (initDone_iff s).mp (h.seq_init ha)
      (initDone_iff _).mpr ⟨hd.1, hci hd.2⟩
    pwm_legal := hlegal }

/-- A log of legal transactions with legal ones appended. -/
theorem Inv.legal_append {s : State} (h : Inv s) {txs : List PwmTx}
    (ht : ∀ tx ∈ txs, legalTx s.cfg tx) : ∀ tx ∈ s.pwmLog ++ txs, legalTx s.cfg tx :=
  List.forall_mem_append.mpr ⟨h.pwm_legal, ht⟩

/-! ### The operations of the foreground -/

/-- The duty of the next apply is a legal percentage (41_phase_channel.md R123). -/
theorem nextDuty_le {s : State} (h : Inv s) (k : Phase) : (nextDuty s k).toNat ≤ 25600 :=
  dutyLaw_le (tableAt_le _ _) h.scale_le

theorem applyProc_inv {s : State} (h : Inv s) (k : Phase) : Inv (applyProc k s) := by
  cases hk : (s.ph.get k).pending
  · rwa [applyProc_of_clear hk]
  have hduty := nextDuty_le h k
  have hinit := (applyProc_taskFrame k s).chInit
  rw [applyProc_of_pending hk] at hinit ⊢
  refine h.of_phases rfl (fun j => ?_) (fun j => (hinit j).trans) (h.legal_append ?_)
  · by_cases hj : j = k
    · subst j
      exact .of_regs (perPhase_get_set_same _ _ _) (cursorNext_lt _ _) hduty
        (h.phases k).init_present (h.phases k).init_running fun hp => absurd hp Bool.false_ne_true
    · exact (h.phases j).of_freq (perPhase_get_set_of_ne _ _ hj) rfl rfl rfl id
  · exact List.forall_mem_singleton.mpr ⟨rfl, ⟨k, rfl⟩, rfl, hduty⟩

theorem setCarrier_inv {s : State} (h : Inv s) (k : Phase) (hz : Word) : Inv (setCarrier k hz s) := by
  have hinit := (setCarrier_taskFrame k hz s).chInit
  rw [setCarrier_eq] at hinit ⊢
  refine h.of_phases rfl (fun j => ?_) (fun j => (hinit j).trans) (h.legal_append ?_)
  · by_cases hj : j = k
    · subst j
      exact (h.phases k).of_freq (perPhase_get_set_same _ _ _) rfl rfl rfl id
    · exact (h.phases j).of_freq (perPhase_get_set_of_ne _ _ hj) rfl rfl rfl id
  · exact List.forall_mem_singleton.mpr rfl

/-- A legal scale with the frequencies its laws give (42_inverter.md R141, R142). -/
theorem Inv.with_scale {s : State} (h : Inv s) {sc : BitVec 16} (hs : sc.toNat ≤ 0x8000) :
    Inv { s with
      scale := sc
      elecFreq := elecLaw s.cfg.toParams sc.toNat
      carrier := carrierLaw s.cfg.toParams sc.toNat } := by
  obtain ⟨_, hlo, hhi⟩ := elecLaw_toNat s.cfg hs
  exact { h with
    phases := fun k => { h.phases k with }
    scale_le := hs
    carrier_eq := carrierOf_toNat s.cfg hhi
    elec_range := .inr ⟨hlo, hhi⟩ }

theorem updateFs_inv {s : State} (h : Inv s) {sc : BitVec 16} (hs : sc.toNat ≤ 0x8000) :
    Inv (updateFs sc s) := by
  rw [updateFs_eq]
  refine (h.with_scale hs).of_phases rfl (fun k => ?_)
    (fun k => (withCarrier_flags _ _ _ k).2.trans) (h.legal_append ?_)
  · by_cases hp : s.cfg.present.get k = true
    · exact (h.phases k).of_freq ((withCarrier_get _ _ _ k).trans (if_pos hp)) rfl rfl rfl id
    · exact (h.phases k).of_freq ((withCarrier_get _ _ _ k).trans (if_neg hp)) rfl rfl rfl id
  · exact List.forall_mem_map.mpr fun _ _ => rfl

theorem tookTime_inv {s : State} (h : Inv s) : Inv (tookTime s) :=
  { h with
    phases := fun k => { h.phases k with }
    last_le := h.last_le.trans (nextTime_ge s)
    init_le := h.init_le.trans (nextTime_ge s) }

/-- A sample lies within `[0, ADC_MAX]`, so its scale is legal (44_analog_scaler.md R175). -/
theorem takeSample_inv {s : State} (h : Inv s) : Inv (takeSample s) := by
  have hraw := nextSample_le s
  rw [takeSample_eq]
  refine updateFs_inv ?_ (norm_toNat s.cfg hraw).2
  exact { h with
    phases := fun k => { h.phases k with }
    last_le := le_rfl
    adc_legal := List.forall_mem_append.mpr ⟨h.adc_legal, List.forall_mem_singleton.mpr hraw⟩ }

theorem scalerCheck_inv {s : State} (h : Inv s) : Inv (scalerCheck s) := by
  rcases scalerCheck_cases s with ⟨_, hc⟩ | ⟨_, hc⟩ <;> rw [hc]
  · exact takeSample_inv (tookTime_inv h)
  · exact tookTime_inv h

theorem runTask_inv {s : State} (h : Inv s) (task : Task) : Inv (runTask s task) := by
  cases task with
  | scaler => exact scalerCheck_inv h
  | apply k =>
    rw [runTask_apply]
    split
    · exact applyProc_inv h k
    · exact h

theorem fgIterProc_inv {s : State} (h : Inv s) : Inv (fgIterProc s) :=
  List.foldlRecOn (motive := Inv) _ _ (h.of_bookkeeping rfl) fun _ hu task _ => runTask_inv hu task

theorem adcInitProc_inv {s : State} (h : Inv s) : Inv (adcInitProc s) :=
  { h with
    phases := fun k => { h.phases k with }
    adc_legal := List.forall_mem_append.mpr ⟨List.forall_mem_append.mpr
      ⟨h.adc_legal, List.forall_mem_singleton.mpr trivial⟩, List.forall_mem_singleton.mpr trivial⟩ }

/-! ### Initialisation -/

/-- The transactions of a channel's init name the unit (41_phase_channel.md R120). -/
theorem phInitTxs_legal (c : Config) (k : Phase) : ∀ tx ∈ phInitTxs c k, legalTx c tx := by
  simp [phInitTxs, legalTx]

theorem phInitProc_chInit (j k : Phase) (s : State) :
    ((phInitProc k s).ph.get j).chInit = (decide (j = k) || (s.ph.get j).chInit) := by
  rw [phInitProc_eq, perPhase_get_set]
  by_cases hj : j = k <;> simp [hj]

theorem phInitProc_inv {s : State} (h : Inv s) {k : Phase} (hp : s.cfg.present.get k = true) :
    Inv (phInitProc k s) := by
  have hinit : ∀ j, (s.ph.get j).chInit = true → ((phInitProc k s).ph.get j).chInit = true :=
    fun j hj => by rw [phInitProc_chInit, hj, Bool.or_true]
  rw [phInitProc_eq] at hinit ⊢
  refine h.of_phases rfl (fun j => ?_) hinit (h.legal_append (phInitTxs_legal _ _))
  by_cases hj : j = k
  · subst j
    exact .of_regs (perPhase_get_set_same _ _ _) (h.phases k).cursor_lt (Nat.zero_le _)
      (fun _ => hp) (fun _ => ⟨perPhase_get_set_same _ _ _, perPhase_get_set_same _ _ _⟩)
      (h.phases k).pending_handled
  · exact (h.phases j).of_freq (perPhase_get_set_of_ne _ _ hj) rfl
      (perPhase_get_set_of_ne _ _ hj) (perPhase_get_set_of_ne _ _ hj) id

/-- The channels that a list of inits leaves initialised: those of the list, and those that were. -/
theorem foldl_phInitProc_chInit (ks : List Phase) (s : State) (j : Phase) :
    ((ks.foldl (fun s k => phInitProc k s) s).ph.get j).chInit
      = (decide (j ∈ ks) || (s.ph.get j).chInit) := by
  induction ks generalizing s with
  | nil => simp
  | cons k ks ih =>
    rw [List.foldl_cons, ih, phInitProc_chInit]
    by_cases hj : j = k <;> simp [hj]

/-- Every phase comes up in the order drawn for `INV_INIT` (42_inverter.md R140). -/
theorem mem_initOrder (d : Nat) (k : Phase) : k ∈ initOrder d := by
  have h0 := (insertAt_perm Phase.p0 (d % 3) (insertAt .p1 (d / 3 % 2) [.p2])).mem_iff (a := k)
  have h1 := (insertAt_perm Phase.p1 (d / 3 % 2) [.p2]).mem_iff (a := k)
  rw [initOrder, h0, List.mem_cons, h1]
  cases k <;> simp

/-- The channel inits of an `INV_INIT` initialise exactly the channels that exist (42_inverter.md
R140). -/
theorem channelInits_chInit (s : State) (k : Phase) :
    ((channelInits s).ph.get k).chInit = (s.cfg.present.get k || (s.ph.get k).chInit) := by
  rw [channelInits, foldl_phInitProc_chInit]
  simp [mem_initOrder]

theorem channelInits_channelsInit (s : State) : channelsInit (channelInits s) = true := by
  rw [channelsInit_iff, (channelInits_commandFrame s).cfg]
  exact fun k hp => by rw [channelInits_chInit, hp, Bool.true_or]

theorem channelInits_inv {s : State} (h : Inv s) : Inv (channelInits s) := by
  have hboth : Inv (channelInits s) ∧ (channelInits s).cfg = s.cfg := by
    refine List.foldlRecOn (motive := fun u => Inv u ∧ u.cfg = s.cfg) _ _
      ⟨h.of_bookkeeping rfl, rfl⟩ fun u hu k hk => ?_
    have hp : u.cfg.present.get k = true := hu.2 ▸ (List.mem_filter.mp hk).2
    exact ⟨phInitProc_inv hu.1 hp, (phInitProc_commandFrame k u).cfg.trans hu.2⟩
  exact hboth.1

/-- The handler is registered on a block whose channels are all initialised (42_inverter.md R140). -/
theorem invInitProc_inv {s : State} (h : Inv s) : Inv (invInitProc s) := by
  have hi := channelInits_inv h
  have hc := channelInits_channelsInit s
  rw [invInitProc_eq, ← (channelInits_commandFrame s).cfg]
  exact { hi with
    phases := fun k => { hi.phases k with pending_handled := fun _ => rfl }
    handler_init := fun _ => hc
    seq_init := fun _ => (initDone_iff _).mpr ⟨rfl, hc⟩
    isr_handled := fun _ => rfl
    pwm_legal := hi.legal_append (List.forall_mem_singleton.mpr rfl) }

/-! ### Interrupt masks -/

/-- A mask with no bit outside another, bit by bit. -/
theorem mask_subset_iff {m n : Word} :
    m &&& ~~~n = 0 ↔ ∀ i, m.getLsbD i = true → n.getLsbD i = true := by
  constructor
  · intro h i hi
    have hb := congrArg (·.getLsbD i) h
    have hlt := BitVec.lt_of_getLsbD hi
    simpa [hi, hlt] using hb
  · intro h
    refine BitVec.eq_of_getLsbD_eq fun i hlt => ?_
    cases hi : m.getLsbD i
    · simp [hi]
    · simp [hi, h i hi]

/-- The one bit of a power of two. -/
theorem getLsbD_twoPow_eq_true {w b i : Nat} (h : (BitVec.twoPow w b).getLsbD i = true) : i = b := by
  simp only [BitVec.getLsbD_twoPow, Bool.and_eq_true, decide_eq_true_eq] at h
  exact h.2.symm

/-- A phase's period event is a source of the unit (43_completion_handler.md R160). -/
theorem sourceMask_irqBit (c : Config) (k : Phase) :
    (sourceMask c).getLsbD (c.irqBit.get k).val = true := by
  have hlt := (c.irqBit.get k).isLt
  cases k <;> simp_all [sourceMask, PerPhase.get]

theorem sourceMask_foreign {c : Config} {b : Nat} (h : c.foreignMask.getLsbD b = true) :
    (sourceMask c).getLsbD b = true := by
  simp [sourceMask, h]

/-! ### The interrupt engine and the environment -/

theorem isrEntry_inv {s : State} (h : Inv s) (hq : irq s = true) : Inv (isrEntry s) := by
  obtain ⟨hh, hne⟩ := (irq_iff s).mp hq
  rw [isrEntry_eq]
  exact { h with
    phases := fun k => { h.phases k with }
    isr_handled := fun _ => hh
    latched_pending := fun _ => ⟨hne, BitVec.and_not_self _⟩
    pwm_legal := h.legal_append (List.forall_mem_singleton.mpr rfl) }

theorem isrMarkAck_inv {s : State} (h : Inv s) (hi : s.isrActive = true) : Inv (isrMarkAck s) := by
  rw [isrMarkAck_eq]
  refine { h with
    phases := fun k => ?_
    isr_handled := fun ha => absurd ha Bool.false_ne_true
    latched_pending := fun ha => absurd ha Bool.false_ne_true
    sources := ?_
    pwm_legal := h.legal_append (List.forall_mem_singleton.mpr rfl) }
  · exact .of_regs (withMarks_get s s.ph k) (h.phases k).cursor_lt (h.phases k).duty_le
      (h.phases k).init_present (h.phases k).init_running fun _ => h.isr_handled hi
  · exact mask_subset_iff.mpr fun b hb => mask_subset_iff.mp h.sources b (by
      rw [BitVec.getLsbD_and, Bool.and_eq_true] at hb
      exact hb.1)

/-- A source of the unit that raises its bit: the latched bits stay pending (43_completion_handler.md
R162, R164). -/
theorem Inv.with_source {s : State} (h : Inv s) {b : Nat} (hb : (sourceMask s.cfg).getLsbD b = true) :
    Inv { s with intSt := s.intSt ||| BitVec.twoPow 32 b } := by
  refine { h with
    phases := fun k => { h.phases k with }
    latched_pending := fun ha => ?_
    sources := mask_subset_iff.mpr fun j hj => ?_ }
  · obtain ⟨hne, hsub⟩ := h.latched_pending ha
    refine ⟨hne, mask_subset_iff.mpr fun j hj => ?_⟩
    rw [BitVec.getLsbD_or, mask_subset_iff.mp hsub j hj, Bool.true_or]
  · rw [BitVec.getLsbD_or, Bool.or_eq_true] at hj
    rcases hj with hj | hj
    · exact mask_subset_iff.mp h.sources j hj
    · rw [getLsbD_twoPow_eq_true hj]
      exact hb

theorem evPeriod_inv {s : State} (h : Inv s) (k : Phase) : Inv (evPeriod k s) :=
  h.with_source (sourceMask_irqBit s.cfg k)

theorem evForeign_inv {s : State} (h : Inv s) {b : Fin 32}
    (hb : s.cfg.foreignMask.getLsbD b.val = true) : Inv (evForeign b s) :=
  h.with_source (sourceMask_foreign hb)

/-! ### Reset -/

/-- `RESET`: the block's registers start again, and the time has not fallen below its start
(70_reset_and_hazards.md R211, 10_state.md R46). -/
theorem resetBlock_inv {s : State} (h : Inv s) : Inv (resetBlock s) where
  phases k := .of_regs (r := .reset s.cfg.n k) (by cases k <;> rfl) (cursorOffset_lt s.cfg k)
    (Nat.zero_le _) (fun hi => absurd hi Bool.false_ne_true)
    (fun hi => absurd hi Bool.false_ne_true) (fun hp => absurd hp Bool.false_ne_true)
  scale_le := Nat.zero_le _
  carrier_eq := (Nat.zero_mul _).symm
  elec_range := .inl rfl
  last_le := h.init_le
  init_le := h.init_le
  handler_init hh := absurd hh Bool.false_ne_true
  seq_init ha := absurd ha Bool.false_ne_true
  isr_handled ha := absurd ha Bool.false_ne_true
  latched_pending ha := absurd ha Bool.false_ne_true
  sources := h.sources
  pwm_legal := h.pwm_legal
  adc_legal := h.adc_legal

/-! ### The sequencer and the run request -/

/-- Setting the run request or the tasks to do on an initialised block (42_inverter.md R148). -/
theorem Inv.with_sequencer {s : State} (h : Inv s) (run : Bool) (todo : BitVec 4)
    (hd : run = true ∨ todo ≠ 0 → initDone s = true) :
    Inv { s with runReq := run, fgTodo := todo } :=
  { h with
    phases := fun k => { h.phases k with }
    seq_init := fun ha => hd ((seqActive_iff _).mp ha) }

theorem seqStart_inv {s : State} (h : Inv s) (hr : s.runReq = true) : Inv (seqStart s) :=
  h.with_sequencer s.runReq 0xF fun _ => h.seq_init ((seqActive_iff s).mpr (.inl hr))

/-- A task keeps the block initialised, and its bit of `FG_TODO` is cleared, not set. -/
theorem seqTask_inv {s : State} (h : Inv s) (task : Task) : Inv (seqTask task s) := by
  have hu := runTask_inv h task
  refine hu.with_sequencer _ _ fun ha => hu.seq_init ((seqActive_iff _).mpr ?_)
  refine ha.imp id fun hne h0 => hne ?_
  rw [h0]
  exact BitVec.zero_and

/-! ### Commands, accesses and steps -/

theorem CommandEffect.inv {s t : State} (he : CommandEffect s t) (h : Inv s) : Inv t := by
  cases he with
  | same => exact h
  | refused => exact h.of_bookkeeping rfl
  | tableRead => exact h.of_bookkeeping rfl
  | channelInit k _ hp => exact phInitProc_inv h hp
  | applied k => exact applyProc_inv h k
  | carrierSet k hz => exact setCarrier_inv h k hz
  | inverterInit => exact invInitProc_inv h
  | updated _ _ _ hs => exact updateFs_inv h hs
  | scaled => exact scalerCheck_inv h
  | iterated => exact fgIterProc_inv h
  | adcConfigured => exact adcInitProc_inv h

theorem AccessEffect.inv {s t : State} (he : AccessEffect s t) (h : Inv s) : Inv t := by
  cases he with
  | runStarted hd => exact h.with_sequencer true s.fgTodo fun _ => hd
  | runStopped =>
    refine h.with_sequencer false s.fgTodo fun ha => h.seq_init ((seqActive_iff s).mpr ?_)
    exact ha.imp (absurd · Bool.false_ne_true) id
  | _ => exact h.of_bookkeeping rfl

theorem StepEffect.inv {s t : State} {a : AgentStep} (he : StepEffect s a t) (h : Inv s) : Inv t := by
  cases he with
  | idle => exact h
  | command _ _ _ _ _ hc => exact hc.inv (h.of_bookkeeping rfl)
  | access _ _ _ hx => exact hx.inv (h.of_bookkeeping rfl)
  | seqStart hr => exact seqStart_inv h hr
  | seqTask task => exact seqTask_inv h task
  | isrEntry hq => exact isrEntry_inv h hq
  | isrMarkAck hi => exact isrMarkAck_inv h hi
  | evPeriod k => exact evPeriod_inv h k
  | evForeign b hb => exact evForeign_inv h hb
  | reset => exact resetBlock_inv h

/-- Settles O4: each effect a step can have keeps the invariant. -/
theorem everyStepKeepsInvariant : Obligations.EveryStepKeepsInvariant := fun _ _ h hstep =>
  (step_effect hstep).inv (h.of_bookkeeping rfl)

end Sys2Proof.Machine
end

section
/-! Proofs. The lifecycle flags: only the two initialising commands set them, and only reset clears
them. -/

namespace Sys2Proof.Machine

/-! ### Commands -/

/-- `HANDLER_REG` and every `CH_INIT` are as they were. -/
def SameLifecycle (s t : State) : Prop :=
  t.handlerReg = s.handlerReg ∧ ∀ k, (t.ph.get k).chInit = (s.ph.get k).chInit

theorem SameLifecycle.refl (s : State) : SameLifecycle s s := ⟨rfl, fun _ => rfl⟩

theorem TaskFrame.sameLifecycle {s t : State} (h : TaskFrame s t) : SameLifecycle s t :=
  ⟨h.handlerReg, h.chInit⟩

theorem foreground_sameLifecycle {run : State → State} {s : State}
    (h : SameLifecycle s (run s)) : SameLifecycle s (foreground run s) := by
  rcases foreground_cases run s with ⟨_, he⟩ | ⟨_, he⟩ <;> rw [he]
  · exact .refl s
  · exact h

theorem phaseCommand_sameLifecycle {run : Phase → State → State} {s : State}
    (h : ∀ k, SameLifecycle s (run k s)) (ph : BitVec 2) :
    SameLifecycle s (phaseCommand ph run s) := by
  rcases phaseCommand_cases ph run s with ⟨_, he⟩ | he | ⟨k, _, _, _, he⟩ <;> rw [he]
  · exact .refl s
  · exact .refl s
  · exact h k

/-- The two commands that initialise, and what each of them does (41_phase_channel.md R120,
42_inverter.md R140). -/
inductive InitCommand (s : State) : Instr → State → Prop where
  | inverter : InitCommand s .invInit (invInitProc s)
  | channel {ph : BitVec 2} {k : Phase} (hk : phaseOperand ph = some k)
      (hp : s.cfg.present.get k = true) : InitCommand s (.phInit ph) (phInitProc k s)

/-- A command that touches a lifecycle flag is one of those that initialise. -/
theorem exec_lifecycle {i : Instr} {s t : State} (h : exec i s = .next t) :
    SameLifecycle s t ∨ InitCommand s i t := by
  cases i with
  | phInit ph =>
    cases h
    rcases phaseCommand_cases ph phInitChecked s with ⟨_, he⟩ | he | ⟨k, hk, _, hp, he⟩ <;> rw [he]
    · exact .inl (.refl s)
    · exact .inl (.refl s)
    · unfold phInitChecked
      split
      · exact .inl (.refl s)
      · exact .inr (.channel hk hp)
  | invInit =>
    cases h
    rcases foreground_cases invInitChecked s with ⟨_, he⟩ | ⟨_, he⟩ <;> rw [he]
    · exact .inl (.refl s)
    · unfold invInitChecked
      split
      · exact .inl (.refl s)
      · exact .inr .inverter
  | nop =>
    cases h
    exact .inl (.refl s)
  | tblRead imm =>
    cases h
    unfold tblRead
    split <;> exact .inl (.refl s)
  | phApply ph =>
    cases h
    refine .inl (phaseCommand_sameLifecycle (fun k => ?_) ph)
    unfold phApplyChecked
    split
    · exact (applyProc_taskFrame k s).sameLifecycle
    · exact .refl s
  | phSetCarrier ph =>
    cases h
    refine .inl (phaseCommand_sameLifecycle (fun k => ?_) ph)
    unfold phSetCarrierChecked
    split
    · exact (setCarrier_taskFrame k _ s).sameLifecycle
    · exact .refl s
  | invUpdateFs imm =>
    cases h
    refine .inl (foreground_sameLifecycle ?_)
    unfold invUpdateFsChecked
    split
    · split
      · exact .refl s
      · exact (updateFs_taskFrame imm s).sameLifecycle
    · exact .refl s
  | scalerCheck =>
    cases h
    refine .inl (foreground_sameLifecycle ?_)
    unfold scalerCheckChecked
    split
    · exact (scalerCheck_taskFrame s).sameLifecycle
    · exact .refl s
  | fgIter =>
    cases h
    refine .inl (foreground_sameLifecycle ?_)
    unfold fgIterChecked
    split
    · exact (fgIterProc_taskFrame s).sameLifecycle
    · exact .refl s
  | adcInit =>
    cases h
    exact .inl (foreground_sameLifecycle (adcInitProc_taskFrame s).sameLifecycle)

theorem commandWrite_lifecycle {w : Word} {s t : State} (h : commandWrite w s = .next t) :
    SameLifecycle s t ∨ ∃ i, decode w = .ok i ∧ InitCommand s i t := by
  unfold commandWrite at h
  rcases hd : decode w with e | i <;> rw [hd] at h
  · cases h
    exact .inl (.refl s)
  · exact (exec_lifecycle h).imp id fun hi => ⟨i, rfl, hi⟩

/-- A step that touches a lifecycle flag is a reset or the host's initialising command. -/
theorem StepEffect.lifecycle {s t : State} {a : AgentStep} (h : StepEffect s a t) :
    SameLifecycle s t ∨ a = .reset ∨ (a = .host ∧ s.isrActive = false ∧ ∃ w rest i,
      s.hostProg = commandAccess s.cfg w :: rest ∧ decode w = .ok i ∧
        InitCommand { s with hostProg := rest } i t) := by
  cases h with
  | command w rest hp hi hw _ =>
    rcases commandWrite_lifecycle hw with hs | ⟨i, hd, hc⟩
    · exact .inl hs
    · exact .inr (.inr ⟨rfl, hi, w, rest, i, hp, hd, hc⟩)
  | access _ _ _ he =>
    obtain ⟨_, hph, hh⟩ := he.frame
    exact .inl ⟨hh, fun k => by rw [hph]⟩
  | seqTask task => exact .inl (runTask_taskFrame s task).sameLifecycle
  | isrMarkAck =>
    rw [isrMarkAck_eq]
    exact .inl ⟨rfl, fun k => by rw [withMarks_get]⟩
  | reset => exact .inr (.inl rfl)
  | idle => exact .inl (.refl s)
  | seqStart => exact .inl (.refl s)
  | isrEntry => exact .inl (.refl s)
  | evPeriod => exact .inl (.refl s)
  | evForeign => exact .inl (.refl s)

/-! ### What the two commands leave -/

theorem phaseOperand_toNat {ph : BitVec 2} {k : Phase} (h : phaseOperand ph = some k) :
    ph.toNat = k.toNat := by
  unfold phaseOperand at h
  split at h <;> cases h <;> assumption

/-- `InvInit()` leaves an initialised block (42_inverter.md R140). -/
theorem invInitProc_initDone (s : State) : initDone (invInitProc s) = true := by
  rw [invInitProc_eq, initDone_iff]
  exact ⟨rfl, channelInits_channelsInit s⟩

theorem invInitProc_chInit (s : State) (k : Phase) :
    ((invInitProc s).ph.get k).chInit = (s.cfg.present.get k || (s.ph.get k).chInit) := by
  rw [invInitProc_eq]
  exact channelInits_chInit s k

theorem phInitProc_handlerReg (k : Phase) (s : State) :
    (phInitProc k s).handlerReg = s.handlerReg := by
  rw [phInitProc_eq]

/-- Settles O54: a step that touches a flag is a reset, or runs a command of which the effect is
known. -/
theorem lifecycleFlagsSetByHostClearedByReset :
    Obligations.LifecycleFlagsSetByHostClearedByReset := by
  intro s t k h runs
  rcases (step_effect h).lifecycle with ⟨hh, hk⟩ | hreset | ⟨ha, hi, w, rest, i, hp, hd, hc⟩
  · exact ⟨fun hne => absurd hh hne, fun hne => absurd (hk k) hne⟩
  · exact ⟨fun _ => .inr hreset, fun _ => .inr hreset⟩
  have hruns : runs i := ⟨ha, hi, w, rest, hp, hd⟩
  cases hc with
  | inverter =>
    refine ⟨fun _ => .inl ⟨hruns, ?_, invInitProc_initDone _⟩, fun hne => .inl ⟨.inl hruns, ?_⟩⟩
    · exact ((initDone_iff _).mp (invInitProc_initDone _)).1
    · rw [invInitProc_chInit] at hne ⊢
      cases hpres : s.cfg.present.get k <;> simp_all
  | @channel ph j hj hpres =>
    refine ⟨fun hne => absurd (phInitProc_handlerReg j _) hne, fun hne => .inl ?_⟩
    rw [phInitProc_chInit] at hne ⊢
    by_cases hkj : k = j
    · subst k
      exact ⟨.inr ⟨ph, phaseOperand_toNat hj, hruns⟩, by simp, hpres⟩
    · simp [hkj] at hne

end Sys2Proof.Machine
end

section
/-! Proofs. The register window: what each register reads as, and the host's writes of `CTRL`, `ARG` and
`ERR`. -/

namespace Sys2Proof.Machine

/-! ### Accesses at a register's own offset -/

theorem hostAccess_read_reg {s : State} {r : Reg} {v : Word} (h : regValue s r = some v) :
    hostAccess (.read (s.cfg.sdeBase + regOffset r) 4) s = .next (returnRead v s) := by
  simp only [hostAccess, windowOffset_base s.cfg (regOffset_lt r), readAt, accessReg_regOffset,
    Option.bind_some, h]

theorem hostAccess_write_reg {r : Reg} (hr : r ≠ .cmd) (v : Word) (s : State) :
    hostAccess (.write (s.cfg.sdeBase + regOffset r) 4 v) s = .next (writeReg r v s) := by
  simp only [hostAccess, windowOffset_base s.cfg (regOffset_lt r), writeAt, accessReg_regOffset]

/-! ### Words made of fields -/

/-- Two fields side by side: the high one counts from the low one's width up. -/
theorem toNat_append_fields {m n : Nat} (x : BitVec m) (y : BitVec n) :
    (x ++ y).toNat = 2 ^ n * x.toNat + y.toNat := by
  rw [BitVec.toNat_append, ← Nat.shiftLeft_add_eq_or_of_lt y.isLt, Nat.shiftLeft_eq, Nat.mul_comm]

theorem ofBool_word (b : Bool) : (0#31 ++ BitVec.ofBool b : Word) = if b then 1 else 0 := by
  cases b <;> rfl

theorem paramWord_toNat (c : Config) :
    (paramWord c.toParams).toNat = c.n + 2 ^ 16 * c.adcBits := by
  have hn := config_n_le c
  have hb := (config_adcBits c).2
  simp only [paramWord, toNat_append_fields, BitVec.toNat_ofNat]
  omega

theorem statusWord_toNat (s : State) :
    (statusWord s).toNat = (initDone s).toNat + 2 * (seqActive s).toNat + 4 * s.isrActive.toNat
      + 8 * s.handlerReg.toNat + 16 * (irq s).toNat + 256 * s.fgTodo.toNat := by
  simp only [statusWord, toNat_append_fields, BitVec.toNat_ofNat, BitVec.toNat_ofBool]
  omega

theorem flagsWord_toNat (s : State) (k : Phase) :
    (flagsWord s k).toNat = (s.ph.get k).pending.toNat + 2 * (s.ph.get k).chInit.toNat
      + 4 * (s.cfg.present.get k).toNat := by
  simp only [flagsWord, toNat_append_fields, BitVec.toNat_ofNat, BitVec.toNat_ofBool]
  omega

/-- A 64-bit time is its two words (10_state.md R61). -/
theorem toNat_low_high (x : BitVec 64) :
    x.toNat = (x.extractLsb' 0 32).toNat + 2 ^ 32 * (x.extractLsb' 32 32).toNat := by
  have hx := x.isLt
  simp only [BitVec.extractLsb'_toNat, Nat.shiftRight_eq_div_pow]
  omega

/-! ### The statements -/

/-- Settles O45: the access gives the register's value, and each value is read field by field. -/
theorem liveRegisterReads : Obligations.LiveRegisterReads := by
  intro s
  have hwide : ∀ {w : Nat} (x : BitVec w), w ≤ 32 → (x.setWidth 32).toNat = x.toNat :=
    fun _ h => BitVec.toNat_setWidth_of_le h
  refine ⟨fun r v h => hostAccess_read_reg h, rfl, ⟨_, rfl, paramWord_toNat s.cfg⟩,
    ⟨_, rfl, statusWord_toNat s⟩, congrArg some (ofBool_word s.runReq), rfl, rfl,
    ⟨_, rfl, hwide s.err (by decide)⟩, ⟨_, rfl, hwide s.scale (by decide)⟩, rfl, rfl, rfl,
    ⟨_, _, rfl, rfl, toNat_low_high s.lastT⟩, fun k => ?_⟩
  exact ⟨⟨_, rfl, hwide (s.ph.get k).cursor (by decide)⟩,
    ⟨_, rfl, hwide (s.ph.get k).duty (by decide)⟩, rfl, ⟨_, rfl, flagsWord_toNat s k⟩⟩

/-- The run request of a `CTRL` write is bit 0, accepted on an initialised block alone (10_state.md
R51). -/
theorem writeCtrl_cases (v : Word) (s : State) :
    (v.getLsbD 0 = true → initDone s = true → writeCtrl v s = { s with runReq := true }) ∧
    (v.getLsbD 0 = true → initDone s = false → writeCtrl v s = raise .notInit s) ∧
    (v.getLsbD 0 = false → writeCtrl v s = { s with runReq := false }) := by
  refine ⟨fun hv hd => ?_, fun hv hd => ?_, fun hv => ?_⟩
  · rw [writeCtrl, if_pos hv, if_pos hd]
  · rw [writeCtrl, if_pos hv, if_neg (ne_true_of_eq_false hd)]
  · rw [writeCtrl, if_neg (ne_true_of_eq_false hv)]

/-- The bits a write of `ERR` clears are those of `v[8:0]` (10_state.md R54). -/
theorem writeErr_eq (v : Word) (s : State) :
    writeErr v s = { s with err := s.err &&& ~~~v.extractLsb' 0 9 } := by
  rw [writeErr, BitVec.setWidth_eq_extractLsb' (by decide)]

/-- Settles O42: the write at the offset of `CTRL`, and the read there. -/
theorem controlWriteRequestsRun : Obligations.ControlWriteRequestsRun := by
  intro s v
  have hw : hostAccess (.write (s.cfg.sdeBase + 0x0C) 4 v) s = .next (writeCtrl v s) :=
    hostAccess_write_reg (r := .ctrl) (by decide) v s
  obtain ⟨hstart, hrefuse, hstop⟩ := writeCtrl_cases v s
  rw [hw]
  exact ⟨fun hv hd => congrArg _ (hstart hv hd), fun hv hd => congrArg _ (hrefuse hv hd),
    fun hv => congrArg _ (hstop hv),
    hostAccess_read_reg (r := .ctrl) (congrArg some (ofBool_word s.runReq))⟩

/-- Settles O46: the writes at the offsets of `ARG` and `ERR`. -/
theorem hostWritesArgAndClearsErr : Obligations.HostWritesArgAndClearsErr := fun s v =>
  ⟨hostAccess_write_reg (r := .arg) (by decide) v s,
    (hostAccess_write_reg (r := .err) (by decide) v s).trans (congrArg _ (writeErr_eq v s))⟩

end Sys2Proof.Machine
end

section
/-! Proofs. The host's step: its accesses in order, the command that waits, and the command that
runs. -/

namespace Sys2Proof.Machine

/-! ### The host's turn -/

/-- A host's turn takes the host's step, in the state with the draw made (10_state.md R20). -/
theorem step_of_host_turn {s : State} {ans : Answers} {rest : List Turn}
    (h : s.draws.turns = ⟨.host, ans⟩ :: rest) : step s = hostStep (afterDraw s ans rest) := by
  obtain ⟨hagent, _, hdrawn⟩ := nextTurn_of_turns h
  rw [step, hagent, hdrawn]
  rfl

theorem isCommand_iff (c : Config) (a : HostAccess) :
    isCommand c a = true ↔ ∃ w, a = commandAccess c w := by
  refine ⟨exists_commandAccess, ?_⟩
  rintro ⟨w, rfl⟩
  exact isCommand_commandAccess c w

/-- An access that is no command, or finds no invocation in progress, is made (20_memory.md R72). -/
theorem hostStep_of_proceeds {s : State} {a : HostAccess} {prog : List HostAccess}
    (hp : s.hostProg = a :: prog) (h : isCommand s.cfg a = false ∨ s.isrActive = false) :
    hostStep s = hostAccess a { s with hostProg := prog } := by
  have hgo : (isCommand s.cfg a && s.isrActive) = false := Bool.and_eq_false_iff.mpr h
  simp [hostStep, hp, hgo]

/-- A command waits while an invocation is in progress (20_memory.md R72, 60_exceptions.md R193). -/
theorem hostStep_of_waits {s : State} {a : HostAccess} {prog : List HostAccess}
    (hp : s.hostProg = a :: prog) (hc : isCommand s.cfg a = true) (hi : s.isrActive = true) :
    hostStep s = .next s := by
  simp [hostStep, hp, hc, hi]

/-- Settles O11: the host's turn on its next access, which waits exactly when it is a command during
an invocation. -/
theorem hostAccessesProceedUnlessCommandWaits :
    Obligations.HostAccessesProceedUnlessCommandWaits := by
  intro s a ans rest prog hturn hprog
  rw [step_of_host_turn hturn]
  refine ⟨fun h => hostStep_of_proceeds hprog ?_, fun hi hc => ?_⟩
  · refine h.symm.imp_left fun hne => Bool.eq_false_iff.mpr fun hc => ?_
    obtain ⟨w, hw⟩ := exists_commandAccess hc
    exact hne w hw
  · exact hostStep_of_waits hprog ((isCommand_iff _ _).mpr hc) hi

/-! ### The command that runs -/

theorem commandWrite_of_decode {w : Word} {i : Instr} (h : decode w = .ok i) (s : State) :
    commandWrite w s = exec i s := by
  rw [commandWrite, h]

/-- The step of a command that does not wait is the write of its word (20_memory.md R72). -/
theorem step_of_command {s : State} {w : Word} {ans : Answers} {rest : List Turn}
    {prog : List HostAccess} (hturn : s.draws.turns = ⟨.host, ans⟩ :: rest)
    (hprog : s.hostProg = commandAccess s.cfg w :: prog) (hi : s.isrActive = false) :
    step s = commandWrite w { afterDraw s ans rest with hostProg := prog } := by
  have hgo := hostStep_of_proceeds (s := afterDraw s ans rest) hprog (.inr hi)
  exact (step_of_host_turn hturn).trans (hgo.trans (hostAccess_commandAccess w _))

/-- Settles O9: the write of a word, and the command it decodes to. -/
theorem stepRunsDecodedCommand : Obligations.StepRunsDecodedCommand :=
  fun _ _ _ _ _ _ hturn hprog hi hdecode _ =>
    (step_of_command hturn hprog hi).trans (commandWrite_of_decode hdecode _)

/-- The byte lanes of a word carry that word (20_memory.md R70). -/
theorem wordOfLanes_lanesOfWord (w : Word) : wordOfLanes (lanesOfWord w) = some w := by
  refine congrArg some (BitVec.eq_of_toNat_eq ?_)
  have hw := w.isLt
  simp only [toNat_append_fields, BitVec.extractLsb'_toNat, Nat.shiftRight_eq_div_pow]
  omega

/-- A command read from the byte lanes is the one the word decodes to. -/
theorem decode_of_decodeTableWord {nbits w : Nat} {i : Instr}
    (h : decodeTableWord nbits w = some i) : decode (BitVec.ofNat 32 (w % 2 ^ nbits)) = .ok i := by
  unfold decodeTableWord at h
  split at h
  · simp only [decodeLanes, wordOfLanes_lanesOfWord] at h
    cases hd : decode (BitVec.ofNat 32 (w % 2 ^ nbits)) with
    | ok j =>
      rw [hd] at h
      exact congrArg Except.ok (Option.some.inj h)
    | error e =>
      rw [hd] at h
      cases h
  · cases h

/-- Settles O12: the placed access is the host's next, its turn is the next, and nothing holds it
back. -/
theorem placedCommandRunsNext : Obligations.PlacedCommandRunsNext := by
  intro s w i h
  have hplaced : step (s.withFetchWord 32 w) =
      commandWrite (BitVec.ofNat 32 (w % 2 ^ 32))
        { afterDraw s .none s.draws.turns with isrActive := false } :=
    step_of_command (s := s.withFetchWord 32 w) rfl rfl rfl
  rw [hplaced, commandWrite_of_decode (decode_of_decodeTableWord h)]

end Sys2Proof.Machine
end

section
/-! Proofs. The register window: the map of offsets, the accesses it refuses, and the addresses
outside it. -/

namespace Sys2Proof.Machine

/-! ### The register map -/

theorem regOffset_of_phaseRegAt {k : Phase} {off : Nat} {r : Reg} (h : phaseRegAt k off = some r) :
    regOffset r = 0x40 + 0x10 * k.toNat + off := by
  unfold phaseRegAt at h
  split at h <;> cases h <;> simp only [regOffset] <;> omega

/-- The register found at an offset has that offset in the map (20_memory.md R69). -/
theorem regOffset_of_regAt {off : Nat} {r : Reg} (h : regAt off = some r) : regOffset r = off := by
  have hphase : ∀ k : Phase, off / 16 = 4 + k.toNat → phaseRegAt k (off % 16) = some r →
      regOffset r = off := by
    intro k hk hr
    rw [regOffset_of_phaseRegAt hr]
    omega
  unfold regAt at h
  split at h
  case h_15 =>
    split at h
    · exact hphase .p0 (by assumption) h
    · exact hphase .p1 (by assumption) h
    · exact hphase .p2 (by assumption) h
    · cases h
  all_goals cases h; rfl

/-- An access reaches a register exactly when it is 32 bits wide and at the register's offset
(20_memory.md R66, R69). -/
theorem accessReg_eq_some_iff {off bytes : Nat} {r : Reg} :
    accessReg off bytes = some r ↔ bytes = 4 ∧ regOffset r = off := by
  constructor
  · intro h
    rw [accessReg, Option.ite_none_right_eq_some] at h
    obtain ⟨⟨hbytes, _⟩, hreg⟩ := h
    exact ⟨hbytes, regOffset_of_regAt hreg⟩
  · rintro ⟨rfl, rfl⟩
    exact accessReg_regOffset r

/-- The four registers of a phase, in the order of the map (20_memory.md R69). -/
def phaseRegs (k : Phase) : List Reg := [.phCursor k, .phDuty k, .phFreq k, .phFlags k]

/-- The registers in the order of the map (20_memory.md R69). -/
def mappedRegs : List Reg :=
  .ident :: .param :: .status :: .ctrl :: .cmd :: .arg :: .result :: .err :: .scale :: .elecFreq ::
    .carrier :: .isrM :: .lastTLo :: .lastTHi :: Phase.all.flatMap phaseRegs

theorem mem_mappedRegs (r : Reg) : r ∈ mappedRegs := by
  cases r with
  | phCursor k => cases k <;> decide
  | phDuty k => cases k <;> decide
  | phFreq k => cases k <;> decide
  | phFlags k => cases k <;> decide
  | _ => decide

/-- Settles O43: the table of the map is each register with its offset. -/
theorem registerMapIsExact : Obligations.RegisterMapIsExact := by
  intro off bytes r _
  have htable : (off, r) ∈ mappedRegs.map (fun q => (regOffset q, q)) ↔ regOffset r = off := by
    simp [mem_mappedRegs]
  exact accessReg_eq_some_iff.trans (and_congr_right fun _ => htable.symm)

/-! ### Refused accesses -/

/-- A read that reaches no readable register returns 0 and sets `ERR.BUS` (20_memory.md R66,
R67). -/
theorem readAt_of_refused {off bytes : Nat} (s : State)
    (h : accessReg off bytes = none ∨ accessReg off bytes = some .cmd) :
    readAt off bytes s = returnRead 0 (raise .bus s) := by
  rcases h with h | h <;> simp [readAt, h, regValue]

/-- A write of a read-only register changes nothing but `ERR.BUS` (20_memory.md R67). -/
theorem writeReg_of_readOnly {r : Reg} (hctrl : r ≠ .ctrl) (harg : r ≠ .arg) (herr : r ≠ .err)
    (v : Word) (s : State) : writeReg r v s = raise .bus s := by
  cases r with
  | ctrl => exact absurd rfl hctrl
  | arg => exact absurd rfl harg
  | err => exact absurd rfl herr
  | _ => rfl

theorem writeAt_of_ne_cmd {off bytes : Nat} {r : Reg} (h : accessReg off bytes = some r)
    (hr : r ≠ .cmd) (v : Word) (s : State) : writeAt off bytes v s = .next (writeReg r v s) := by
  simp only [writeAt, h]

theorem writeAt_of_unmapped {off bytes : Nat} (h : accessReg off bytes = none) (v : Word)
    (s : State) : writeAt off bytes v s = .next (raise .bus s) := by
  rw [writeAt, h]

/-- Every register stands at an aligned offset below `0x70` that is not one of the two gaps
(20_memory.md R69). -/
theorem regOffset_mapped (r : Reg) :
    regOffset r % 4 = 0 ∧ regOffset r ≠ 0x38 ∧ regOffset r ≠ 0x3C ∧ regOffset r < 0x70 := by
  have hall : ∀ q ∈ mappedRegs, regOffset q % 4 = 0 ∧ regOffset q ≠ 0x38 ∧ regOffset q ≠ 0x3C ∧
      regOffset q < 0x70 := by decide
  exact hall r (mem_mappedRegs r)

theorem hostAccess_read_at {s : State} {addr off : Nat} (h : windowOffset s.cfg addr = some off)
    (bytes : Nat) : hostAccess (.read addr bytes) s = .next (readAt off bytes s) := by
  simp only [hostAccess, h]

theorem hostAccess_write_at {s : State} {addr off : Nat} (h : windowOffset s.cfg addr = some off)
    (bytes : Nat) (v : Word) : hostAccess (.write addr bytes v) s = writeAt off bytes v s := by
  simp only [hostAccess, h]

/-- Settles O44: what an access that reaches no register, or one it may not, comes to; and the
accesses that reach none. -/
theorem refusedAccessSetsOnlyBus : Obligations.RefusedAccessSetsOnlyBus := by
  intro s off bytes v hoff
  have hwindow := windowOffset_base s.cfg hoff
  rw [hostAccess_read_at hwindow, hostAccess_write_at hwindow]
  refine ⟨fun h => congrArg _ (readAt_of_refused s h), ?_, fun h => ?_⟩
  · rintro (h | ⟨r, h, hcmd, hctrl, harg, herr⟩)
    · exact writeAt_of_unmapped h v s
    · rw [writeAt_of_ne_cmd h hcmd, writeReg_of_readOnly hctrl harg herr]
      rfl
  · refine Option.eq_none_iff_forall_ne_some.mpr fun r hr => ?_
    obtain ⟨hbytes, hreg⟩ := accessReg_eq_some_iff.mp hr
    obtain ⟨haligned, hgap, hgap', hlast⟩ := regOffset_mapped r
    omega

/-! ### Faults -/

/-- An address in the block's window (20_memory.md R65). -/
def InWindow (c : Config) (addr : Nat) : Prop := c.sdeBase ≤ addr ∧ addr < c.sdeBase + 256

/-- The address of an access. -/
def accessAddr : HostAccess → Nat
  | .read addr _ => addr
  | .write addr _ _ => addr

theorem windowOffset_of_inWindow {c : Config} {addr : Nat} (h : InWindow c addr) :
    windowOffset c addr = some (addr % 256) := if_pos h

theorem writeAt_next (off bytes : Nat) (v : Word) (s : State) :
    ∃ t, writeAt off bytes v s = .next t := by
  cases hr : accessReg off bytes with
  | none => exact ⟨_, writeAt_of_unmapped hr v s⟩
  | some r =>
    by_cases hcmd : r = .cmd
    · subst hcmd
      obtain ⟨t, ht, _⟩ := commandWrite_effect v s
      exact ⟨t, by rw [writeAt, hr]; exact ht⟩
    · exact ⟨_, writeAt_of_ne_cmd hr hcmd v s⟩

/-- An access inside the window never faults (20_memory.md R65). -/
theorem hostAccess_of_inWindow {a : HostAccess} {s : State} (h : InWindow s.cfg (accessAddr a)) :
    ∃ t, hostAccess a s = .next t := by
  cases a with
  | read addr bytes => exact ⟨_, hostAccess_read_at (windowOffset_of_inWindow h) bytes⟩
  | write addr bytes v =>
    obtain ⟨t, ht⟩ := writeAt_next (addr % 256) bytes v s
    exact ⟨t, (hostAccess_write_at (windowOffset_of_inWindow h) bytes v).trans ht⟩

/-- An access outside the window faults (entry 13). -/
theorem hostAccess_of_not_inWindow {a : HostAccess} {s : State}
    (h : ¬InWindow s.cfg (accessAddr a)) : hostAccess a s = .fault .outsideWindow := by
  have hw : windowOffset s.cfg (accessAddr a) = none := if_neg h
  cases a with
  | read addr bytes => rw [accessAddr] at hw; rw [hostAccess, hw]
  | write addr bytes v => rw [accessAddr] at hw; rw [hostAccess, hw]

/-- The host's step answers a next state, or faults on an access outside the window. -/
theorem hostStep_cases (s : State) :
    (∃ t, hostStep s = .next t) ∨
      (hostStep s = .fault .outsideWindow ∧
        ∃ a rest, s.hostProg = a :: rest ∧ ¬InWindow s.cfg (accessAddr a)) := by
  unfold hostStep
  split
  · exact .inl ⟨_, rfl⟩
  · rename_i a rest hp
    split
    · exact .inl ⟨_, rfl⟩
    · by_cases hw : InWindow s.cfg (accessAddr a)
      · exact .inl (hostAccess_of_inWindow (s := { s with hostProg := rest }) hw)
      · exact .inr ⟨hostAccess_of_not_inWindow (s := { s with hostProg := rest }) hw,
          a, rest, hp, hw⟩

/-- Every agent but the host takes its step to a next state (10_state.md R20). -/
theorem agentStep_next_of_ne_host {a : AgentStep} (h : a ≠ .host) (s : State) :
    ∃ t, agentStep a s = .next t := by
  unfold agentStep
  split
  · cases a with
    | host => exact absurd rfl h
    | _ => exact ⟨_, rfl⟩
  · exact ⟨_, rfl⟩

/-- A step answers a next state, or is the host's and faults on an access outside the window. -/
theorem step_cases (s : State) :
    (∃ t, step s = .next t) ∨
      (step s = .fault .outsideWindow ∧ nextAgent s = .host ∧
        ∃ a rest, s.hostProg = a :: rest ∧ ¬InWindow s.cfg (accessAddr a)) := by
  unfold step
  by_cases ha : nextAgent s = .host
  · rw [ha]
    exact (hostStep_cases (tookTurn s)).imp_right fun ⟨hf, hp⟩ => ⟨hf, rfl, hp⟩
  · exact .inl (agentStep_next_of_ne_host ha _)

/-- Settles O47: the two ways a step can end, and the two places an access can be. -/
theorem onlyOutsideWindowFaults : Obligations.OnlyOutsideWindowFaults := by
  refine ⟨fun s => ?_, fun s addr bytes v => ⟨fun h => ?_, fun h => ?_⟩⟩
  · rcases step_cases s with ⟨t, ht⟩ | ⟨hf, hhost, a, rest, hp, hout⟩
    · rw [ht]
      exact ⟨nofun, nofun⟩
    · rw [hf]
      refine ⟨nofun, fun f hfault => ?_⟩
      cases hfault
      refine ⟨rfl, hhost, ?_⟩
      cases a with
      | read addr bytes => exact ⟨addr, bytes, 0, rest, .inl hp, hout⟩
      | write addr bytes v => exact ⟨addr, bytes, v, rest, .inr hp, hout⟩
  · exact ⟨hostAccess_of_inWindow (a := .read addr bytes) h,
      hostAccess_of_inWindow (a := .write addr bytes v) h⟩
  · exact ⟨hostAccess_of_not_inWindow (a := .read addr bytes) h,
      hostAccess_of_not_inWindow (a := .write addr bytes v) h⟩

end Sys2Proof.Machine
end

section
/-! Proofs. The scaler task: the time and the sample it reads, and what it does with them. -/

namespace Sys2Proof.Machine

/-! ### The ports' answers -/

/-- An answered time that is not before `NOW_PREV` is the time read (20_memory.md R76). -/
theorem nextTime_of_answer {s : State} {now : BitVec 64} (ha : s.draws.answers.time = some now)
    (hnow : s.nowPrev.toNat ≤ now.toNat) : nextTime s = now := by
  simp only [nextTime, ha, Option.getD_some]
  exact if_neg (Nat.not_lt.mpr hnow)

/-- An answered sample in `[0, ADC_MAX]` is the sample read (20_memory.md R75). -/
theorem nextSample_of_answer {s : State} {raw : BitVec 16}
    (ha : s.draws.answers.sample = some raw) (hraw : raw.toNat ≤ s.cfg.adcMax) :
    nextSample s = raw := by
  simp only [nextSample, ha, Option.getD_some]
  rw [Nat.mod_eq_of_lt (Nat.lt_succ_of_le hraw), BitVec.ofNat_toNat, BitVec.setWidth_eq]

/-! ### What the task does -/

/-- The carrier is the product with `N` of the frequency before either is narrowed (42_inverter.md
R141). -/
theorem carrierLaw_eq (p : Params) (s : Nat) :
    carrierLaw p s =
      BitVec.ofNat 32 ((p.minFreq * 256 + ((p.maxFreq - p.minFreq) * s + 64) / 128) * p.n) := by
  rw [carrierLaw, carrierOf, elecLaw, BitVec.toNat_ofNat]
  exact BitVec.eq_of_toNat_eq (by simp)

/-- `UpdateFS(s)` leaves the values its rule writes out (42_inverter.md R143). -/
theorem updateFs_eq_afterUpdateFs (sc : BitVec 16) (s : State) :
    updateFs sc s = afterUpdateFs s sc := by
  rw [updateFs_eq, carrierLaw_eq]
  rfl

theorem scalerCheck_of_not_due {s : State}
    (h : ¬s.lastT.toNat + s.cfg.samplePeriod.toNat < (nextTime s).toNat) :
    scalerCheck s = tookTime s := by
  rcases scalerCheck_cases s with ⟨hdue, _⟩ | ⟨_, he⟩
  · exact absurd hdue h
  · exact he

/-- When a sample is due it is read at the time just read, and the scale is its `Norm`
(44_analog_scaler.md R176). -/
theorem scalerCheck_of_due {s : State}
    (h : s.lastT.toNat + s.cfg.samplePeriod.toNat < (nextTime s).toNat) :
    scalerCheck s = afterUpdateFs
      { s with
        nowPrev := nextTime s
        lastT := nextTime s
        adcLog := s.adcLog ++ [.readRaw s.cfg.adcCh (nextSample (tookTime s))]
        draws := (tookSample (tookTime s)).draws }
      (norm s.cfg.toParams (nextSample (tookTime s)).toNat) := by
  rcases scalerCheck_cases s with ⟨_, he⟩ | ⟨hle, _⟩
  · rw [he, takeSample_eq, updateFs_eq_afterUpdateFs]
    rfl
  · omega

theorem scalerCheck_nowPrev (s : State) : (scalerCheck s).nowPrev = nextTime s := by
  by_cases h : s.lastT.toNat + s.cfg.samplePeriod.toNat < (nextTime s).toNat
  · rw [scalerCheck_of_due h]
    rfl
  · rw [scalerCheck_of_not_due h]
    rfl

/-- The task is a complete `ScalerCheck()`, with the time and the sample that the ports give. -/
theorem scalerCheck_scalerChecked (s : State) : ScalerChecked s (scalerCheck s) := by
  by_cases h : s.lastT.toNat + s.cfg.samplePeriod.toNat < (nextTime s).toNat
  · refine ⟨nextTime s, nextSample (tookTime s), (tookSample (tookTime s)).draws, nextTime_ge s,
      nextSample_le (tookTime s), rfl, rfl, ?_⟩
    rw [if_pos h, scalerCheck_of_due h]
    rfl
  · refine ⟨nextTime s, 0, (tookTime s).draws, nextTime_ge s, Nat.zero_le _, rfl, rfl, ?_⟩
    rw [if_neg h, scalerCheck_of_not_due h]
    rfl

/-! ### The command -/

theorem exec_scalerCheck_of_idle {s : State} (hb : seqActive s = false) :
    exec .scalerCheck s = .next (scalerCheckChecked s) := by
  show Host.Outcome.next (foreground scalerCheckChecked s) = _
  rw [foreground, if_neg (ne_true_of_eq_false hb)]

theorem exec_scalerCheck_of_ready {s : State} (hb : seqActive s = false) (hi : initDone s = true) :
    exec .scalerCheck s = .next (scalerCheck s) := by
  rw [exec_scalerCheck_of_idle hb, scalerCheckChecked, if_pos hi]

/-- Settles O26: the command is refused before boot, and is the task after it. -/
theorem scalerCheckSamplesWhenDue : Obligations.ScalerCheckSamplesWhenDue := by
  refine fun s hb => ⟨fun hi => ?_, fun hi => ?_⟩
  · rw [exec_scalerCheck_of_idle hb, scalerCheckChecked, if_neg (ne_true_of_eq_false hi)]
    rfl
  · exact ⟨_, exec_scalerCheck_of_ready hb hi, scalerCheck_scalerChecked s⟩

/-- Settles O27: the answers are those the task reads. -/
theorem everyPortAnswerIsAdmitted : Obligations.EveryPortAnswerIsAdmitted := by
  intro s
  have htask : runTask s .scaler = scalerCheck s := rfl
  rw [htask, scalerCheck_nowPrev]
  refine ⟨exec_scalerCheck_of_ready, fun now => nextTime_of_answer, fun raw ha hraw hdue => ?_⟩
  have hread : nextSample (tookTime s) = raw := nextSample_of_answer (s := tookTime s) ha hraw
  rw [scalerCheck_of_due hdue, hread]
  exact ⟨rfl, rfl⟩

end Sys2Proof.Machine
end

section
/-! Proofs. Command words as numbers: the opcode and the operand of a word, that the decoder and the
encoder undo each other, and the words that are refused. -/

namespace Sys2Proof

open Sys2Proof.Laws

/-! ### The word of an instruction, as a number -/

/-- The opcode of an instruction (30_encoding.md R86). -/
def opcodeOf : Instr → Nat
  | .nop => 0
  | .tblRead _ => 1
  | .phInit _ => 2
  | .phApply _ => 3
  | .phSetCarrier _ => 4
  | .invInit => 5
  | .invUpdateFs _ => 6
  | .scalerCheck => 7
  | .fgIter => 8
  | .adcInit => 9

/-- The operand of an instruction at its place in the word (30_encoding.md R84, R87). -/
def operandOf : Instr → Nat
  | .tblRead imm => imm.toNat
  | .phInit ph => ph.toNat * 2 ^ 26
  | .phApply ph => ph.toNat * 2 ^ 26
  | .phSetCarrier ph => ph.toNat * 2 ^ 26
  | .invUpdateFs imm => imm.toNat
  | _ => 0

/-- An immediate put in below an opcode: the two do not overlap. -/
theorem toNat_or_immediate {n : Nat} (op : Nat) (hop : op < 16) (hn : n ≤ 28) (imm : BitVec n) :
    (BitVec.ofNat 32 (2 ^ 28 * op) ||| imm.setWidth 32).toNat = 2 ^ 28 * op + imm.toNat := by
  have himm : imm.toNat < 2 ^ 28 := imm.isLt.trans_le (Nat.pow_le_pow_right (by omega) hn)
  rw [BitVec.toNat_or, BitVec.toNat_ofNat, BitVec.toNat_setWidth, Nat.mod_eq_of_lt (by omega),
    Nat.mod_eq_of_lt (by omega), ← Nat.two_pow_add_eq_or_of_lt himm]

/-- A phase field put in below an opcode. -/
theorem toNat_or_placePh (op : Fin 16) (ph : BitVec 2) :
    (BitVec.ofNat 32 (2 ^ 28 * op.val) ||| placePh ph).toNat =
      2 ^ 28 * op.val + ph.toNat * 2 ^ 26 := by
  revert op ph
  decide

/-- The word of an instruction is its opcode above its operand (30_encoding.md R84). -/
theorem encode_toNat (i : Instr) : (encode i).toNat = 2 ^ 28 * opcodeOf i + operandOf i := by
  cases i with
  | tblRead imm => exact toNat_or_immediate 1 (by decide) (by decide) imm
  | phInit ph => exact toNat_or_placePh 2 ph
  | phApply ph => exact toNat_or_placePh 3 ph
  | phSetCarrier ph => exact toNat_or_placePh 4 ph
  | invUpdateFs imm => exact toNat_or_immediate 6 (by decide) (by decide) imm
  | _ => rfl

/-! ### The fields of a word, as numbers -/

theorem opField_toNat (w : Word) : (opField w).toNat = w.toNat / 2 ^ 28 := by
  have hw := w.isLt
  rw [opField, BitVec.extractLsb'_toNat, Nat.shiftRight_eq_div_pow]
  omega

theorem phField_toNat (w : Word) : (phField w).toNat = w.toNat / 2 ^ 26 % 4 := by
  rw [phField, BitVec.extractLsb'_toNat, Nat.shiftRight_eq_div_pow]

theorem indexField_toNat (w : Word) : (indexField w).toNat = w.toNat % 2 ^ 12 := by
  simp [indexField]

theorem scaleField_toNat (w : Word) : (scaleField w).toNat = w.toNat % 2 ^ 16 := by
  simp [scaleField]

/-- A number has no bit of the mask of `n` bits from bit `lo` up exactly when those of its digits are
0. -/
theorem and_fieldMask_eq_zero_iff (x lo n : Nat) :
    x &&& (2 ^ n - 1) <<< lo = 0 ↔ x / 2 ^ lo % 2 ^ n = 0 := by
  have hmove : x &&& (2 ^ n - 1) <<< lo = ((x >>> lo) &&& (2 ^ n - 1)) <<< lo := by
    refine Nat.eq_of_testBit_eq fun j => ?_
    by_cases hj : lo ≤ j <;> simp [Nat.testBit_shiftLeft, Nat.testBit_shiftRight, hj, Bool.and_comm]
  rw [hmove, Nat.and_two_pow_sub_one_eq_mod, Nat.shiftRight_eq_div_pow, Nat.shiftLeft_eq]
  simp

/-- The digits of a word that its form wants to be 0 (30_encoding.md R87). -/
def reservedDigits (x : Nat) : Form → Nat
  | .none => x % 2 ^ 28
  | .phase => x % 2 ^ 26
  | .index => x / 2 ^ 12 % 2 ^ 16
  | .scale => x / 2 ^ 16 % 2 ^ 12

theorem mustBeZero_clear_iff (w : Word) (form : Form) :
    w &&& form.mustBeZero = 0#32 ↔ reservedDigits w.toNat form = 0 := by
  rw [← BitVec.toNat_inj, BitVec.toNat_and]
  cases form with
  | none => simpa [Form.mustBeZero, reservedDigits] using and_fieldMask_eq_zero_iff w.toNat 0 28
  | phase => simpa [Form.mustBeZero, reservedDigits] using and_fieldMask_eq_zero_iff w.toNat 0 26
  | index => simpa [Form.mustBeZero, reservedDigits] using and_fieldMask_eq_zero_iff w.toNat 12 16
  | scale => simpa [Form.mustBeZero, reservedDigits] using and_fieldMask_eq_zero_iff w.toNat 16 12

/-! ### The opcode map -/

/-- The operand of an instruction lies below the opcode. -/
theorem operandOf_lt (i : Instr) : operandOf i < 2 ^ 28 := by
  cases i <;> simp only [operandOf] <;> omega

theorem opField_encode (i : Instr) : (opField (encode i)).toNat = opcodeOf i := by
  have hoperand := operandOf_lt i
  rw [opField_toNat, encode_toNat]
  omega

/-- The opcode map gives back an instruction, whatever its operand (30_encoding.md R86). -/
theorem opcodeRow_encode (i : Instr) : opcodeRow (encode i) = some (formOf i, i) := by
  have hop := opField_encode i
  have hword := encode_toNat i
  generalize encode i = w at hop hword
  rw [opcodeRow, hop]
  cases i with
  | tblRead imm =>
    have hfield : indexField w = imm := BitVec.eq_of_toNat_eq (by
      rw [indexField_toNat, hword]; simp only [opcodeOf, operandOf]; omega)
    simp [opcodeOf, formOf, hfield]
  | invUpdateFs imm =>
    have hfield : scaleField w = imm := BitVec.eq_of_toNat_eq (by
      rw [scaleField_toNat, hword]; simp only [opcodeOf, operandOf]; omega)
    simp [opcodeOf, formOf, hfield]
  | phInit ph | phApply ph | phSetCarrier ph =>
    have hfield : phField w = ph := BitVec.eq_of_toNat_eq (by
      rw [phField_toNat, hword]; simp only [opcodeOf, operandOf]; omega)
    simp [opcodeOf, formOf, hfield]
  | _ => rfl

/-- A word is that of the instruction in its row of the opcode map, if the reserved bits of the row's
form are 0 (30_encoding.md R88, R91). -/
theorem encode_of_opcodeRow {w : Word} {form : Form} {i : Instr}
    (hrow : opcodeRow w = some (form, i)) (hclear : w &&& form.mustBeZero = 0#32) :
    encode i = w := by
  refine BitVec.eq_of_toNat_eq ?_
  rw [encode_toNat]
  rw [mustBeZero_clear_iff] at hclear
  have hindex := indexField_toNat w
  have hscale := scaleField_toNat w
  have hphase := phField_toNat w
  unfold opcodeRow at hrow
  split at hrow <;> cases hrow <;>
    simp only [opField_toNat, opcodeOf, operandOf, reservedDigits] at * <;> omega

/-! ### The decoder -/

theorem decode_of_reserved {w : Word} (h : opcodeRow w = none) : decode w = .error .illegalOp := by
  rw [decode, h]

/-- The checks of the decoder, in their order (60_exceptions.md R187). -/
theorem decode_of_row {w : Word} {form : Form} {i : Instr} (h : opcodeRow w = some (form, i)) :
    decode w =
      if w &&& form.mustBeZero = 0#32 then if i.wf then .ok i else .error .badPhase
      else .error .rsvField := by
  rw [decode, h]

theorem decode_eq_ok {w : Word} {i : Instr} (h : decode w = .ok i) :
    ∃ form, opcodeRow w = some (form, i) ∧ w &&& form.mustBeZero = 0#32 ∧ i.wf = true := by
  rcases hrow : opcodeRow w with _ | ⟨form, j⟩
  · rw [decode_of_reserved hrow] at h
    cases h
  rw [decode_of_row hrow] at h
  split at h
  case isFalse => cases h
  split at h <;> cases h
  exact ⟨form, rfl, by assumption, by assumption⟩

theorem reservedBitsClear (i : Instr) : encode i &&& (formOf i).mustBeZero = 0#32 := by
  cases i with
  | nop => exact ReservedBitsClear.nop
  | tblRead imm => exact ReservedBitsClear.tblRead imm
  | phInit ph => exact ReservedBitsClear.phInit ph
  | phApply ph => exact ReservedBitsClear.phApply ph
  | phSetCarrier ph => exact ReservedBitsClear.phSetCarrier ph
  | invInit => exact ReservedBitsClear.invInit
  | invUpdateFs imm => exact ReservedBitsClear.invUpdateFs imm
  | scalerCheck => exact ReservedBitsClear.scalerCheck
  | fgIter => exact ReservedBitsClear.fgIter
  | adcInit => exact ReservedBitsClear.adcInit

/-- The word of any instruction decodes to it, or is refused for its phase (entry 19). -/
theorem decode_encode (i : Instr) :
    decode (encode i) = if i.wf then .ok i else .error .badPhase := by
  rw [decode_of_row (opcodeRow_encode i), if_pos (reservedBitsClear i)]

/-- Settles O5: the row of the opcode map is the instruction's, and its reserved bits are 0. -/
theorem decodeInvertsEncode : Obligations.DecodeInvertsEncode := fun i hwf =>
  (decode_encode i).trans (if_pos hwf)

/-- Settles O6: what the decoder accepts is a row of the opcode map with its reserved bits 0. -/
theorem encodeInvertsDecode : Obligations.EncodeInvertsDecode := by
  intro w i h
  obtain ⟨form, hrow, hclear, hwf⟩ := decode_eq_ok h
  exact ⟨hwf, encode_of_opcodeRow hrow hclear⟩

/-- Settles O7: each listed word is the word of the instruction listed with it. -/
theorem listedWordsDecode : Obligations.ListedWordsDecode :=
  ⟨decodeInvertsEncode .nop rfl, decodeInvertsEncode (.tblRead 5) rfl,
    decodeInvertsEncode (.phInit 1) rfl, decodeInvertsEncode (.phApply 2) rfl,
    decodeInvertsEncode (.phSetCarrier 1) rfl, decodeInvertsEncode .invInit rfl,
    decodeInvertsEncode (.invUpdateFs 0x4000) rfl, decodeInvertsEncode .scalerCheck rfl,
    decodeInvertsEncode .fgIter rfl, decodeInvertsEncode .adcInit rfl⟩

/-! ### The words the decoder refuses -/

/-- The form that an opcode selects, none for a reserved opcode (30_encoding.md R86). -/
def formOfOpcode : Nat → Option Form
  | 0 | 5 | 7 | 8 | 9 => some .none
  | 1 => some .index
  | 2 | 3 | 4 => some .phase
  | 6 => some .scale
  | _ => none

/-- The opcodes of a form (30_encoding.md R86). -/
def Form.opcodes : Form → List Nat
  | .none => [0, 5, 7, 8, 9]
  | .phase => [2, 3, 4]
  | .index => [1]
  | .scale => [6]

theorem formOfOpcode_eq_none_iff (op : Nat) : formOfOpcode op = none ↔ 0xA ≤ op := by
  unfold formOfOpcode
  split <;> grind

theorem formOfOpcode_eq_some_iff (op : Nat) (form : Form) :
    formOfOpcode op = some form ↔ op ∈ form.opcodes := by
  unfold formOfOpcode
  cases form <;> simp only [Form.opcodes] <;> split <;> simp_all

theorem opcodeRow_form (w : Word) : (opcodeRow w).map Prod.fst = formOfOpcode (w.toNat / 2 ^ 28) := by
  rw [← opField_toNat]
  unfold opcodeRow
  split <;> simp_all [formOfOpcode]

/-- Only a phase command can be ill formed, and it is when its phase field is 3 (30_encoding.md
R89). -/
theorem opcodeRow_illFormed_iff {w : Word} {form : Form} {i : Instr}
    (h : opcodeRow w = some (form, i)) :
    i.wf = false ↔ form = .phase ∧ w.toNat / 2 ^ 26 % 4 = 3 := by
  have hphase : phaseField (phField w) = false ↔ w.toNat / 2 ^ 26 % 4 = 3 := by
    rw [← phField_toNat]
    generalize phField w = ph
    revert ph
    decide
  unfold opcodeRow at h
  split at h <;> cases h <;> simp [Instr.wf, hphase]

/-- What a row of the opcode map is refused as (60_exceptions.md R187). -/
theorem decode_row_refused_iff {w : Word} {form : Form} {i : Instr}
    (h : opcodeRow w = some (form, i)) :
    decode w ≠ .error .illegalOp ∧
      (decode w = .error .rsvField ↔ w &&& form.mustBeZero ≠ 0) ∧
      (decode w = .error .badPhase ↔ w &&& form.mustBeZero = 0 ∧ i.wf = false) := by
  rw [decode_of_row h]
  by_cases hclear : w &&& form.mustBeZero = 0#32
  · cases hwf : i.wf <;> simp [hclear]
  · simp [hclear]

theorem decode_illegalOp_iff (w : Word) :
    decode w = .error .illegalOp ↔ formOfOpcode (w.toNat / 2 ^ 28) = none := by
  rw [← opcodeRow_form]
  rcases hrow : opcodeRow w with _ | ⟨form, i⟩
  · simp [decode_of_reserved hrow]
  · obtain ⟨hop, _, _⟩ := decode_row_refused_iff hrow
    simp [hop]

theorem decode_rsvField_iff (w : Word) :
    decode w = .error .rsvField ↔
      ∃ form, formOfOpcode (w.toNat / 2 ^ 28) = some form ∧ w &&& form.mustBeZero ≠ 0 := by
  rw [← opcodeRow_form]
  rcases hrow : opcodeRow w with _ | ⟨form, i⟩
  · simp [decode_of_reserved hrow]
  · obtain ⟨_, hrsv, _⟩ := decode_row_refused_iff hrow
    simp [hrsv]

theorem decode_badPhase_iff (w : Word) :
    decode w = .error .badPhase ↔
      formOfOpcode (w.toNat / 2 ^ 28) = some .phase ∧ w &&& Form.phase.mustBeZero = 0 ∧
        w.toNat / 2 ^ 26 % 4 = 3 := by
  rw [← opcodeRow_form]
  rcases hrow : opcodeRow w with _ | ⟨form, i⟩
  · simp [decode_of_reserved hrow]
  · obtain ⟨_, _, hphase⟩ := decode_row_refused_iff hrow
    rw [hphase, opcodeRow_illFormed_iff hrow, and_left_comm, Option.map_some, Option.some_inj]
    exact and_congr_right fun hform => by rw [hform]

theorem exists_form_iff (p : Form → Prop) :
    (∃ form, p form) ↔ p .none ∨ p .phase ∨ p .index ∨ p .scale := by
  refine ⟨fun ⟨form, h⟩ => ?_, ?_⟩
  · cases form <;> simp [h]
  · rintro (h | h | h | h) <;> exact ⟨_, h⟩

/-- Settles O8: the three refusals in terms of the form that the opcode selects, then the opcodes of
each form. -/
theorem decoderRefusesExactlyReservedWords : Obligations.DecoderRefusesExactlyReservedWords := by
  refine ⟨fun w => ?_, fun w => ?_, fun w => ?_⟩
  · rw [decode_illegalOp_iff, formOfOpcode_eq_none_iff]
  · simp only [decode_rsvField_iff, exists_form_iff, formOfOpcode_eq_some_iff, Form.opcodes,
      List.mem_singleton, Form.mustBeZero]
  · rw [decode_badPhase_iff, formOfOpcode_eq_some_iff]
    rfl

end Sys2Proof
end

section
/-! Proofs. The command port: a word the decoder refuses, and what a command does to `ERR`. -/

namespace Sys2Proof.Machine

/-! ### Refused words -/

theorem commandWrite_of_refused {w : Word} {e : CmdError} (h : decode w = .error e) (s : State) :
    commandWrite w s = .next (raise e s) := by
  rw [commandWrite, h]

/-- Settles O10: the step is the write of the word, which raises the decoder's error. -/
theorem stepRefusesUndecodableWord : Obligations.StepRefusesUndecodableWord :=
  fun _ _ _ _ _ hturn hprog hi =>
    have hstep := step_of_command hturn hprog hi
    ⟨fun hd => hstep.trans (commandWrite_of_refused hd _),
      fun hd => hstep.trans (commandWrite_of_refused hd _),
      fun hd => hstep.trans (commandWrite_of_refused hd _)⟩

/-! ### The errors of a command -/

/-- A command leaves `ERR` as it was, or raises one error, which is not that of the bus, and does nothing
else (60_exceptions.md R186, R188). -/
def ErrKeptOrRaised (s t : State) : Prop := t.err = s.err ∨ ∃ e, e ≠ .bus ∧ t = raise e s

theorem ErrKeptOrRaised.raise {e : CmdError} (he : e ≠ .bus) (s : State) :
    ErrKeptOrRaised s (raise e s) := .inr ⟨e, he, rfl⟩

/-- A command that may run only under a condition raises its error when the condition fails. -/
theorem ErrKeptOrRaised.of_ite {s t u : State} {p : Prop} [Decidable p]
    (ht : ErrKeptOrRaised s t) (hu : ErrKeptOrRaised s u) :
    ErrKeptOrRaised s (if p then t else u) := by
  split
  · exact ht
  · exact hu

theorem foreground_errKeptOrRaised {run : State → State} {s : State}
    (h : ErrKeptOrRaised s (run s)) : ErrKeptOrRaised s (foreground run s) :=
  .of_ite (.raise (by decide) s) h

theorem phaseCommand_errKeptOrRaised {run : Phase → State → State} {s : State}
    (h : ∀ k, ErrKeptOrRaised s (run k s)) (ph : BitVec 2) :
    ErrKeptOrRaised s (phaseCommand ph run s) := by
  unfold phaseCommand
  split
  · exact .raise (by decide) s
  · exact foreground_errKeptOrRaised (.of_ite (h _) (.inl rfl))

theorem phInitProc_err (k : Phase) (s : State) : (phInitProc k s).err = s.err := by
  rw [phInitProc_eq]

theorem channelInits_err (s : State) : (channelInits s).err = s.err :=
  List.foldlRecOn (motive := fun u => u.err = s.err) _ _ (tookOrder_err s)
    fun u hu k _ => (phInitProc_err k u).trans hu

theorem invInitProc_err (s : State) : (invInitProc s).err = s.err := by
  rw [invInitProc_eq]
  exact channelInits_err s

theorem exec_errKeptOrRaised {i : Instr} {s t : State} (h : exec i s = .next t) :
    ErrKeptOrRaised s t := by
  cases i with
  | nop =>
    cases h
    exact .inl rfl
  | tblRead imm =>
    cases h
    unfold tblRead
    exact .of_ite (.raise (by decide) s) (.inl rfl)
  | phInit ph =>
    cases h
    refine phaseCommand_errKeptOrRaised (fun k => ?_) ph
    unfold phInitChecked
    exact .of_ite (.raise (by decide) s) (.inl (phInitProc_err k s))
  | phApply ph =>
    cases h
    refine phaseCommand_errKeptOrRaised (fun k => ?_) ph
    unfold phApplyChecked
    exact .of_ite (.inl (applyProc_taskFrame k s).err) (.raise (by decide) s)
  | phSetCarrier ph =>
    cases h
    refine phaseCommand_errKeptOrRaised (fun k => ?_) ph
    unfold phSetCarrierChecked
    exact .of_ite (.inl (setCarrier_taskFrame k _ s).err) (.raise (by decide) s)
  | invInit =>
    cases h
    refine foreground_errKeptOrRaised ?_
    unfold invInitChecked
    exact .of_ite (.raise (by decide) s) (.inl (invInitProc_err s))
  | invUpdateFs imm =>
    cases h
    refine foreground_errKeptOrRaised ?_
    unfold invUpdateFsChecked
    refine .of_ite ?_ (.raise (by decide) s)
    exact .of_ite (.raise (by decide) s) (.inl (updateFs_taskFrame imm s).err)
  | scalerCheck =>
    cases h
    refine foreground_errKeptOrRaised ?_
    unfold scalerCheckChecked
    exact .of_ite (.inl (scalerCheck_taskFrame s).err) (.raise (by decide) s)
  | fgIter =>
    cases h
    refine foreground_errKeptOrRaised ?_
    unfold fgIterChecked
    exact .of_ite (.inl (fgIterProc_taskFrame s).err) (.raise (by decide) s)
  | adcInit =>
    cases h
    exact foreground_errKeptOrRaised (.inl (adcInitProc_taskFrame s).err)

/-- The decoder's refusals are not that of the bus (30_encoding.md R88). -/
theorem decode_ne_bus (w : Word) : decode w ≠ .error .bus := by
  rcases hrow : opcodeRow w with _ | ⟨form, i⟩
  · rw [decode_of_reserved hrow]
    simp
  · rw [decode_of_row hrow]
    split <;> [split; skip] <;> simp

theorem commandWrite_errKeptOrRaised {w : Word} {s t : State} (h : commandWrite w s = .next t) :
    ErrKeptOrRaised s t := by
  rcases hd : decode w with e | i
  · rw [commandWrite_of_refused hd] at h
    cases h
    exact .raise (fun he => decode_ne_bus w (he ▸ hd)) s
  · rw [commandWrite_of_decode hd] at h
    exact exec_errKeptOrRaised h

/-- Every error but that of the bus has one of the low eight bits (10_state.md R54). -/
theorem errBit_low {e : CmdError} (he : e ≠ .bus) :
    ∃ b : Fin 8, errBit e = BitVec.twoPow 9 b.val := by
  cases e with
  | bus => exact absurd rfl he
  | _ => decide

/-- Settles O13: a command that changes `ERR` raised one error and did nothing else. -/
theorem refusedCommandChangesOnlyErr : Obligations.RefusedCommandChangesOnlyErr := by
  intro w s
  obtain ⟨t, ht, _⟩ := commandWrite_effect w s
  refine ⟨t, ht, fun hne => ?_⟩
  rcases commandWrite_errKeptOrRaised ht with hkept | ⟨e, he, rfl⟩
  · exact absurd hkept hne
  · obtain ⟨b, hb⟩ := errBit_low he
    exact ⟨b, hb ▸ rfl⟩

/-! ### A phase command while the sequencer is idle -/

theorem phaseOperand_of_toNat {ph : BitVec 2} {k : Phase} (h : ph.toNat = k.toNat) :
    phaseOperand ph = some k := by
  rw [phaseOperand, h]
  cases k <;> rfl

/-- While the sequencer is idle a phase command is its procedure on a channel that exists, and nothing
on an absent one (60_exceptions.md R187). -/
theorem phaseCommand_of_idle {ph : BitVec 2} {k : Phase} {s : State} (hk : ph.toNat = k.toNat)
    (hb : seqActive s = false) (run : Phase → State → State) :
    phaseCommand ph run s = if s.cfg.present.get k then run k s else s := by
  rw [phaseCommand, phaseOperand_of_toNat hk]
  exact if_neg (ne_true_of_eq_false hb)

theorem exec_phSetCarrier (ph : BitVec 2) (s : State) :
    exec (.phSetCarrier ph) s = .next (phaseCommand ph phSetCarrierChecked s) := rfl

/-- Settles O20: on an existing channel the command is `SetCarrier` with `ARG`, once initialised. -/
theorem phaseSetCarrierForwardsArg : Obligations.PhaseSetCarrierForwardsArg := by
  intro s ph k hk hb
  rw [exec_phSetCarrier, phaseCommand_of_idle hk hb]
  refine ⟨fun habsent => ?_, fun hpresent hinit => ?_, fun hpresent hinit => ?_⟩
  · rw [if_neg (ne_true_of_eq_false habsent)]
  · rw [if_pos hpresent, phSetCarrierChecked, if_neg (ne_true_of_eq_false hinit)]
    rfl
  · rw [if_pos hpresent, phSetCarrierChecked, if_pos hinit, setCarrier_eq]
    rfl

end Sys2Proof.Machine
end

section
/-! Proofs. Host programs: the accesses of a statement, the entries of a line, and which turn of a
program is given an answer. -/

namespace Sys2Proof.Machine

/-! ### Accesses that read no port -/

/-- Only a write of `CMD` is a command (20_memory.md R69, R72). -/
theorem isCommand_writeAccess (c : Config) {r : Reg} (hr : r ≠ .cmd) (v : Word) :
    isCommand c (writeAccess c r v) = false := by
  simp only [isCommand, writeAccess, windowOffset_base c (regOffset_lt r), Option.bind_some,
    accessReg_regOffset]
  simpa using hr

theorem accessReadsPorts_writeAccess (c : Config) {r : Reg} (hr : r ≠ .cmd) (v : Word) :
    accessReadsPorts c (writeAccess c r v) = false := by
  have h := isCommand_writeAccess c hr v
  simp only [writeAccess] at h ⊢
  simp only [accessReadsPorts, h, Bool.false_and]

theorem accessReadsPorts_of_refused (c : Config) {w : Word} {e : CmdError}
    (h : decode w = .error e) : accessReadsPorts c (commandAccess c w) = false := by
  rw [accessReadsPorts_commandAccess, h]

theorem accessReadsPorts_of_decode (c : Config) {w : Word} {i : Instr} (h : decode w = .ok i) :
    accessReadsPorts c (commandAccess c w) = readsPorts i := by
  rw [accessReadsPorts_commandAccess, h]

/-- Only the two commands that run `ScalerCheck` read the ports (20_memory.md R76). -/
theorem readsPorts_of_other {i : Instr} (hs : i ≠ .scalerCheck) (hf : i ≠ .fgIter) :
    readsPorts i = false := by
  cases i with
  | scalerCheck => exact absurd rfl hs
  | fgIter => exact absurd rfl hf
  | _ => rfl

/-- The word of an instruction that is neither of them reads no port, whether it decodes or
not (entry 19). -/
theorem accessReadsPorts_encode (c : Config) {i : Instr} (hs : i ≠ .scalerCheck)
    (hf : i ≠ .fgIter) : accessReadsPorts c (commandAccess c (encode i)) = false := by
  have hd := decode_encode i
  split at hd
  · rw [accessReadsPorts_of_decode c hd, readsPorts_of_other hs hf]
  · exact accessReadsPorts_of_refused c hd

/-- Every access of a pseudo-instruction reads no port (30_encoding.md R95). -/
theorem accessReadsPorts_pseudo (c : Config) (p : Pseudo) :
    ∀ a ∈ stmtAccesses c (.pseudo p), accessReadsPorts c a = false := by
  cases p <;>
    simp [stmtAccesses, expandPseudo, plainAccesses, accessReadsPorts_writeAccess,
      accessReadsPorts_encode]

/-! ### Entries that are given no answer -/

/-- The agent of an entry that is a turn. -/
def entryAgent : Entry → Option AgentStep
  | .turn agent _ _ => some agent
  | .time _ => none
  | .sample _ => none

/-- An entry that is a turn which reads no port. -/
def IsOtherTurn (c : Config) : Entry → Prop
  | .turn agent access _ => turnReadsPorts c agent access = false
  | .time _ => False
  | .sample _ => False

/-- A turn that is given no answer. -/
def unanswered (a : AgentStep) : Turn := ⟨a, .none⟩

/-- The entries `es` come to the host's accesses `as` and the turns of `agents`, none of which reads
the ports. -/
structure OtherTurns (c : Config) (es : List Entry) (as : List HostAccess)
    (agents : List AgentStep) : Prop where
  others : ∀ e ∈ es, IsOtherTurn c e
  accesses : es.filterMap entryAccess = as
  agents : es.filterMap entryAgent = agents

theorem OtherTurns.nil (c : Config) : OtherTurns c [] [] [] := ⟨by simp, rfl, rfl⟩

theorem OtherTurns.append {c : Config} {es fs : List Entry} {as bs : List HostAccess}
    {agents more : List AgentStep} (h : OtherTurns c es as agents) (g : OtherTurns c fs bs more) :
    OtherTurns c (es ++ fs) (as ++ bs) (agents ++ more) where
  others := by
    simp only [List.mem_append]
    exact fun e he => he.elim (h.others e) (g.others e)
  accesses := by rw [List.filterMap_append, h.accesses, g.accesses]
  agents := by rw [List.filterMap_append, h.agents, g.agents]

/-- Turns that read no port are given no answer and leave every answer waiting. -/
theorem turnsOf_others {c : Config} {es : List Entry} (h : ∀ e ∈ es, IsOtherTurn c e)
    (waiting : Answers) :
    turnsOf c waiting es = (es.filterMap entryAgent).map unanswered ∧
      waitingAfter c waiting es = waiting := by
  induction es with
  | nil => exact ⟨rfl, rfl⟩
  | cons e es ih =>
    obtain ⟨he, hes⟩ := List.forall_mem_cons.mp h
    obtain ⟨iht, ihw⟩ := ih hes
    cases e with
    | time => cases he
    | sample => cases he
    | turn agent access order =>
      have hno : turnReadsPorts c agent access = false := he
      simp [turnsOf, waitingAfter, hno, iht, ihw, entryAgent, unanswered]

/-- The entries of a host's statement of which no access reads the ports. -/
theorem otherTurns_of_stmt {c : Config} {st : Stmt}
    (h : ∀ a ∈ stmtAccesses c st, accessReadsPorts c a = false) :
    OtherTurns c (lineEntries c (.stmt st)) (stmtAccesses c st)
      ((stmtAccesses c st).map fun _ => .host) where
  others := by
    simpa [lineEntries, IsOtherTurn, turnReadsPorts] using h
  accesses := by simp [lineEntries, List.filterMap_map, Function.comp_def, entryAccess]
  agents := by simp [lineEntries, List.filterMap_map, Function.comp_def, entryAgent]

theorem OtherLine.otherTurns {c : Config} {line : Line} {as : List HostAccess}
    {agents : List AgentStep} (h : OtherLine c line as agents) :
    OtherTurns c (lineEntries c line) as agents := by
  cases h with
  | agent a ha =>
    exact ⟨by simpa [lineEntries, IsOtherTurn, turnReadsPorts] using ha, rfl, rfl⟩
  | isr => exact ⟨by simp [lineEntries, IsOtherTurn, turnReadsPorts], rfl, rfl⟩
  | command i hi =>
    obtain ⟨hs, hf⟩ := hi
    exact otherTurns_of_stmt (List.forall_mem_singleton.mpr (accessReadsPorts_encode c hs hf))
  | read r => exact otherTurns_of_stmt (List.forall_mem_singleton.mpr rfl)
  | write r v hr =>
    exact otherTurns_of_stmt (List.forall_mem_singleton.mpr (accessReadsPorts_writeAccess c hr v))
  | refused w e hd =>
    exact otherTurns_of_stmt (List.forall_mem_singleton.mpr (accessReadsPorts_of_refused c hd))
  | pseudo p => exact otherTurns_of_stmt (accessReadsPorts_pseudo c p)

/-- Any number of such lines. -/
theorem otherTurns_of_lines {c : Config} (others : List (Line × List HostAccess × List AgentStep))
    (h : ∀ line as agents, (line, as, agents) ∈ others → OtherLine c line as agents) :
    OtherTurns c ((others.map fun o => o.1).flatMap (lineEntries c)) (others.flatMap fun o => o.2.1)
      (others.flatMap fun o => o.2.2) := by
  induction others with
  | nil => exact .nil c
  | cons o os ih =>
    have hhead := (h _ _ _ List.mem_cons_self).otherTurns
    have htail := ih fun line as agents hmem => h line as agents (List.mem_cons_of_mem o hmem)
    exact hhead.append htail

/-! ### Loading lines after a program -/

theorem adding_nil (s : State) : adding s [] [] = s := by simp [adding]

theorem adding_adding (s : State) (as bs : List HostAccess) (ts us : List Turn) :
    adding (adding s as ts) bs us = adding s (as ++ bs) (ts ++ us) := by
  simp [adding]

theorem waitingAfterLines_append (c : Config) (ls ms : List Line) :
    waitingAfterLines c (ls ++ ms) =
      waitingAfter c (waitingAfterLines c ls) (ms.flatMap (lineEntries c)) := by
  rw [waitingAfterLines, List.flatMap_append, waitingAfter_append]
  rfl

/-- Lines that read no port are given no answer (30_encoding.md R94). -/
theorem loadProgram_append_others {ms : List Line} {s : State} {as : List HostAccess}
    {agents : List AgentStep} (h : OtherTurns s.cfg (ms.flatMap (lineEntries s.cfg)) as agents)
    (ls : List Line) :
    loadProgram (ls ++ ms) s = adding (loadProgram ls s) as (agents.map unanswered) := by
  obtain ⟨hturns, _⟩ := turnsOf_others h.others (waitingAfterLines s.cfg ls)
  rw [loadProgram_append, hturns, h.accesses, h.agents]

/-- Answers pass over lines that read no port (entry 20). -/
theorem waitingAfterLines_append_others {c : Config} {ms : List Line} {as : List HostAccess}
    {agents : List AgentStep} (h : OtherTurns c (ms.flatMap (lineEntries c)) as agents)
    (ls : List Line) : waitingAfterLines c (ls ++ ms) = waitingAfterLines c ls := by
  rw [waitingAfterLines_append]
  exact (turnsOf_others h.others _).2

/-! ### Lines that answer -/

theorem loadProgram_append_time (ls : List Line) (t : BitVec 64) (s : State) :
    loadProgram (ls ++ [.time t]) s = loadProgram ls s :=
  (loadProgram_append ls _ s).trans (adding_nil _)

theorem loadProgram_append_adc (ls : List Line) (r : BitVec 16) (s : State) :
    loadProgram (ls ++ [.adc r]) s = loadProgram ls s :=
  (loadProgram_append ls _ s).trans (adding_nil _)

theorem waitingAfterLines_append_time (c : Config) (ls : List Line) (t : BitVec 64) :
    waitingAfterLines c (ls ++ [.time t]) = { waitingAfterLines c ls with time := some t } :=
  waitingAfterLines_append c ls _

theorem waitingAfterLines_append_adc (c : Config) (ls : List Line) (r : BitVec 16) :
    waitingAfterLines c (ls ++ [.adc r]) = { waitingAfterLines c ls with sample := some r } :=
  waitingAfterLines_append c ls _

/-! ### Lines that read the ports -/

/-- The four lines that read the ports, each with the host's accesses, the agent and the drawn order
it comes to (30_encoding.md R94, 20_memory.md R76). -/
def portReaders (c : Config) (d : Nat) :
    List (Line × List HostAccess × AgentStep × Option Nat) :=
  [ (.stmt (.cmd .scalerCheck), [commandAccess c 0x70000000#32], .host, none),
    (.stmt (.cmd .fgIter), [commandAccess c 0x80000000#32], .host, none),
    (.fgIter d, [commandAccess c 0x80000000#32], .host, some d),
    (.agent (.seqTask .scaler), [], .seqTask .scaler, none) ]

/-- Such a line is one turn, which reads the ports. -/
theorem lineEntries_of_portReader {c : Config} {d : Nat} {line : Line} {as : List HostAccess}
    {agent : AgentStep} {order : Option Nat} (h : (line, as, agent, order) ∈ portReaders c d) :
    ∃ access : Option HostAccess, lineEntries c line = [.turn agent access order] ∧
      access.toList = as ∧ turnReadsPorts c agent access = true := by
  have hscaler : turnReadsPorts c .host (some (commandAccess c 0x70000000#32)) = true :=
    accessReadsPorts_of_decode c (decodeInvertsEncode .scalerCheck rfl)
  have hiter : turnReadsPorts c .host (some (commandAccess c 0x80000000#32)) = true :=
    accessReadsPorts_of_decode c (decodeInvertsEncode .fgIter rfl)
  simp only [portReaders, List.mem_cons, List.not_mem_nil, or_false, Prod.mk.injEq] at h
  rcases h with ⟨rfl, rfl, rfl, rfl⟩ | ⟨rfl, rfl, rfl, rfl⟩ | ⟨rfl, rfl, rfl, rfl⟩ |
    ⟨rfl, rfl, rfl, rfl⟩
  · exact ⟨_, rfl, rfl, hscaler⟩
  · exact ⟨_, rfl, rfl, hiter⟩
  · exact ⟨_, rfl, rfl, hiter⟩
  · exact ⟨none, rfl, rfl, rfl⟩

section
variable {d : Nat} {line : Line} {as : List HostAccess} {agent : AgentStep} {order : Option Nat}

/-- A line that reads the ports is given the time and the sample that are waiting, and its own order
(30_encoding.md R94). -/
theorem loadProgram_append_reader {s : State}
    (h : (line, as, agent, order) ∈ portReaders s.cfg d) (ls : List Line) :
    loadProgram (ls ++ [line]) s =
      adding (loadProgram ls s) as
        [⟨agent, { waitingAfterLines s.cfg ls with order := order }⟩] := by
  obtain ⟨access, hentries, rfl, hreads⟩ := lineEntries_of_portReader h
  rw [loadProgram_append, List.flatMap_singleton, hentries, turnsOf, if_pos hreads]
  cases access <;> rfl

/-- An answer is given once: nothing waits after a line that reads the ports. -/
theorem waitingAfterLines_append_reader {c : Config}
    (h : (line, as, agent, order) ∈ portReaders c d) (ls : List Line) :
    waitingAfterLines c (ls ++ [line]) = .none := by
  obtain ⟨access, hentries, _, hreads⟩ := lineEntries_of_portReader h
  rw [waitingAfterLines_append, List.flatMap_singleton, hentries, waitingAfter, if_pos hreads]
  rfl

end

/-! ### The statements -/

/-- Settles O58: the reader is given what waits, and nothing waits after an earlier reader but what the
lines between the two give. -/
theorem answersReachTheCommandThatFollows : Obligations.AnswersReachTheCommandThatFollows := by
  intro ls s t r d readers
  refine ⟨fun line as agent order hline => ⟨?_, fun earlier hearlier => ?_⟩, fun i hs hf => ?_⟩
  · rw [List.append_cons, List.append_cons, loadProgram_append_reader hline,
      loadProgram_append_adc, loadProgram_append_time, waitingAfterLines_append_adc,
      waitingAfterLines_append_time]
  · obtain ⟨⟨_, bs, first, o⟩, hfirst, rfl⟩ := List.mem_map.mp hearlier
    have hnone := waitingAfterLines_append_reader hfirst ls
    refine ⟨?_, ?_, ?_⟩
    · rw [List.append_cons, loadProgram_append_reader hline, hnone]
      rfl
    · rw [List.append_cons, List.append_cons, loadProgram_append_reader hline,
        loadProgram_append_time, waitingAfterLines_append_time, hnone]
      rfl
    · rw [List.append_cons, List.append_cons, loadProgram_append_reader hline,
        loadProgram_append_adc, waitingAfterLines_append_adc, hnone]
      rfl
  · have hother : OtherLine s.cfg (.stmt (.cmd i)) _ _ := .command i ⟨hs, hf⟩
    exact loadProgram_append_others (ms := [.stmt (.cmd i)]) hother.otherTurns ls

/-- A command word written by `WR CMD` makes the same access as its command (30_encoding.md R94). -/
theorem lineEntries_commandWord (c : Config) {w : Word} {i : Instr} (h : decode w = .ok i) :
    lineEntries c (.stmt (.wr .cmd w)) = lineEntries c (.stmt (.cmd i)) := by
  obtain ⟨_, rfl⟩ := encodeInvertsDecode w i h
  rfl

/-- Settles O59: the other lines are given no answer and leave those before them waiting for the
reader. -/
theorem otherLinesAreGivenNoAnswer : Obligations.OtherLinesAreGivenNoAnswer := by
  intro ls s t r d u readers
  refine ⟨?_, fun w i ms hd => ?_⟩
  · intro others hothers lines accesses turns
    have h := otherTurns_of_lines others hothers
    have hturns : (others.flatMap fun o => o.2.2).map unanswered = turns := List.map_flatMap
    have hload : ∀ ms, loadProgram (ms ++ lines) s = adding (loadProgram ms s) accesses turns :=
      fun ms => hturns ▸ loadProgram_append_others h ms
    refine ⟨hload ls, fun line as agent order hline => ?_⟩
    rw [loadProgram_append_reader hline, hload, waitingAfterLines_append_others h, List.append_cons,
      loadProgram_append_adc, loadProgram_append_time, waitingAfterLines_append_adc,
      waitingAfterLines_append_time, adding_adding]
  · simp only [loadProgram, List.flatMap_append, List.flatMap_cons,
      lineEntries_commandWord s.cfg hd]

/-- Settles O57: the expansion, at the offsets of the map, and the word of the phase. -/
theorem pseudoInstructionsExpand : Obligations.PseudoInstructionsExpand := by
  refine fun c => ⟨fun k hz => ?_, rfl, rfl, rfl, rfl⟩
  have hword : encode (.phSetCarrier (phaseBits k)) =
      BitVec.ofNat 32 (0x40000000 + k.toNat * 2 ^ 26) := by
    cases k <;> rfl
  rw [← hword]
  rfl

end Sys2Proof.Machine
end

section
/-! Proofs. The command `TBL_READ`: an index that has an entry reads it, any other is refused. -/

namespace Sys2Proof.Machine

/-! ### A word with a reserved bit set -/

/-- A word of a known opcode with a bit set that its form reserves is `RSV_FIELD`
(30_encoding.md R87, 60_exceptions.md R187). -/
theorem commandWrite_of_reservedBits {w : Word} {form : Form}
    (hop : formOfOpcode (w.toNat / 2 ^ 28) = some form) (hbits : w &&& form.mustBeZero ≠ 0)
    (s : State) : commandWrite w s = .next (raise .rsvField s) :=
  commandWrite_of_refused ((decode_rsvField_iff w).mpr ⟨form, hop, hbits⟩) s

/-! ### The entry of an index -/

/-- An index has an entry exactly when it is below `N` (40_sine_table.md R111). -/
theorem lt_n_iff_exists_entry (c : Config) (i : Nat) : i < c.n ↔ ∃ t, c.table[i]? = some t := by
  simp [← config_table_length c, ← Option.isSome_iff_exists]

theorem exec_tblRead_of_entry {imm : BitVec 12} {s : State} {t : BitVec 16}
    (h : s.cfg.table[imm.toNat]? = some t) :
    exec (.tblRead imm) s = .next { s with result := t.setWidth 32 } := by
  have hlt : imm.toNat < s.cfg.n := (lt_n_iff_exists_entry s.cfg _).mpr ⟨t, h⟩
  have hread : tableAt s.cfg imm.toNat = t := by
    rw [tableAt, List.getD_eq_getElem?_getD, h, Option.getD_some]
  rw [← hread]
  exact congrArg Host.Outcome.next (if_neg (Nat.not_le.mpr hlt))

theorem exec_tblRead_of_ge {imm : BitVec 12} {s : State} (h : s.cfg.n ≤ imm.toNat) :
    exec (.tblRead imm) s = .next (raise .badIndex s) :=
  congrArg Host.Outcome.next (if_pos h)

/-- Settles O17: an index below `N` has an entry, entry 0 and entry 11 of the reference table are
given, and the rest is refused. -/
theorem tableReadReturnsEntry : Obligations.TableReadReturnsEntry := by
  intro s imm
  obtain ⟨_, ⟨_, _, hzero⟩, _⟩ := config_parts s.cfg
  refine ⟨rfl, fun hlt => ?entry, exec_tblRead_of_ge, ?zero, ?reference,
    fun w hop hbits => ?reserved⟩
  case entry =>
    obtain ⟨t, ht⟩ := (lt_n_iff_exists_entry s.cfg _).mp hlt
    exact ⟨t, ht, exec_tblRead_of_entry ht⟩
  case zero =>
    rintro rfl
    exact exec_tblRead_of_entry (imm := 0) hzero
  case reference =>
    rintro htable rfl
    have hentry : s.cfg.table[(11#12).toNat]? = some 0x5D4D#16 := by
      rw [htable]
      rfl
    exact ⟨rfl, exec_tblRead_of_entry hentry⟩
  case reserved =>
    exact commandWrite_of_reservedBits (form := .index) (by rw [hop]; rfl) hbits s

end Sys2Proof.Machine
end

section
/-! Proofs. `DutyLaw`: its endpoints and monotonicity, the 32-bit datapath, and the real-valued law it
rounds. -/

namespace Sys2Proof.Machine

/-! ### The integer of the law -/

/-- On legal operands the duty is the word whose number is the law's integer (41_phase_channel.md R122). -/
theorem dutyLaw_eq_of_dutyInt {t s d : BitVec 16} (ht : t.toNat ≤ 25600) (hs : s.toNat ≤ 32768)
    (h : dutyInt t s = d.toNat) : dutyLaw t s = d :=
  BitVec.eq_of_toNat_eq (Int.ofNat_inj.mp ((dutyLaw_toNat ht hs).trans h))

theorem dutyInt_zero_scale (t : BitVec 16) : dutyInt t 0 = 12800 := by
  simp [dutyInt]

theorem dutyInt_full_scale (t : BitVec 16) : dutyInt t 32768 = t.toNat := by
  have hfull : (32768#16).toNat = 32768 := rfl
  rw [dutyInt, BitVec.ofNat_eq_ofNat, hfull]
  omega

theorem dutyInt_centre (s : BitVec 16) : dutyInt 12800 s = 12800 := by
  simp [dutyInt]

/-- The law keeps the order of the scaled deviations from 50 percent. -/
theorem dutyInt_le_dutyInt {t s u r : BitVec 16}
    (h : ((t.toNat : Int) - 12800) * s.toNat ≤ ((u.toNat : Int) - 12800) * r.toNat) :
    dutyInt t s ≤ dutyInt u r := by
  unfold dutyInt
  omega

theorem dutyLaw_le_dutyLaw {t s u r : BitVec 16} (ht : t.toNat ≤ 25600) (hs : s.toNat ≤ 32768)
    (hu : u.toNat ≤ 25600) (hr : r.toNat ≤ 32768)
    (h : ((t.toNat : Int) - 12800) * s.toNat ≤ ((u.toNat : Int) - 12800) * r.toNat) :
    (dutyLaw t s).toNat ≤ (dutyLaw u r).toNat := by
  have hle := dutyInt_le_dutyInt h
  rwa [← dutyLaw_toNat ht hs, ← dutyLaw_toNat hu hr, Int.ofNat_le] at hle

/-- Settles O29: the integer of the law at the endpoints, and the order of the scaled deviations. -/
theorem dutyLawProperties : Obligations.DutyLawProperties := by
  intro t s ht hs
  refine ⟨?zero, ?full, dutyLaw_le ht hs, ?centre, fun u hu htu => ?table, fun r hr hsr => ?scale⟩
  case zero => exact dutyLaw_eq_of_dutyInt ht (by decide) (dutyInt_zero_scale t)
  case full => exact dutyLaw_eq_of_dutyInt ht (by decide) (dutyInt_full_scale t)
  case centre => exact dutyLaw_eq_of_dutyInt (by decide) hs (dutyInt_centre s)
  case table =>
    exact dutyLaw_le_dutyLaw ht hs hu hs
      (Int.mul_le_mul_of_nonneg_right (by omega) (Int.natCast_nonneg _))
  case scale =>
    have hsr' : (s.toNat : Int) ≤ r.toNat := Int.ofNat_le.mpr hsr
    refine ⟨fun habove => dutyLaw_le_dutyLaw ht hs ht hr ?_,
      fun hbelow => dutyLaw_le_dutyLaw ht hr ht hs ?_⟩
    · exact Int.mul_le_mul_of_nonneg_left hsr' (by omega)
    · exact Int.mul_le_mul_of_nonpos_left (by omega) hsr'

/-! ### The datapath -/

/-- The product of the datapath fits its 32 bits (41_phase_channel.md R122). -/
theorem abs_deviation_mul_scale_le {t s : BitVec 16} (ht : t.toNat ≤ 25600) (hs : s.toNat ≤ 32768) :
    |((t.toNat : Int) - 12800) * (s.toNat : Int)| ≤ 419430400 := by
  have hd : |(t.toNat : Int) - 12800| ≤ 12800 := abs_le.mpr ⟨by omega, by omega⟩
  have hsc : |(s.toNat : Int)| ≤ 32768 := abs_le.mpr ⟨by omega, by omega⟩
  calc |((t.toNat : Int) - 12800) * (s.toNat : Int)|
      = |(t.toNat : Int) - 12800| * |(s.toNat : Int)| := abs_mul _ _
    _ ≤ 12800 * 32768 := mul_le_mul hd hsc (abs_nonneg _) (by norm_num)

theorem setWidth_eq_ofInt (x : BitVec 16) : x.setWidth 32 = BitVec.ofInt 32 x.toNat := by
  rw [BitVec.ofInt_natCast, BitVec.ofNat_toNat]

/-- The arithmetic shift by 15 of a number that fits the datapath is its floor division by 32768. -/
theorem sshiftRight_ofInt {p : Int} (hlo : -2147483648 ≤ p) (hhi : p < 2147483648) :
    (BitVec.ofInt 32 p).sshiftRight 15 = BitVec.ofInt 32 (p / 32768) := by
  rw [BitVec.sshiftRight_eq, BitVec.toInt_ofInt_eq_self (by decide) hlo hhi,
    Int.shiftRight_eq_div_pow]
  rfl

/-- Settles O30: each operation of the datapath is the integer one, because the product fits. -/
theorem dutyLawMatchesDatapath : Obligations.DutyLawMatchesDatapath := by
  intro t s ht hs
  have hbound := abs_deviation_mul_scale_le ht hs
  refine ⟨dutyLaw_toNat ht hs, dutyLaw_le ht hs, hbound, ?_⟩
  obtain ⟨hlo, hhi⟩ := abs_le.mp hbound
  have hshift := sshiftRight_ofInt (p := ((t.toNat : Int) - 12800) * s.toNat + 16384)
    (by omega) (by omega)
  have hcentre : BitVec.ofInt 32 12800 = 12800#32 := rfl
  have hhalf : BitVec.ofInt 32 16384 = 0x4000#32 := rfl
  calc (dutyLaw t s).setWidth 32
      = BitVec.ofInt 32 (dutyInt t s) := by rw [setWidth_eq_ofInt, dutyLaw_toNat ht hs]
    _ = BitVec.ofInt 32 ((((t.toNat : Int) - 12800) * s.toNat + 16384) / 32768) + 12800#32 := by
      rw [dutyInt, Int.add_comm, BitVec.ofInt_add, hcentre]
    _ = _ := by
      rw [← hshift, BitVec.ofInt_add, BitVec.ofInt_mul, Int.sub_eq_add_neg, BitVec.ofInt_add,
        BitVec.ofInt_neg, ← BitVec.sub_eq_add_neg, hcentre, hhalf, ← setWidth_eq_ofInt,
        ← setWidth_eq_ofInt]

/-! ### The real-valued law -/

/-- The source's duty in units of 1/256 percent (41_phase_channel.md R124). -/
theorem real_duty_eq {t s : BitVec 16} {x : ℚ}
    (hx : x = ((t.toNat : ℚ) / 256 - 50) * ((s.toNat : ℚ) / 32768) + 50) :
    256 * x = 12800 + ((t.toNat : ℚ) - 12800) * s.toNat / 32768 := by
  rw [hx]
  ring

/-- How far the law's integer is from the source's duty: half a unit less the remainder of its
division, in 32768ths (41_phase_channel.md R124). -/
theorem dutyInt_sub_real {t s : BitVec 16} {x : ℚ}
    (hx : x = ((t.toNat : ℚ) / 256 - 50) * ((s.toNat : ℚ) / 32768) + 50) :
    (dutyInt t s : ℚ) - 256 * x =
      ((16384 - (((t.toNat : Int) - 12800) * s.toNat + 16384) % 32768 : Int) : ℚ) / 32768 := by
  have hdiv := Int.mul_ediv_add_emod (((t.toNat : Int) - 12800) * s.toNat + 16384) 32768
  have hdiv' := congrArg (Int.cast : Int → ℚ) hdiv
  rw [real_duty_eq hx, dutyInt]
  push_cast at hdiv' ⊢
  linarith

/-- The law's integer is the source's duty rounded to nearest, ties up (41_phase_channel.md R124). -/
theorem dutyInt_eq_floor {t s : BitVec 16} {x : ℚ}
    (hx : x = ((t.toNat : ℚ) / 256 - 50) * ((s.toNat : ℚ) / 32768) + 50) :
    dutyInt t s = ⌊256 * x + 1 / 2⌋ := by
  have hfrac : 256 * x + 1 / 2 = ((12800 : Int) : ℚ) +
      (((((t.toNat : Int) - 12800) * s.toNat + 16384 : Int) : ℚ) / ((32768 : Nat) : ℚ)) := by
    rw [real_duty_eq hx]
    push_cast
    ring
  rw [hfrac, Int.floor_intCast_add, Rat.floor_intCast_div_natCast, dutyInt]
  rfl

/-- The distance of a rounding to nearest is at most half a unit, and half a unit exactly at a tie. -/
theorem abs_rounding_error (p : Int) :
    |16384 - (p + 16384) % 32768| ≤ 16384 ∧
      (|16384 - (p + 16384) % 32768| = 16384 ↔ p % 32768 = 16384) := by
  rw [abs_le, abs_eq (by norm_num)]
  omega

/-- Settles O31: the law's integer is a floor, and its distance from the source's duty is read off the
remainder of the division. -/
theorem dutyLawRoundsRealLaw : Obligations.DutyLawRoundsRealLaw := by
  refine ⟨by decide, by decide, fun t s ht hs x hx => ?_⟩
  have hduty := dutyLaw_toNat ht hs
  obtain ⟨hle, htie⟩ := abs_rounding_error (((t.toNat : Int) - 12800) * s.toNat)
  have hdist : |((dutyLaw t s).toNat : ℚ) - 256 * x| =
      (|16384 - (((t.toNat : Int) - 12800) * s.toNat + 16384) % 32768| : Int) / 32768 := by
    rw [← Int.cast_natCast, hduty, dutyInt_sub_real hx, abs_div, Int.cast_abs]
    norm_num
  generalize |16384 - (((t.toNat : Int) - 12800) * s.toNat + 16384) % 32768| = e at hle htie hdist
  rw [hdist, ← htie]
  refine ⟨hduty.trans (dutyInt_eq_floor hx), ?_, ?_⟩
  · rw [div_le_div_iff₀ (by norm_num) (by norm_num)]
    exact_mod_cast (by omega)
  · rw [div_eq_div_iff (by norm_num) (by norm_num)]
    norm_cast
    omega

end Sys2Proof.Machine
end

section
/-! Proofs. The phase channel: its init, one apply, marks that coalesce, and the walk of the table. -/

namespace Sys2Proof.Machine

/-! ### The commands -/

theorem exec_phInit (ph : BitVec 2) (s : State) :
    exec (.phInit ph) s = .next (phaseCommand ph phInitChecked s) := rfl

theorem exec_phApply (ph : BitVec 2) (s : State) :
    exec (.phApply ph) s = .next (phaseCommand ph phApplyChecked s) := rfl

/-- Settles O18: on an existing channel the command is `PhInit`, unless it is initialised already. -/
theorem phaseInitConfiguresChannel : Obligations.PhaseInitConfiguresChannel := by
  intro s ph k hk hb
  rw [exec_phInit, phaseCommand_of_idle hk hb]
  refine ⟨fun habsent => ?_, fun hpresent hinit => ?_, fun hpresent hinit => ?_⟩
  · rw [if_neg (ne_true_of_eq_false habsent)]
  · rw [if_pos hpresent, phInitChecked, if_pos hinit]
    rfl
  · rw [if_pos hpresent, phInitChecked, if_neg (ne_true_of_eq_false hinit), phInitProc_eq]
    rfl

/-- With a valid cursor an apply of a pending update is the one its rule writes out
(41_phase_channel.md R125). -/
theorem applyProc_applied {k : Phase} {s : State} (hp : (s.ph.get k).pending = true)
    (hc : (s.ph.get k).cursor.toNat < s.cfg.n) : Applied k s (applyProc k s) := by
  obtain ⟨e, he⟩ := (lt_n_iff_exists_entry s.cfg _).mp hc
  refine ⟨e, nextDuty s k, he, ?_, applyProc_of_pending hp⟩
  rw [nextDuty, tableAt, List.getD_eq_getElem?_getD, he]
  rfl

/-- Settles O19: on an existing, initialised channel the command is `Apply`. -/
theorem phaseApplyConsumesPendingUpdate : Obligations.PhaseApplyConsumesPendingUpdate := by
  intro s ph k hk hb
  rw [exec_phApply, phaseCommand_of_idle hk hb]
  refine ⟨fun habsent => ?_, fun hpresent hinit => ?_, fun hpresent hinit hclear => ?_,
    fun hpresent hinit hpending hcursor => ?_⟩
  · rw [if_neg (ne_true_of_eq_false habsent)]
  · rw [if_pos hpresent, phApplyChecked, if_neg (ne_true_of_eq_false hinit)]
    rfl
  · rw [if_pos hpresent, phApplyChecked, if_pos hinit, applyProc_of_clear hclear]
  · obtain ⟨e, duty, he, hduty, happly⟩ := applyProc_applied hpending hcursor
    rw [if_pos hpresent, phApplyChecked, if_pos hinit, happly]
    exact ⟨e, duty, he, hduty, rfl⟩

/-! ### Marks -/

theorem markDirty_markDirty (k : Phase) (s : State) :
    markDirty k (markDirty k s) = markDirty k s := by
  simp [markDirty]

/-- Any number of marks is one mark (41_phase_channel.md R126). -/
theorem iterate_markDirty (k : Phase) {m : Nat} (hm : 1 ≤ m) (s : State) :
    (markDirty k)^[m] s = markDirty k s := by
  obtain ⟨j, rfl⟩ := Nat.exists_eq_add_of_le' hm
  rw [Function.iterate_succ_apply]
  exact Function.iterate_fixed (markDirty_markDirty k s) j

/-- An apply after a mark sends one duty and advances the cursor, whether or not an update was pending
before the mark (41_phase_channel.md R126). -/
theorem applyProc_markDirty (k : Phase) (s : State) :
    applyProc k (markDirty k s) = { s with
      pwmLog := s.pwmLog ++ [.setDuty s.cfg.unit (s.cfg.timer.get k) s.cfg.opA (nextDuty s k)]
      ph := s.ph.set k
        { s.ph.get k with
          pending := false
          duty := nextDuty s k
          cursor := cursorNext s.cfg.n (s.ph.get k).cursor } } := by
  have hduty : nextDuty (markDirty k s) k = nextDuty s k := by simp [nextDuty]
  rw [applyProc_of_pending (by simp), hduty]
  simp [markDirty]

/-- Settles O39: an apply without an update is the identity, and the marks before one are one mark. -/
theorem marksCoalesce : Obligations.MarksCoalesce := by
  refine fun s k => ⟨fun hclear => Function.iterate_fixed (applyProc_of_clear hclear), fun m hm => ?_⟩
  rw [iterate_markDirty k hm, applyProc_markDirty]
  exact ⟨nextDuty s k, rfl, rfl⟩

/-! ### The table walk -/

/-- One step of a walk: an apply after a mark, at the scale `sc`. -/
def markedApply (k : Phase) (s : State) (sc : BitVec 16) : State :=
  applyProc k (markDirty k { s with scale := sc })

theorem markedApply_cfg (k : Phase) (s : State) (sc : BitVec 16) :
    (markedApply k s sc).cfg = s.cfg := by
  rw [markedApply, applyProc_markDirty]

theorem markedApply_cursor (k : Phase) (s : State) (sc : BitVec 16) :
    ((markedApply k s sc).ph.get k).cursor.toNat
      = ((s.ph.get k).cursor.toNat + 1) % s.cfg.n := by
  rw [markedApply, applyProc_markDirty, perPhase_get_set_same, cursorNext_toNat]

theorem markedApply_pwmLog (k : Phase) (s : State) (sc : BitVec 16) :
    (markedApply k s sc).pwmLog = s.pwmLog ++
      [.setDuty s.cfg.unit (s.cfg.timer.get k) s.cfg.opA
        (dutyLaw (tableAt s.cfg (s.ph.get k).cursor.toNat) sc)] := by
  rw [markedApply, applyProc_markDirty, nextDuty]

/-- The duties a walk from the cursor `c` sends, one per scale (41_phase_channel.md R127). -/
def walkDuties (cfg : Config) (k : Phase) (c : Nat) (scales : List (BitVec 16)) : List PwmTx :=
  scales.zipIdx.map fun p =>
    .setDuty cfg.unit (cfg.timer.get k) cfg.opA
      (dutyLaw (tableAt cfg ((c + p.2) % cfg.n)) p.1)

theorem walkDuties_cons (cfg : Config) (k : Phase) {c : Nat} (hc : c < cfg.n) (sc : BitVec 16)
    (scales : List (BitVec 16)) :
    walkDuties cfg k c (sc :: scales) =
      .setDuty cfg.unit (cfg.timer.get k) cfg.opA (dutyLaw (tableAt cfg c) sc) ::
        walkDuties cfg k ((c + 1) % cfg.n) scales := by
  rw [walkDuties, List.zipIdx_cons, List.zipIdx_succ, List.map_cons, List.map_map, Nat.add_zero,
    Nat.mod_eq_of_lt hc]
  refine congrArg _ (List.map_congr_left fun p _ => ?_)
  rw [Nat.mod_add_mod, Nat.add_assoc, Nat.add_comm 1]
  rfl

/-- A walk of any length, from any valid cursor. -/
theorem foldl_markedApply (k : Phase) (scales : List (BitVec 16)) {s : State}
    (hc : (s.ph.get k).cursor.toNat < s.cfg.n) :
    ((scales.foldl (markedApply k) s).ph.get k).cursor.toNat
        = ((s.ph.get k).cursor.toNat + scales.length) % s.cfg.n ∧
      (scales.foldl (markedApply k) s).pwmLog
        = s.pwmLog ++ walkDuties s.cfg k (s.ph.get k).cursor.toNat scales := by
  induction scales generalizing s with
  | nil => simp [walkDuties, Nat.mod_eq_of_lt hc]
  | cons sc scales ih =>
    have hnext : ((markedApply k s sc).ph.get k).cursor.toNat < (markedApply k s sc).cfg.n := by
      rw [markedApply_cursor, markedApply_cfg]
      exact Nat.mod_lt _ (config_n_pos _)
    obtain ⟨hcursor, hlog⟩ := ih hnext
    rw [markedApply_cursor, markedApply_cfg] at hcursor hlog
    refine ⟨?_, ?_⟩
    · rw [List.foldl_cons, hcursor, List.length_cons, Nat.mod_add_mod]
      congr 1
      omega
    · rw [List.foldl_cons, hlog, markedApply_pwmLog, walkDuties_cons _ _ hc, List.append_assoc]
      rfl

/-- Settles O40: a walk of `N` steps comes back to its cursor. -/
theorem tableWalkCloses : Obligations.TableWalkCloses := by
  intro s k scales hc hlen
  obtain ⟨hcursor, hlog⟩ := foldl_markedApply k scales hc
  rw [hlen, Nat.add_mod_right, Nat.mod_eq_of_lt hc] at hcursor
  exact ⟨_, rfl, BitVec.eq_of_toNat_eq hcursor, hlog⟩

end Sys2Proof.Machine
end

section
/-! Proofs. The tasks of the foreground loop: what they write, what an iteration does to each phase, and
the sequencer's two steps. -/

namespace Sys2Proof.Machine

/-! ### What the tasks write -/

/-- The registers, logs and inputs a task of the foreground loop may write; it keeps all the others
(42_inverter.md R145). -/
def TaskWrites (s t : State) : Prop :=
  t = { s with
    ph := t.ph, scale := t.scale, elecFreq := t.elecFreq, carrier := t.carrier, lastT := t.lastT
    pwmLog := t.pwmLog, adcLog := t.adcLog, nowPrev := t.nowPrev, draws := t.draws }

theorem TaskWrites.trans {s t u : State} (h : TaskWrites s t) (g : TaskWrites t u) :
    TaskWrites s u := by
  unfold TaskWrites at *
  rw [g, h]

theorem applyProc_taskWrites (k : Phase) (s : State) : TaskWrites s (applyProc k s) := by
  cases hk : (s.ph.get k).pending
  · rw [applyProc_of_clear hk]
    rfl
  · rw [applyProc_of_pending hk]
    rfl

theorem scalerCheck_taskWrites (s : State) : TaskWrites s (scalerCheck s) := by
  obtain ⟨_, _, _, _, _, _, _, h⟩ := scalerCheck_scalerChecked s
  rw [h]
  split <;> rfl

theorem runTask_taskWrites (s : State) (task : Task) : TaskWrites s (runTask s task) := by
  cases task with
  | scaler => exact scalerCheck_taskWrites s
  | apply k =>
    rw [runTask_apply]
    split
    · exact applyProc_taskWrites k s
    · rfl

theorem fgIterProc_taskWrites (s : State) : TaskWrites s (fgIterProc s) :=
  List.foldlRecOn (motive := TaskWrites s) _ _ rfl
    fun u hu task _ => hu.trans (runTask_taskWrites u task)

/-! ### What the tasks do to a phase -/

/-- Where a phase stands in its walk of the table: whether an update is pending, and the cursor. -/
def walkState (r : PhaseRegs) : Bool × BitVec 12 := (r.pending, r.cursor)

/-- Where `Apply` leaves a phase in its walk (41_phase_channel.md R125). -/
def consumed (n : Nat) (w : Bool × BitVec 12) : Bool × BitVec 12 :=
  (false, if w.1 then cursorNext n w.2 else w.2)

/-- A second apply finds nothing pending (41_phase_channel.md R126). -/
theorem consumed_consumed (n : Nat) (w : Bool × BitVec 12) :
    consumed n (consumed n w) = consumed n w := rfl

/-- `Apply(k)` touches no other phase (41_phase_channel.md R125). -/
theorem applyProc_ph_of_ne {j k : Phase} (h : j ≠ k) (s : State) :
    (applyProc k s).ph.get j = s.ph.get j := by
  cases hk : (s.ph.get k).pending
  · rw [applyProc_of_clear hk]
  · rw [applyProc_of_pending hk, perPhase_get_set_of_ne _ _ h]

theorem applyProc_walkState (j k : Phase) (s : State) :
    walkState ((applyProc k s).ph.get j) =
      if j = k then consumed s.cfg.n (walkState (s.ph.get j)) else walkState (s.ph.get j) := by
  by_cases hj : j = k
  · subst j
    cases hk : (s.ph.get k).pending
    · rw [applyProc_of_clear hk]
      simp [walkState, consumed, hk]
    · rw [applyProc_of_pending hk]
      simp [walkState, consumed, hk]
  · rw [if_neg hj, applyProc_ph_of_ne hj]

/-- A scaler check changes at most the frequency of an existing phase (44_analog_scaler.md R176). -/
theorem scalerCheck_ph (s : State) : ∃ hz : Phase → Word, ∀ k, (scalerCheck s).ph.get k =
    if s.cfg.present.get k then { s.ph.get k with freq := hz k } else s.ph.get k := by
  rcases scalerCheck_cases s with ⟨_, h⟩ | ⟨_, h⟩ <;> rw [h]
  · rw [takeSample_eq, updateFs_eq]
    exact ⟨fun _ => _, fun k => withCarrier_get _ _ _ k⟩
  · exact ⟨fun k => (s.ph.get k).freq, fun k => (ite_self _).symm⟩

/-- Only the task of phase `k`'s apply moves that phase in its walk, and only where it exists. -/
theorem runTask_walkState (s : State) (task : Task) (k : Phase) :
    walkState ((runTask s task).ph.get k) =
      if task = .apply k ∧ s.cfg.present.get k = true then
        consumed s.cfg.n (walkState (s.ph.get k))
      else walkState (s.ph.get k) := by
  cases task with
  | scaler =>
    obtain ⟨hz, h⟩ := scalerCheck_ph s
    rw [if_neg (by simp)]
    show walkState ((scalerCheck s).ph.get k) = _
    rw [h k]
    split <;> rfl
  | apply j =>
    rw [runTask_apply]
    by_cases hj : k = j
    · subst j
      split <;> simp [applyProc_walkState, *]
    · have hother : ¬(Task.apply j = .apply k ∧ s.cfg.present.get k = true) :=
        fun h => hj (Task.apply.inj h.1).symm
      rw [if_neg hother]
      split
      · rw [applyProc_walkState, if_neg hj]
      · rfl

/-- After any list of tasks, each existing phase whose apply is among them is consumed, once, and the
others stand where they stood. -/
theorem foldl_runTask_walkState (tasks : List Task) (s : State) (k : Phase) :
    walkState ((tasks.foldl runTask s).ph.get k) =
      if .apply k ∈ tasks ∧ s.cfg.present.get k = true then
        consumed s.cfg.n (walkState (s.ph.get k))
      else walkState (s.ph.get k) := by
  induction tasks generalizing s with
  | nil => simp
  | cons task tasks ih =>
    rw [List.foldl_cons, ih, (runTask_taskFrame s task).cfg, runTask_walkState]
    by_cases hp : s.cfg.present.get k = true
    · by_cases hin : .apply k ∈ tasks
      · by_cases ht : task = .apply k <;> simp [hp, hin, ht, consumed_consumed]
      · simp [hp, hin, eq_comm]
    · simp [hp]

/-- A task touches no absent phase (42_inverter.md R145). -/
theorem runTask_absent (s : State) (task : Task) {k : Phase} (hk : s.cfg.present.get k = false) :
    (runTask s task).ph.get k = s.ph.get k := by
  cases task with
  | scaler =>
    obtain ⟨hz, h⟩ := scalerCheck_ph s
    exact (h k).trans (if_neg (ne_true_of_eq_false hk))
  | apply j =>
    rw [runTask_apply]
    split
    · next hj =>
      have hne : k ≠ j := fun he => ne_true_of_eq_false hk (by rw [he, hj])
      exact applyProc_ph_of_ne hne s
    · rfl

/-! ### An iteration -/

/-- The tasks of any drawn order are the four (42_inverter.md R146). -/
theorem apply_mem_taskOrder (d : Nat) (k : Phase) : .apply k ∈ taskOrder d := by
  have hmem : ∀ (x : Task) i l, .apply k ∈ insertAt x i l ↔ .apply k = x ∨ .apply k ∈ l :=
    fun x i l => (insertAt_perm x i l).mem_iff.trans List.mem_cons
  rw [taskOrder, hmem, hmem, hmem]
  cases k <;> simp

theorem fgIterProc_walkState (s : State) {k : Phase} (hk : s.cfg.present.get k = true) :
    walkState ((fgIterProc s).ph.get k) = consumed s.cfg.n (walkState (s.ph.get k)) := by
  have h := foldl_runTask_walkState (taskOrder (nextOrder s)) (tookOrder s) k
  rwa [if_pos ⟨apply_mem_taskOrder _ k, hk⟩] at h

theorem fgIterProc_absent (s : State) {k : Phase} (hk : s.cfg.present.get k = false) :
    (fgIterProc s).ph.get k = s.ph.get k := by
  have hboth : (fgIterProc s).cfg = s.cfg ∧ (fgIterProc s).ph.get k = s.ph.get k := by
    refine List.foldlRecOn (motive := fun u : State => u.cfg = s.cfg ∧ u.ph.get k = s.ph.get k)
      _ _
      ⟨rfl, rfl⟩ fun u hu task _ => ?_
    have habsent := runTask_absent u task (hu.1.symm ▸ hk)
    exact ⟨(runTask_taskFrame u task).cfg.trans hu.1, habsent.trans hu.2⟩
  exact hboth.2

theorem exec_fgIter_of_ready {s : State} (hb : seqActive s = false) (hi : initDone s = true) :
    exec .fgIter s = .next (fgIterProc s) := by
  show Host.Outcome.next (foreground fgIterChecked s) = _
  rw [foreground, if_neg (ne_true_of_eq_false hb), fgIterChecked, if_pos hi]

/-- Settles O25: each existing phase is consumed once, whatever the order, and the rest is the frame of
the four tasks. -/
theorem iterationConsumesEveryPendingFlag : Obligations.IterationConsumesEveryPendingFlag := by
  refine fun s hb hi => ⟨_, exec_fgIter_of_ready hb hi, fun k hk => ?walk,
    fun k => fgIterProc_absent s, ?frame⟩
  case walk =>
    obtain ⟨hpending, hcursor⟩ := Prod.mk.inj (fgIterProc_walkState s hk)
    exact ⟨hpending, (fgIterProc_taskFrame s).chInit k, hcursor⟩
  case frame =>
    rw [fgIterProc_taskWrites s]
    exact ⟨rfl, rfl, rfl, rfl, rfl, rfl, rfl, rfl, rfl, rfl, rfl, rfl, rfl, rfl⟩

/-! ### The sequencer -/

/-- A listed turn is its agent's, in the state with the draw made (10_state.md R20). -/
theorem step_of_turn {s : State} {a : AgentStep} {ans : Answers} {rest : List Turn}
    (h : s.draws.turns = ⟨a, ans⟩ :: rest) : step s = agentStep a (afterDraw s ans rest) := by
  obtain ⟨hagent, _, hdrawn⟩ := nextTurn_of_turns h
  rw [step, hagent, hdrawn]
  rfl

theorem step_of_enabled_turn {s : State} {a : AgentStep} {ans : Answers} {rest : List Turn}
    (h : s.draws.turns = ⟨a, ans⟩ :: rest) (he : enabled a (afterDraw s ans rest) = true) :
    step s = takeStep a (afterDraw s ans rest) :=
  (step_of_turn h).trans (if_pos he)

/-- A turn whose step is not enabled changes nothing but the draw (entry 5). -/
theorem step_of_disabled_turn {s : State} {a : AgentStep} {ans : Answers} {rest : List Turn}
    (h : s.draws.turns = ⟨a, ans⟩ :: rest) (he : ¬enabled a (afterDraw s ans rest) = true) :
    step s = .next (afterDraw s ans rest) :=
  (step_of_turn h).trans (if_neg he)

theorem enabled_seqStart_iff (s : State) : enabled .seqStart s = true ↔
    s.runReq = true ∧ s.fgTodo = 0 ∧ s.isrActive = false := by
  simp [enabled, and_assoc]

/-- The bit of a task is the one that the order of the four gives it (10_state.md R35). -/
theorem taskBit_eq_twoPow {task : Task} {b : Fin 4}
    (h : (task, b) ∈ fourTasks.zip [0, 1, 2, 3]) : taskBit task = BitVec.twoPow 4 b.val := by
  simp only [fourTasks, List.zip_cons_cons, List.zip_nil_right, List.mem_cons, List.not_mem_nil,
    or_false, Prod.mk.injEq] at h
  obtain ⟨rfl, rfl⟩ | ⟨rfl, rfl⟩ | ⟨rfl, rfl⟩ | ⟨rfl, rfl⟩ := h <;> rfl

theorem taskToDo_eq_getLsbD {task : Task} {b : Fin 4} (h : taskBit task = BitVec.twoPow 4 b.val)
    (s : State) : taskToDo s task = s.fgTodo.getLsbD b.val := by
  have hbit : ∀ b : Fin 4, BitVec.twoPow 4 b.val ≠ 0#4 := by decide
  rw [taskToDo, h, BitVec.and_twoPow]
  cases s.fgTodo.getLsbD b.val <;> simp [hbit b]

theorem enabled_seqTask_iff {task : Task} {b : Fin 4} (h : taskBit task = BitVec.twoPow 4 b.val)
    (s : State) : enabled (.seqTask task) s = true ↔
      s.fgTodo.getLsbD b.val = true ∧ s.isrActive = false := by
  simp [enabled, taskToDo_eq_getLsbD h]

theorem seqTask_eq (task : Task) (s : State) :
    seqTask task s = { runTask s task with fgTodo := s.fgTodo &&& ~~~taskBit task } := by
  rw [seqTask, (runTask_taskFrame s task).fgTodo]

/-- Settles O41: each task by what it runs, and each step of the sequencer by whether it is enabled. -/
theorem sequencerStartsAndRunsTasks : Obligations.SequencerStartsAndRunsTasks := by
  refine fun s ans rest => ⟨scalerCheck_scalerChecked s, fun k => ⟨?applied, ?idle⟩,
    fun hturn => ?start, fun task b hb hturn => ?task⟩
  case applied =>
    intro hpresent hpending hcursor
    rw [runTask_apply, if_pos hpresent]
    exact applyProc_applied hpending hcursor
  case idle =>
    rintro (habsent | hclear)
    · rw [runTask_apply, if_neg (ne_true_of_eq_false habsent)]
    · rw [runTask_apply, applyProc_of_clear hclear, ite_self]
  case start =>
    have hen := enabled_seqStart_iff (afterDraw s ans rest)
    exact ⟨fun h => step_of_enabled_turn hturn (hen.mpr h),
      fun h => step_of_disabled_turn hturn (mt hen.mp h)⟩
  case task =>
    have hbit := taskBit_eq_twoPow hb
    have hen := enabled_seqTask_iff hbit (afterDraw s ans rest)
    refine ⟨fun h => (step_of_enabled_turn hturn (hen.mpr h)).trans ?_,
      fun h => step_of_disabled_turn hturn (mt hen.mp h)⟩
    rw [takeStep, seqTask_eq, hbit]
    rfl

end Sys2Proof.Machine
end

section
/-! Proofs. Which commands are refused while the sequencer is active, and two commands of one word that
need no initialisation, `NOP` and `ADC_INIT`. -/

namespace Sys2Proof.Machine

/-! ### The foreground, busy and idle -/

theorem foreground_of_busy {s : State} (hb : seqActive s = true) (run : State → State) :
    foreground run s = raise .busy s := if_pos hb

theorem foreground_of_idle {s : State} (hb : seqActive s = false) (run : State → State) :
    foreground run s = run s := if_neg (ne_true_of_eq_false hb)

/-- A well-formed phase field names a phase (30_encoding.md R87, R89). -/
theorem exists_phaseOperand {ph : BitVec 2} (h : phaseField ph = true) :
    ∃ k, phaseOperand ph = some k := by
  rw [← Option.isSome_iff_exists]
  revert ph
  decide

theorem phaseCommand_of_busy {ph : BitVec 2} {s : State} (hph : phaseField ph = true)
    (hb : seqActive s = true) (run : Phase → State → State) :
    phaseCommand ph run s = raise .busy s := by
  obtain ⟨k, hk⟩ := exists_phaseOperand hph
  rw [phaseCommand, hk]
  exact foreground_of_busy hb _

/-- Every command but `NOP` and `TBL_READ` is a foreground command: `BUSY` while the sequencer is
active (42_inverter.md R147). -/
theorem exec_of_busy {i : Instr} {s : State} (hb : seqActive s = true) (hwf : i.wf = true)
    (hnop : i ≠ .nop) (htbl : ∀ imm, i ≠ .tblRead imm) : exec i s = .next (raise .busy s) := by
  cases i with
  | nop => exact absurd rfl hnop
  | tblRead imm => exact absurd rfl (htbl imm)
  | phInit ph | phApply ph | phSetCarrier ph =>
    exact congrArg Host.Outcome.next (phaseCommand_of_busy hwf hb _)
  | invInit | invUpdateFs imm | scalerCheck | fgIter | adcInit =>
    exact congrArg Host.Outcome.next (foreground_of_busy hb _)

/-- Settles O14: every command passes through the common checks, but for the two that are exempt. -/
theorem foregroundCommandsBusyWhileSequencing :
    Obligations.ForegroundCommandsBusyWhileSequencing := by
  refine fun s => ⟨fun hb i => exec_of_busy hb, rfl, fun imm hlt => ?read, rfl, rfl, rfl⟩
  case read =>
    obtain ⟨t, ht⟩ := (lt_n_iff_exists_entry s.cfg _).mp hlt
    rw [ht, Option.getD_some]
    exact exec_tblRead_of_entry ht

/-! ### The commands of one word -/

/-- A command without an operand is one word: any other word of its opcode is `RSV_FIELD`
(30_encoding.md R87, R91). -/
theorem commandWrite_of_other_word {i : Instr} {w : Word}
    (hform : formOfOpcode (opcodeOf i) = some .none) (hop : w.toNat / 2 ^ 28 = opcodeOf i)
    (hne : w ≠ encode i) (s : State) : commandWrite w s = .next (raise .rsvField s) := by
  refine commandWrite_of_reservedBits (form := .none) (hop ▸ hform) (fun hclear => hne ?_) s
  have hdigits : w.toNat % 2 ^ 28 = 0 := (mustBeZero_clear_iff w .none).mp hclear
  have hoperand : operandOf i = 0 := by
    cases i with
    | tblRead | phInit | phApply | phSetCarrier | invUpdateFs => cases hform
    | _ => rfl
  refine BitVec.eq_of_toNat_eq ?_
  rw [encode_toNat, hoperand]
  omega

/-- Settles O16: the word of `NOP` decodes to it, and a word of its opcode that is not its own has a
reserved bit set. -/
theorem nopIsOneWordWithoutEffect : Obligations.NopIsOneWordWithoutEffect :=
  ⟨rfl, fun _ => rfl, commandWrite_of_decode (decodeInvertsEncode .nop rfl),
    fun _ s hop hne => commandWrite_of_other_word (i := .nop) rfl hop hne s⟩

/-- `ADC_INIT`: all it does (42_inverter.md R150). -/
theorem adcInitProc_eq (s : State) :
    adcInitProc s = { s with
      adcLog := s.adcLog ++
        [ .configureResolution (BitVec.ofNat 5 s.cfg.adcBits),
          .configureInputRange s.cfg.adcCh s.cfg.adcAtten ] } := by
  simp [adcInitProc, emitAdc]

/-- Settles O28: the command is its two transactions while the sequencer is idle. -/
theorem adcInitIssuesConfiguration : Obligations.AdcInitIssuesConfiguration := by
  refine ⟨rfl, fun s => ⟨fun hb => ?idle, fun hb => ?busy, fun w hop hne => ?other⟩⟩
  case idle =>
    rw [← adcInitProc_eq]
    exact congrArg Host.Outcome.next (foreground_of_idle hb adcInitProc)
  case busy => exact exec_of_busy hb rfl (by simp) (by simp)
  case other => exact commandWrite_of_other_word (i := .adcInit) rfl hop hne s

end Sys2Proof.Machine
end

section
/-! Proofs. The drawn orders: each is one of the orders the number can select, and every order has its
number. -/

namespace Sys2Proof.Machine

/-! ### Insertion -/

theorem insertAt_length_append {α : Type} (x : α) (as bs : List α) :
    insertAt x as.length (as ++ bs) = as ++ x :: bs := by
  induction as with
  | nil => cases bs <;> rfl
  | cons a as ih => exact congrArg (a :: ·) ih

/-- Every order of a list is an order of its tail with the head inserted somewhere. -/
theorem exists_insertAt_of_perm {α : Type} {x : α} {xs l : List α} (h : l.Perm (x :: xs)) :
    ∃ i ys, i < xs.length + 1 ∧ ys.Perm xs ∧ l = insertAt x i ys := by
  obtain ⟨as, bs, rfl⟩ := List.append_of_mem (h.mem_iff.mpr List.mem_cons_self)
  have htail : (as ++ bs).Perm xs := (List.perm_middle.symm.trans h).cons_inv
  refine ⟨as.length, as ++ bs, ?_, htail, (insertAt_length_append x as bs).symm⟩
  rw [← htail.length_eq, List.length_append]
  omega

/-! ### The orders -/

theorem initOrder_perm (d : Nat) : (initOrder d).Perm Phase.all :=
  (insertAt_perm _ _ _).trans ((insertAt_perm _ _ _).cons _)

theorem taskOrder_perm (d : Nat) : (taskOrder d).Perm fourTasks :=
  (insertAt_perm _ _ _).trans (((insertAt_perm _ _ _).trans ((insertAt_perm _ _ _).cons _)).cons _)

/-- The number of an order has the insertion places for its digits, to bases 3 and 2 (entry 8). -/
theorem exists_initOrder_eq {order : List Phase} (h : order.Perm Phase.all) :
    ∃ d, d < 6 ∧ initOrder d = order := by
  obtain ⟨i, order', hi, h', rfl⟩ := exists_insertAt_of_perm h
  obtain ⟨j, last, hj, hlast, rfl⟩ := exists_insertAt_of_perm h'
  rw [List.perm_singleton] at hlast
  subst hlast
  simp only [List.length_cons, List.length_nil] at hi hj
  refine ⟨i + 3 * j, by omega, ?_⟩
  rw [initOrder, show (i + 3 * j) % 3 = i by omega, show (i + 3 * j) / 3 % 2 = j by omega]

/-- The same to bases 4, 3 and 2. -/
theorem exists_taskOrder_eq {order : List Task} (h : order.Perm fourTasks) :
    ∃ d, d < 24 ∧ taskOrder d = order := by
  obtain ⟨i, order', hi, h', rfl⟩ := exists_insertAt_of_perm h
  obtain ⟨j, order'', hj, h'', rfl⟩ := exists_insertAt_of_perm h'
  obtain ⟨k, last, hk, hlast, rfl⟩ := exists_insertAt_of_perm h''
  rw [List.perm_singleton] at hlast
  subst hlast
  simp only [List.length_cons, List.length_nil] at hi hj hk
  refine ⟨i + 4 * j + 12 * k, by omega, ?_⟩
  rw [taskOrder, show (i + 4 * j + 12 * k) % 4 = i by omega,
    show (i + 4 * j + 12 * k) / 4 % 3 = j by omega,
    show (i + 4 * j + 12 * k) / 12 % 2 = k by omega]

/-- Settles O22: orders by insertion are the permutations, and the places are the number's digits. -/
theorem everyDrawnOrderIsAdmitted : Obligations.EveryDrawnOrderIsAdmitted :=
  ⟨initOrder_perm, taskOrder_perm, fun _ => exists_initOrder_eq, fun _ => exists_taskOrder_eq⟩

theorem nextOrder_of_answer {s : State} {d : Nat} (h : s.draws.answers.order = some d) :
    nextOrder s = d := by
  rw [nextOrder, h, Option.getD_some]

/-! ### An iteration -/

theorem exec_fgIter_of_idle {s : State} (hb : seqActive s = false) :
    exec .fgIter s = .next (fgIterChecked s) :=
  congrArg Host.Outcome.next (foreground_of_idle hb fgIterChecked)

/-- Settles O24: the iteration is the fold of the tasks in the order drawn. -/
theorem iterationRunsEachTaskOnce : Obligations.IterationRunsEachTaskOnce := by
  refine fun s hb => ⟨fun hi => ?refused, fun hi => ?drawn, fun hi d hd => ?answered⟩
  case refused =>
    rw [exec_fgIter_of_idle hb, fgIterChecked, if_neg (ne_true_of_eq_false hi)]
    rfl
  case drawn => exact ⟨_, taskOrder_perm (nextOrder s), exec_fgIter_of_ready hb hi⟩
  case answered =>
    rw [exec_fgIter_of_ready hb hi, fgIterProc, nextOrder_of_answer hd]
    rfl

end Sys2Proof.Machine
end

section
/-! Proofs. `INV_INIT`: the channels it initialises in the order drawn, and then the handler. -/

namespace Sys2Proof.Machine

/-! ### Changing the copies of some phases -/

/-- The copies of the listed phases changed by `f`, one after another. -/
def onPhases {α : Type} (ks : List Phase) (f : α → α) (r : PerPhase α) : PerPhase α :=
  ks.foldl (fun r k => r.set k (f (r.get k))) r

/-- Where changing a copy again changes nothing more, a copy is changed exactly if its phase is
listed, whatever the order of the list. -/
theorem onPhases_get {α : Type} {f : α → α} (hf : ∀ x, f (f x) = f x) (ks : List Phase)
    (r : PerPhase α) (k : Phase) :
    (onPhases ks f r).get k = if k ∈ ks then f (r.get k) else r.get k := by
  induction ks generalizing r with
  | nil => rfl
  | cons j js ih =>
    have htail : (onPhases (j :: js) f r).get k = _ := ih (r.set j (f (r.get j)))
    rw [htail, perPhase_get_set]
    by_cases hkj : k = j
    · subst k
      simp [hf]
    · simp [hkj]

theorem onPresent_get {α : Type} (c : Config) (f : α → α) (r : PerPhase α) (k : Phase) :
    (onPresent c f r).get k = if c.present.get k then f (r.get k) else r.get k := by
  cases k <;> rfl

/-- Any order of all the phases, less those that are absent, reaches exactly those that exist. -/
theorem onPhases_present {α : Type} {f : α → α} (hf : ∀ x, f (f x) = f x) {order : List Phase}
    (horder : order.Perm Phase.all) (c : Config) (r : PerPhase α) :
    onPhases (order.filter fun k => c.present.get k) f r = onPresent c f r := by
  refine perPhase_eq_of_get fun k => ?_
  have hmem : k ∈ order := horder.mem_iff.mpr (phase_mem_all k)
  simp [onPhases_get hf, onPresent_get, hmem]

/-! ### The channel inits -/

/-- A phase's registers after its init (41_phase_channel.md R120). -/
def initRegs (c : Config) (r : PhaseRegs) : PhaseRegs :=
  { r with chInit := true, duty := 0, freq := c.carrierDefault }

/-- The inits of a list of channels: all they do. -/
theorem foldl_phInitProc_eq (ks : List Phase) (s : State) :
    ks.foldl (fun s k => phInitProc k s) s = { s with
      pwmLog := s.pwmLog ++ ks.flatMap fun k => phInitTxs s.cfg k
      ena := onPhases ks (fun _ => true) s.ena
      started := onPhases ks (fun _ => true) s.started
      ph := onPhases ks (initRegs s.cfg) s.ph } := by
  induction ks generalizing s with
  | nil => simp [onPhases]
  | cons k ks ih =>
    rw [List.foldl_cons, ih, phInitProc_eq]
    simp [onPhases, initRegs]

/-- The channel inits of an `INV_INIT`: all they do (42_inverter.md R140). -/
theorem channelInits_eq (s : State) :
    channelInits s = { tookOrder s with
      pwmLog := s.pwmLog ++ ((initOrder (nextOrder s)).filter fun k => s.cfg.present.get k).flatMap
        fun k => phInitTxs s.cfg k
      ena := onPresent s.cfg (fun _ => true) s.ena
      started := onPresent s.cfg (fun _ => true) s.started
      ph := onPresent s.cfg (initRegs s.cfg) s.ph } := by
  have hperm := initOrder_perm (nextOrder s)
  have hflag := onPhases_present (f := fun _ : Bool => true) (fun _ => rfl) hperm s.cfg
  have hregs := onPhases_present (f := initRegs s.cfg) (fun _ => rfl) hperm s.cfg
  simp [channelInits, foldl_phInitProc_eq, hflag, hregs]

theorem exec_invInit_of_idle {s : State} (hb : seqActive s = false) :
    exec .invInit s = .next (invInitChecked s) :=
  congrArg Host.Outcome.next (foreground_of_idle hb invInitChecked)

/-- Settles O21: the order is the one drawn, and the effect of the inits does not depend on it but for
the log. -/
theorem inverterInitStartsEveryChannel : Obligations.InverterInitStartsEveryChannel := by
  refine fun s hb => ⟨fun hi => ?again, fun hi => ?first⟩
  case again =>
    rw [exec_invInit_of_idle hb, invInitChecked, if_pos hi]
    rfl
  case first =>
    refine ⟨initOrder (nextOrder s), invInitProc s, initOrder_perm _, fun d hd => ?_, ?_,
      invInitProc_initDone s, ?_⟩
    · rw [nextOrder_of_answer hd]
    · rw [exec_invInit_of_idle hb, invInitChecked, if_neg (ne_true_of_eq_false hi)]
    · rw [invInitProc_eq, channelInits_eq]
      rfl

end Sys2Proof.Machine
end

section
/-! Proofs. The frequency law: its endpoints, bounds, monotonicity and rounding, the command that applies
it, and that the existing phases share one carrier after every update. -/

namespace Sys2Proof.Machine

/-! ### The laws -/

/-- The source's law in units of 1/256 hertz, rounded to nearest with ties up (42_inverter.md R142). -/
theorem elecLaw_eq_floor (c : Config) {s : Nat} (hs : s ≤ 32768) :
    ((elecLaw c.toParams s).toNat : Int) =
      ⌊256 * ((c.minFreq : ℚ) + ((c.maxFreq : ℚ) - c.minFreq) * (s : ℚ) / 32768) + 1 / 2⌋ := by
  have hfrac : 256 * ((c.minFreq : ℚ) + ((c.maxFreq : ℚ) - c.minFreq) * (s : ℚ) / 32768) + 1 / 2 =
      ((c.minFreq * 256 : Nat) : ℚ) +
        (((c.maxFreq - c.minFreq) * s + 64 : Nat) : ℚ) / ((128 : Nat) : ℚ) := by
    push_cast [config_freq_le c]
    ring
  rw [hfrac, (elecLaw_toNat c hs).1, Int.floor_natCast_add,
    ← Int.natCast_floor_eq_floor (by positivity), Nat.floor_div_eq_div]
  push_cast
  rfl

theorem elecLaw_mono (c : Config) {r s : Nat} (hrs : r ≤ s) (hs : s ≤ 32768) :
    (elecLaw c.toParams r).toNat ≤ (elecLaw c.toParams s).toNat := by
  rw [(elecLaw_toNat c (hrs.trans hs)).1, (elecLaw_toNat c hs).1]
  gcongr

/-- At a legal scale the carrier is the exact product with `N` (42_inverter.md R142). -/
theorem carrierLaw_toNat (c : Config) {s : Nat} (hs : s ≤ 32768) :
    (carrierLaw c.toParams s).toNat = (elecLaw c.toParams s).toNat * c.n :=
  carrierOf_toNat c (elecLaw_toNat c hs).2.2

/-- Settles O32: the integer of the law, and the carrier as its exact product. -/
theorem frequencyLawProperties : Obligations.FrequencyLawProperties := by
  refine fun c => ⟨?zero, ?full, fun r s hrs hs => ⟨elecLaw_mono c hrs hs, ?mono⟩,
    fun s hs => ?bounds, fun hmin hmax hn => ?defaults⟩
  case zero => simp [elecLaw_toNat c (Nat.zero_le _)]
  case full =>
    have hf := config_freq_le c
    rw [(elecLaw_toNat c le_rfl).1]
    omega
  case mono =>
    rw [carrierLaw_toNat c (hrs.trans hs), carrierLaw_toNat c hs]
    exact Nat.mul_le_mul_right _ (elecLaw_mono c hrs hs)
  case bounds =>
    obtain ⟨_, hlo, hhi⟩ := elecLaw_toNat c hs
    rw [carrierLaw_toNat c hs]
    exact ⟨hlo, hhi, Nat.mul_mod_left _ _, Nat.mul_div_cancel _ (config_n_pos c),
      elecLaw_eq_floor c hs⟩
  case defaults => simp [carrierLaw, carrierOf, elecLaw, hmin, hmax, hn]

/-! ### The update -/

theorem exec_invUpdateFs_of_idle {s : State} (hb : seqActive s = false) (imm : BitVec 16) :
    exec (.invUpdateFs imm) s = .next (invUpdateFsChecked imm s) :=
  congrArg Host.Outcome.next (foreground_of_idle hb _)

/-- Settles O23: after the two checks the command is `UpdateFS`. -/
theorem updateAppliesFrequencyLaw : Obligations.UpdateAppliesFrequencyLaw := by
  intro s imm hb
  rw [exec_invUpdateFs_of_idle hb, invUpdateFsChecked, scaleOperand]
  refine ⟨rfl, fun hi => ?_, fun hi hrange => ?_, fun hi hlegal => ?_⟩
  · rw [if_neg (ne_true_of_eq_false hi)]
    rfl
  · rw [if_pos hi, if_pos hrange]
    rfl
  · rw [if_pos hi, if_neg (Nat.not_lt.mpr hlegal), updateFs_eq_afterUpdateFs]

/-! ### One carrier for every phase -/

/-- The scale and the values of the two frequency laws. -/
def lawRegs (s : State) : BitVec 16 × Word × Word := (s.scale, s.elecFreq, s.carrier)

/-- The carrier is that of the frequency, and every existing phase has it (42_inverter.md R144). -/
def Balanced (s : State) : Prop :=
  s.carrier = BitVec.ofNat 32 (s.elecFreq.toNat * s.cfg.n) ∧
    ∀ k, s.cfg.present.get k = true → (s.ph.get k).freq = s.carrier

/-- Nothing that `Balanced` speaks of has changed. -/
structure SameFrequencies (s t : State) : Prop where
  lawRegs : lawRegs t = lawRegs s
  cfg : t.cfg = s.cfg
  freq : ∀ k, (t.ph.get k).freq = (s.ph.get k).freq

theorem SameFrequencies.trans {s t u : State} (h : SameFrequencies s t) (g : SameFrequencies t u) :
    SameFrequencies s u where
  lawRegs := g.lawRegs.trans h.lawRegs
  cfg := g.cfg.trans h.cfg
  freq k := (g.freq k).trans (h.freq k)

theorem Balanced.of_same {s t : State} (hs : Balanced s) (h : SameFrequencies s t) : Balanced t := by
  obtain ⟨hregs, hcfg, hfreq⟩ := h
  simp only [lawRegs, Prod.mk.injEq] at hregs
  obtain ⟨_, helec, hcarrier⟩ := hregs
  simpa only [Balanced, helec, hcarrier, hcfg, hfreq] using hs

theorem updateFs_balanced (sc : BitVec 16) (s : State) : Balanced (updateFs sc s) := by
  rw [updateFs_eq]
  refine ⟨rfl, fun k hk => ?_⟩
  rw [withCarrier_get, if_pos hk]

theorem applyProc_sameFrequencies (k : Phase) (s : State) : SameFrequencies s (applyProc k s) := by
  cases hk : (s.ph.get k).pending
  · rw [applyProc_of_clear hk]
    exact ⟨rfl, rfl, fun _ => rfl⟩
  · rw [applyProc_of_pending hk]
    exact ⟨rfl, rfl, field_get_set PhaseRegs.freq rfl⟩

theorem scalerCheck_sameFrequencies_or_balanced (s : State) :
    SameFrequencies s (scalerCheck s) ∨ Balanced (scalerCheck s) := by
  rcases scalerCheck_cases s with ⟨_, h⟩ | ⟨_, h⟩ <;> rw [h]
  · rw [takeSample_eq]
    exact .inr (updateFs_balanced _ _)
  · exact .inl ⟨rfl, rfl, fun _ => rfl⟩

theorem runTask_sameFrequencies_or_balanced (s : State) (task : Task) :
    SameFrequencies s (runTask s task) ∨ Balanced (runTask s task) := by
  cases task with
  | scaler => exact scalerCheck_sameFrequencies_or_balanced s
  | apply k =>
    rw [runTask_apply]
    split
    · exact .inl (applyProc_sameFrequencies k s)
    · exact .inl ⟨rfl, rfl, fun _ => rfl⟩

/-- An iteration that updates the frequencies ends balanced: the applies after the update leave it. -/
theorem fgIterProc_sameFrequencies_or_balanced (s : State) :
    SameFrequencies s (fgIterProc s) ∨ Balanced (fgIterProc s) := by
  refine List.foldlRecOn (motive := fun u => SameFrequencies s u ∨ Balanced u) _ _
    (.inl ⟨rfl, rfl, fun _ => rfl⟩) fun u hu task _ => ?_
  rcases runTask_sameFrequencies_or_balanced u task with hsame | hbalanced
  · exact hu.imp (·.trans hsame) (·.of_same hsame)
  · exact .inr hbalanced

/-- A step changes neither the scale nor a law's value, or it leaves the carriers balanced. -/
def LawRegsKeptOrBalanced (s t : State) : Prop := lawRegs t = lawRegs s ∨ Balanced t

theorem invInitProc_lawRegs (s : State) : lawRegs (invInitProc s) = lawRegs s := by
  rw [invInitProc_eq, channelInits_eq]
  rfl

theorem CommandEffect.lawRegsKeptOrBalanced {s t : State} (h : CommandEffect s t) :
    LawRegsKeptOrBalanced s t := by
  cases h with
  | same => exact .inl rfl
  | refused => exact .inl rfl
  | tableRead => exact .inl rfl
  | channelInit k =>
    rw [phInitProc_eq]
    exact .inl rfl
  | applied k => exact .inl (applyProc_sameFrequencies k s).lawRegs
  | carrierSet => exact .inl rfl
  | inverterInit => exact .inl (invInitProc_lawRegs s)
  | updated sc => exact .inr (updateFs_balanced sc s)
  | scaled => exact (scalerCheck_sameFrequencies_or_balanced s).imp (·.lawRegs) id
  | iterated => exact (fgIterProc_sameFrequencies_or_balanced s).imp (·.lawRegs) id
  | adcConfigured => exact .inl rfl

theorem AccessEffect.lawRegs {s t : State} (h : AccessEffect s t) : lawRegs t = lawRegs s := by
  cases h <;> rfl

theorem StepEffect.lawRegsKeptOrBalanced {s t : State} {a : AgentStep} (h : StepEffect s a t)
    (ha : a ≠ .reset) : LawRegsKeptOrBalanced s t := by
  cases h with
  | command _ _ _ _ _ he => exact he.lawRegsKeptOrBalanced
  | access _ _ _ he => exact .inl he.lawRegs
  | seqTask task => exact (runTask_sameFrequencies_or_balanced s task).imp (·.lawRegs) id
  | isrMarkAck =>
    rw [isrMarkAck_eq]
    exact .inl rfl
  | reset => exact absurd rfl ha
  | idle => exact .inl rfl
  | seqStart => exact .inl rfl
  | isrEntry => exact .inl rfl
  | evPeriod => exact .inl rfl
  | evForeign => exact .inl rfl

/-- Settles O51: of the effects a step can have, each keeps the scale and the laws' values or is an
update of them, perhaps with applies around it. -/
theorem carrierUpdatesAreBalanced : Obligations.CarrierUpdatesAreBalanced := by
  intro s t h hreset hchanged
  refine ((step_effect h).lawRegsKeptOrBalanced hreset).resolve_left fun hkept => ?_
  simp only [lawRegs, Prod.mk.injEq, tookTurn_scale, tookTurn_elecFreq, tookTurn_carrier] at hkept
  simp [hkept] at hchanged

end Sys2Proof.Machine
end

section
/-! Proofs. The interrupt engine and the environment: what each event, the entry and the return do, what
an invocation in progress holds back, and how it ends. -/

namespace Sys2Proof.Machine

/-! ### Events, entry and return -/

theorem enabled_evPeriod_iff (k : Phase) (s : State) : enabled (.evPeriod k) s = true ↔
    s.started.get k = true ∧ s.ena.get k = true := by
  simp [enabled]

theorem enabled_isrEntry_iff (s : State) : enabled .isrEntry s = true ↔
    s.handlerReg = true ∧ s.intSt ≠ 0 ∧ s.isrActive = false := by
  simp [enabled, irq_iff, and_assoc]

/-- Settles O34: each event by whether it is enabled. -/
theorem eventsLatchTheirBit : Obligations.EventsLatchTheirBit := by
  refine fun s ans rest => ⟨fun k hturn => ?period, fun b hturn => ?foreign⟩
  case period =>
    have hen := enabled_evPeriod_iff k (afterDraw s ans rest)
    split
    · next h => exact step_of_enabled_turn hturn (hen.mpr h)
    · next h => exact step_of_disabled_turn hturn (mt hen.mp h)
  case foreign =>
    split
    · next h => exact step_of_enabled_turn hturn h
    · next h => exact step_of_disabled_turn hturn h

/-- Settles O35: the entry by whether it is enabled. -/
theorem entryLatchesPendingMask : Obligations.EntryLatchesPendingMask := by
  intro s ans rest hturn
  have hen := enabled_isrEntry_iff (afterDraw s ans rest)
  refine ⟨fun h => ?_, fun h => step_of_disabled_turn hturn (mt hen.mp h)⟩
  rw [step_of_enabled_turn hturn (hen.mpr h), takeStep, isrEntry_eq]
  rfl

/-- Settles O36: the return by whether an invocation is in progress; its marks are `withMarks`. -/
theorem returnMarksAndAcknowledges : Obligations.ReturnMarksAndAcknowledges := by
  refine fun s ans rest hturn => ⟨fun hi => ⟨withMarks s s.ph, withMarks_get s s.ph, ?_⟩,
    fun hi => step_of_disabled_turn hturn (ne_true_of_eq_false hi)⟩
  rw [step_of_enabled_turn hturn hi, takeStep, isrMarkAck_eq]
  rfl

/-! ### An invocation in progress -/

/-- The registers an access that runs no command may write (20_memory.md R67, R69). -/
theorem AccessEffect.eq_writes {s t : State} (h : AccessEffect s t) :
    t = { s with runReq := t.runReq, arg := t.arg, err := t.err, hostReads := t.hostReads } := by
  cases h <;> rfl

/-- During an invocation, until its return or a reset, a step is an event, or an access of the host that
runs no command (60_exceptions.md R193): all it may write. -/
theorem StepEffect.eq_writes_of_active {s t : State} {a : AgentStep} (h : StepEffect s a t)
    (hi : s.isrActive = true) (hack : a ≠ .isrMarkAck) (hreset : a ≠ .reset) :
    t = { s with
      intSt := t.intSt, runReq := t.runReq, arg := t.arg, err := t.err
      hostProg := t.hostProg, hostReads := t.hostReads } := by
  have hheld : s.isrActive ≠ false := ne_false_of_eq_true hi
  cases h with
  | idle => rfl
  | access _ _ _ he => rw [he.eq_writes]
  | evPeriod => rfl
  | evForeign => rfl
  | command _ _ _ hf => exact absurd hf hheld
  | seqStart _ _ hf => exact absurd hf hheld
  | seqTask _ _ hf => exact absurd hf hheld
  | isrEntry _ hf => exact absurd hf hheld
  | isrMarkAck => exact absurd rfl hack
  | reset => exact absurd rfl hreset

/-- Settles O52: the steps left to an invocation write none of these registers. -/
theorem invocationHoldsForeground : Obligations.InvocationHoldsForeground := by
  intro s t h hi hack hreset
  rw [(step_effect h).eq_writes_of_active hi hack hreset]
  exact ⟨rfl, rfl, rfl, rfl, rfl, rfl, rfl, rfl, rfl, rfl, rfl, rfl, rfl, rfl, hi⟩

/-- Only the engine's return clears a pending bit, and only a latched one (43_completion_handler.md
R166). -/
theorem StepEffect.intSt_cleared {s t : State} {a : AgentStep} {b : Nat} (h : StepEffect s a t)
    (hs : s.intSt.getLsbD b = true) (ht : t.intSt.getLsbD b = false) :
    a = .isrMarkAck ∧ s.isrActive = true ∧ s.isrM.getLsbD b = true := by
  have hkeep : t.intSt ≠ s.intSt := fun he => by
    rw [he, hs] at ht
    cases ht
  cases h with
  | isrMarkAck hi =>
    rw [isrMarkAck_eq] at ht
    have hlt := BitVec.lt_of_getLsbD hs
    exact ⟨rfl, hi, by simpa [hs, hlt] using ht⟩
  | evPeriod => simp [hs] at ht
  | evForeign => simp [hs] at ht
  | command _ _ _ _ _ he => exact absurd he.frame.intSt hkeep
  | access _ _ _ he => exact absurd he.frame.1.intSt hkeep
  | seqTask task => exact absurd (seqTask_commandFrame task s).intSt hkeep
  | idle => exact absurd rfl hkeep
  | seqStart => exact absurd rfl hkeep
  | isrEntry => exact absurd rfl hkeep
  | reset => exact absurd rfl hkeep

/-- Settles O53: a bit falls at the return alone. -/
theorem pendingBitsStayUntilAcknowledged : Obligations.PendingBitsStayUntilAcknowledged :=
  fun _ _ _ h => (step_effect h).intSt_cleared

/-! ### Its end -/

/-- The engine's return, drawn during an invocation, ends it (43_completion_handler.md R166). -/
theorem isrActive_of_step_isrMarkAck {s t : State} (h : step s = .next t)
    (ha : nextAgent s = .isrMarkAck) (hi : s.isrActive = true) : t.isrActive = false := by
  have hstep : step s = .next (isrMarkAck (tookTurn s)) := by
    rw [step, ha]
    exact if_pos hi
  cases h.symm.trans hstep
  rw [isrMarkAck_eq]

/-- Settles O56: an invocation that never ended would keep the return enabled, which fairness then
draws. -/
theorem fairInvocationsEnd : Obligations.FairInvocationsEnd := by
  intro e hexec hfair n _
  by_contra hnever
  have hactive : ∀ m, n ≤ m → (e m).isrActive = true := fun m hm =>
    Bool.eq_true_of_not_eq_false fun hf => hnever ⟨m, hm, hf⟩
  obtain ⟨m, hm, hagent⟩ := hfair n hactive
  exact hnever ⟨m + 1, hm.trans m.le_succ,
    isrActive_of_step_isrMarkAck (hexec m) hagent (hactive m hm)⟩

end Sys2Proof.Machine
end

section
/-! Proofs. Duties and period events over a run: no step adds to the duties sent and the events on their
way to one, but for a period event, which adds one. -/

namespace Sys2Proof.Machine

/-! ### The foreground -/

/-- The duties sent to phase `k`, and its mark not yet applied. -/
def sentOrMarked (s : State) (k : Phase) : Nat := dutiesSent s k + (s.ph.get k).pending.toNat

/-- Transactions other than duties of phase `k` leave its count, if its mark stays. -/
theorem sentOrMarked_of_append {s t : State} {k : Phase} {txs : List PwmTx} (hcfg : t.cfg = s.cfg)
    (hlog : t.pwmLog = s.pwmLog ++ txs)
    (hno : ∀ tx ∈ txs, ¬isDutyTo (s.cfg.timer.get k) tx = true)
    (hmark : (t.ph.get k).pending = (s.ph.get k).pending) :
    sentOrMarked t k = sentOrMarked s k := by
  simp [sentOrMarked, dutiesSent, hcfg, hlog, hmark, List.countP_eq_zero.mpr hno]

/-- An apply turns its phase's mark into one duty (41_phase_channel.md R125). -/
theorem applyProc_sentOrMarked (j k : Phase) (s : State) :
    sentOrMarked (applyProc j s) k = sentOrMarked s k := by
  cases hj : (s.ph.get j).pending
  · rw [applyProc_of_clear hj]
  rw [applyProc_of_pending hj]
  by_cases hkj : k = j
  · subst j
    simp [sentOrMarked, dutiesSent, isDutyTo, hj]
  · have hother : s.cfg.timer.get j ≠ s.cfg.timer.get k :=
      fun h => hkj (config_timer_inj s.cfg h).symm
    exact sentOrMarked_of_append rfl rfl (List.forall_mem_singleton.mpr (by simpa [isDutyTo]))
      (congrArg PhaseRegs.pending (perPhase_get_set_of_ne _ _ hkj))

theorem setCarrier_sentOrMarked (j k : Phase) (hz : Word) (s : State) :
    sentOrMarked (setCarrier j hz s) k = sentOrMarked s k := by
  rw [setCarrier_eq]
  exact sentOrMarked_of_append rfl rfl (List.forall_mem_singleton.mpr Bool.false_ne_true)
    (field_get_set PhaseRegs.pending (by rfl) k)

theorem updateFs_sentOrMarked (sc : BitVec 16) (k : Phase) (s : State) :
    sentOrMarked (updateFs sc s) k = sentOrMarked s k := by
  rw [updateFs_eq]
  exact sentOrMarked_of_append rfl rfl (List.forall_mem_map.mpr fun _ _ => Bool.false_ne_true)
    (withCarrier_flags _ _ _ k).1

theorem scalerCheck_sentOrMarked (k : Phase) (s : State) :
    sentOrMarked (scalerCheck s) k = sentOrMarked s k := by
  rcases scalerCheck_cases s with ⟨_, h⟩ | ⟨_, h⟩ <;> rw [h]
  · rw [takeSample_eq]
    exact updateFs_sentOrMarked _ k _
  · rfl

theorem runTask_sentOrMarked (task : Task) (k : Phase) (s : State) :
    sentOrMarked (runTask s task) k = sentOrMarked s k := by
  cases task with
  | scaler => exact scalerCheck_sentOrMarked k s
  | apply j =>
    rw [runTask_apply]
    split
    · exact applyProc_sentOrMarked j k s
    · rfl

theorem fgIterProc_sentOrMarked (k : Phase) (s : State) :
    sentOrMarked (fgIterProc s) k = sentOrMarked s k :=
  List.foldlRecOn (motive := fun u => sentOrMarked u k = sentOrMarked s k) _ _ rfl
    fun u hu task _ => (runTask_sentOrMarked task k u).trans hu

theorem phInitProc_sentOrMarked (j k : Phase) (s : State) :
    sentOrMarked (phInitProc j s) k = sentOrMarked s k := by
  rw [phInitProc_eq]
  exact sentOrMarked_of_append rfl rfl (by simp [phInitTxs, isDutyTo])
    (field_get_set PhaseRegs.pending (by rfl) k)

theorem channelInits_sentOrMarked (k : Phase) (s : State) :
    sentOrMarked (channelInits s) k = sentOrMarked s k :=
  List.foldlRecOn (motive := fun u => sentOrMarked u k = sentOrMarked s k) _ _ rfl
    fun u hu j _ => (phInitProc_sentOrMarked j k u).trans hu

theorem invInitProc_sentOrMarked (k : Phase) (s : State) :
    sentOrMarked (invInitProc s) k = sentOrMarked s k := by
  rw [invInitProc_eq, ← channelInits_sentOrMarked k s]
  exact sentOrMarked_of_append rfl rfl (List.forall_mem_singleton.mpr Bool.false_ne_true) rfl

theorem CommandEffect.sentOrMarked {s t : State} (h : CommandEffect s t) (k : Phase) :
    sentOrMarked t k = sentOrMarked s k := by
  cases h with
  | same => rfl
  | refused => rfl
  | tableRead => rfl
  | channelInit j => exact phInitProc_sentOrMarked j k s
  | applied j => exact applyProc_sentOrMarked j k s
  | carrierSet j hz => exact setCarrier_sentOrMarked j k hz s
  | inverterInit => exact invInitProc_sentOrMarked k s
  | updated sc => exact updateFs_sentOrMarked sc k s
  | scaled => exact scalerCheck_sentOrMarked k s
  | iterated => exact fgIterProc_sentOrMarked k s
  | adcConfigured => rfl

/-! ### Steps -/

/-- The duties sent to phase `k` and its events on their way to one (43_completion_handler.md R168). -/
def dutyTally (s : State) (k : Phase) : Nat := dutiesSent s k + eventsWaiting s k

theorem dutyTally_eq (s : State) (k : Phase) :
    dutyTally s k = sentOrMarked s k + (irqBitSet s s.intSt k).toNat := by
  rw [dutyTally, eventsWaiting, sentOrMarked]
  omega

/-- What keeps the unit's pending bits and the count of phase `k` keeps the tally. -/
theorem dutyTally_of_kept {s t : State} {k : Phase} (hcfg : t.cfg = s.cfg)
    (hint : t.intSt = s.intSt) (h : sentOrMarked t k = sentOrMarked s k) :
    dutyTally t k = dutyTally s k := by
  rw [dutyTally_eq, dutyTally_eq, h, irqBitSet, irqBitSet, hcfg, hint]

theorem CommandEffect.dutyTally {s t : State} (h : CommandEffect s t) (k : Phase) :
    dutyTally t k = dutyTally s k :=
  dutyTally_of_kept h.frame.cfg h.frame.intSt (h.sentOrMarked k)

theorem AccessEffect.dutyTally {s t : State} (h : AccessEffect s t) (k : Phase) :
    dutyTally t k = dutyTally s k := by
  rw [h.eq_writes]
  rfl

theorem seqTask_dutyTally (task : Task) (k : Phase) (s : State) :
    dutyTally (seqTask task s) k = dutyTally s k :=
  have hf := seqTask_commandFrame task s
  dutyTally_of_kept hf.cfg hf.intSt (runTask_sentOrMarked task k s)

theorem isrEntry_dutyTally (k : Phase) (s : State) : dutyTally (isrEntry s) k = dutyTally s k := by
  rw [isrEntry_eq]
  exact dutyTally_of_kept rfl rfl
    (sentOrMarked_of_append rfl rfl (List.forall_mem_singleton.mpr Bool.false_ne_true) rfl)

/-- The return moves a latched bit, still pending in the unit, to the phase's mark; two marks of one
phase coalesce (43_completion_handler.md R162, R166, R168). -/
theorem isrMarkAck_dutyTally_le {s : State} (h : Inv s) (hi : s.isrActive = true) (k : Phase) :
    dutyTally (isrMarkAck s) k ≤ dutyTally s k := by
  have hsent : dutiesSent (isrMarkAck s) k = dutiesSent s k := by
    simp [isrMarkAck_eq, dutiesSent, isDutyTo]
  have hpending := mask_subset_iff.mp (h.latched_pending hi).2 (s.cfg.irqBit.get k).val
  rw [dutyTally, dutyTally, hsent, isrMarkAck_eq, eventsWaiting, eventsWaiting, withMarks_get]
  simp only [irqBitSet, BitVec.getLsbD_and, BitVec.getLsbD_not, (s.cfg.irqBit.get k).isLt]
  cases hl : s.isrM.getLsbD (s.cfg.irqBit.get k).val
  · simp
  · rw [hpending hl]
    cases (s.ph.get k).pending <;> simp

/-- A bit that is not phase `k`'s leaves its tally (43_completion_handler.md R160). -/
theorem dutyTally_of_other_bit {s : State} {k : Phase} {b : Fin 32} (hb : b ≠ s.cfg.irqBit.get k) :
    dutyTally { s with intSt := s.intSt ||| BitVec.twoPow 32 b.val } k = dutyTally s k := by
  have hne : (s.cfg.irqBit.get k).val ≠ b.val := Fin.val_ne_of_ne hb.symm
  simp [dutyTally, eventsWaiting, dutiesSent, irqBitSet, hne]

/-- A period event of phase `k` adds at most one to its tally, of another phase nothing. -/
theorem evPeriod_dutyTally_le (j k : Phase) (s : State) :
    dutyTally (evPeriod j s) k ≤ dutyTally s k + (j == k).toNat := by
  by_cases hjk : j = k
  · subst j
    have hsame : sentOrMarked (evPeriod k s) k = sentOrMarked s k := rfl
    have hbit := Bool.toNat_le (irqBitSet (evPeriod k s) (evPeriod k s).intSt k)
    rw [dutyTally_eq, dutyTally_eq, hsame, beq_self_eq_true]
    exact Nat.add_le_add (Nat.le_add_right _ _) hbit
  · exact (dutyTally_of_other_bit fun he => hjk (config_irqBit_inj s.cfg he)).le.trans
      (Nat.le_add_right _ _)

theorem evForeign_dutyTally {s : State} {b : Fin 32} (hb : s.cfg.foreignMask.getLsbD b.val = true)
    (k : Phase) : dutyTally (evForeign b s) k = dutyTally s k := by
  refine dutyTally_of_other_bit fun he => ?_
  rw [he, config_foreign_disjoint] at hb
  cases hb

theorem resetBlock_dutyTally_le (k : Phase) (s : State) :
    dutyTally (resetBlock s) k ≤ dutyTally s k := by
  have hmark : ((resetBlock s).ph.get k).pending = false := by cases k <;> rfl
  rw [dutyTally, dutyTally, eventsWaiting, eventsWaiting, hmark]
  exact Nat.add_le_add_left (Nat.add_le_add_left (Nat.zero_le _) _) _

/-- A step adds to the tally of phase `k` only if it is that phase's period event, and then one. -/
theorem StepEffect.dutyTally_le {s t : State} {a : AgentStep} (h : StepEffect s a t) (hinv : Inv s)
    (k : Phase) :
    dutyTally t k ≤ dutyTally s k + (a == .evPeriod k && enabled (.evPeriod k) s).toNat := by
  cases h with
  | evPeriod j hj =>
    refine (evPeriod_dutyTally_le j k s).trans (Nat.add_le_add_left ?_ _)
    by_cases hjk : j = k
    · subst j
      simp [(enabled_evPeriod_iff k s).mpr hj]
    · rw [beq_false_of_ne hjk]
      exact Nat.zero_le _
  | idle => exact Nat.le_add_right_of_le le_rfl
  | command _ _ _ _ _ he => exact Nat.le_add_right_of_le (he.dutyTally k).le
  | access _ _ _ he => exact Nat.le_add_right_of_le (he.dutyTally k).le
  | seqStart => exact Nat.le_add_right_of_le le_rfl
  | seqTask task => exact Nat.le_add_right_of_le (seqTask_dutyTally task k s).le
  | isrEntry => exact Nat.le_add_right_of_le (isrEntry_dutyTally k s).le
  | isrMarkAck hi => exact Nat.le_add_right_of_le (isrMarkAck_dutyTally_le hinv hi k)
  | evForeign b hb => exact Nat.le_add_right_of_le (evForeign_dutyTally hb k).le
  | reset => exact Nat.le_add_right_of_le (resetBlock_dutyTally_le k s)

theorem step_dutyTally_le {s t : State} (h : step s = .next t) (hinv : Inv s) (k : Phase) :
    dutyTally t k ≤ dutyTally s k + (isPeriodEvent k s).toNat :=
  (step_effect h).dutyTally_le (hinv.of_bookkeeping rfl) k

/-! ### Runs -/

/-- A run of one step more is that step, and the run from where it leads. -/
theorem run_succ_eq_next {n : Nat} {s t : State}
    (h : Host.Core.run Sys2Proof.core (n + 1) s = .next t) :
    ∃ u, step s = .next u ∧ Host.Core.run Sys2Proof.core n u = .next t := by
  simp only [Host.Core.run] at h
  split at h
  · next u hstep => exact ⟨u, hstep, h⟩
  · cases h
  · cases h

theorem periodEvents_succ {s u : State} (h : step s = .next u) (k : Phase) (n : Nat) :
    periodEvents k (n + 1) s = (isPeriodEvent k s).toNat + periodEvents k n u := by
  rw [periodEvents, h]

/-- Settles O38, by induction on the length of the run. -/
theorem periodEventsBoundDuties : Obligations.PeriodEventsBoundDuties := by
  intro n s t k hinv hrun
  induction n generalizing s with
  | zero =>
    cases hrun
    exact Nat.le_add_right _ _
  | succ n ih =>
    obtain ⟨u, hstep, hrest⟩ := run_succ_eq_next hrun
    have hfirst := step_dutyTally_le hstep hinv k
    have hlater := ih u (everyStepKeepsInvariant s u hinv hstep) hrest
    simp only [dutyTally] at hfirst
    rw [periodEvents_succ hstep]
    omega

end Sys2Proof.Machine
end

section
/-! Proofs. The scaler's two properties: `Norm` is the rounded ratio of the sample to the full range, and
samples lie more than a period apart. -/

namespace Sys2Proof.Machine

/-! ### The normalisation -/

theorem norm_mono (c : Config) {a b : Nat} (hab : a ≤ b) (hb : b ≤ c.adcMax) :
    (norm c.toParams a).toNat ≤ (norm c.toParams b).toNat := by
  rw [(norm_toNat c (hab.trans hb)).1, (norm_toNat c hb).1]
  gcongr

theorem norm_adcMax (c : Config) : norm c.toParams c.adcMax = 0x8000 := by
  have hpos := (config_adcMax c).1
  have hratio : (2 * c.adcMax * 32768 + c.adcMax) / (2 * c.adcMax) = 32768 :=
    Nat.div_eq_of_lt_le (by omega) (by omega)
  exact BitVec.eq_of_toNat_eq ((norm_toNat c le_rfl).1.trans hratio)

theorem norm_zero (c : Config) : norm c.toParams 0 = 0 := by
  have hpos := (config_adcMax c).1
  refine BitVec.eq_of_toNat_eq ((norm_toNat c (Nat.zero_le _)).1.trans ?_)
  exact Nat.div_eq_of_lt (by omega)

theorem adcMax_of_12_bits {p : Params} (h : p.adcBits = 12) : p.adcMax = 4095 := by
  simp [Params.adcMax, h]

/-- No sample of a 12-bit ADC is close enough to half of 4095 to be normalised to the middle of the scale
(44_analog_scaler.md R175). -/
theorem norm_ne_half {c : Config} (h : c.adcBits = 12) {raw : Nat} (hraw : raw ≤ c.adcMax) :
    norm c.toParams raw ≠ 0x4000 := by
  intro hhalf
  have hval := (norm_toNat c hraw).1
  rw [hhalf, adcMax_of_12_bits h] at hval
  have hnum : (0x4000 : BitVec 16).toNat = 16384 := rfl
  omega

/-- Settles O33: the bounds of the quotient, and its values at 12 bits. -/
theorem normalisationProperties : Obligations.NormalisationProperties := by
  refine fun c => ⟨norm_zero c, norm_adcMax c, fun raw => norm_toNat c, fun a b => norm_mono c,
    fun h12 => ⟨?_, ?_, ?_, fun raw => norm_ne_half h12⟩⟩ <;>
  · rw [norm, adcMax_of_12_bits h12]
    rfl

/-! ### The samples of the foreground -/

/-- What the taking of samples is seen in: the configuration, the time of the last sample, the time last
read and the ADC's log. -/
def sampleRegs (s : State) : Config × BitVec 64 × BitVec 64 × List AdcTx :=
  (s.cfg, s.lastT, s.nowPrev, s.adcLog)

/-- No sample was taken, and `LAST_T` stayed. -/
def Unsampled (s t : State) : Prop :=
  t.lastT = s.lastT ∧
    ∀ ch raw, t.adcLog.count (.readRaw ch raw) = s.adcLog.count (.readRaw ch raw)

/-- One sample was taken, at the time last read, more than a period after the last one
(44_analog_scaler.md R176). -/
def Sampled (s t : State) : Prop :=
  t.lastT = t.nowPrev ∧ s.lastT.toNat + s.cfg.samplePeriod.toNat < t.lastT.toNat ∧
    ∃ raw, t.adcLog = s.adcLog ++ [.readRaw s.cfg.adcCh raw]

/-- At most one sample was taken, and only when it was due. -/
def SampledAtMostOnce (s t : State) : Prop := Unsampled s t ∨ Sampled s t

theorem SampledAtMostOnce.of_same {s s' t t' : State} (h : SampledAtMostOnce s t)
    (hs : sampleRegs s' = sampleRegs s) (ht : sampleRegs t' = sampleRegs t) :
    SampledAtMostOnce s' t' := by
  simp only [sampleRegs, Prod.mk.injEq] at hs ht
  obtain ⟨hcfg, hlast, _, hlog⟩ := hs
  obtain ⟨_, hlast', hnow', hlog'⟩ := ht
  simpa only [SampledAtMostOnce, Unsampled, Sampled, hcfg, hlast, hlog, hlast', hnow', hlog'] using h

theorem sampledAtMostOnce_of_kept {s t : State} (h : sampleRegs t = sampleRegs s) :
    SampledAtMostOnce s t :=
  .of_same (s := s) (.inl ⟨rfl, fun _ _ => rfl⟩) rfl h

theorem updateFs_sampleRegs (sc : BitVec 16) (s : State) :
    sampleRegs (updateFs sc s) = sampleRegs s := by
  rw [updateFs_eq]
  rfl

theorem applyProc_sampleRegs (k : Phase) (s : State) :
    sampleRegs (applyProc k s) = sampleRegs s := by
  cases hk : (s.ph.get k).pending
  · rw [applyProc_of_clear hk]
  · rw [applyProc_of_pending hk]
    rfl

theorem invInitProc_sampleRegs (s : State) : sampleRegs (invInitProc s) = sampleRegs s := by
  rw [invInitProc_eq, channelInits_eq]
  rfl

/-- A scaler check takes a sample exactly when one is due (44_analog_scaler.md R176). -/
theorem scalerCheck_sampledAtMostOnce (s : State) : SampledAtMostOnce s (scalerCheck s) := by
  rcases scalerCheck_cases s with ⟨hdue, h⟩ | ⟨_, h⟩ <;> rw [h]
  · rw [takeSample_eq]
    exact .of_same (.inr ⟨rfl, hdue, _, rfl⟩) rfl (updateFs_sampleRegs _ _)
  · exact .inl ⟨rfl, fun _ _ => rfl⟩

theorem runTask_sampledAtMostOnce (s : State) (task : Task) :
    SampledAtMostOnce s (runTask s task) := by
  cases task with
  | scaler => exact scalerCheck_sampledAtMostOnce s
  | apply k =>
    rw [runTask_apply]
    split
    · exact sampledAtMostOnce_of_kept (applyProc_sampleRegs k s)
    · exact sampledAtMostOnce_of_kept rfl

/-- Tasks other than the scaler's take no sample and read no time (42_inverter.md R145). -/
theorem foldl_runTask_sampleRegs {tasks : List Task} (h : .scaler ∉ tasks) (s : State) :
    sampleRegs (tasks.foldl runTask s) = sampleRegs s := by
  refine List.foldlRecOn (motive := fun u => sampleRegs u = sampleRegs s) _ _ rfl
    fun u hu task htask => ?_
  cases task with
  | scaler => exact absurd htask h
  | apply k =>
    rw [runTask_apply]
    split
    · exact (applyProc_sampleRegs k u).trans hu
    · exact hu

/-- The scaler's task stands once in every drawn order (42_inverter.md R146). -/
theorem exists_taskOrder_eq_append (d : Nat) : ∃ before after,
    taskOrder d = before ++ .scaler :: after ∧ .scaler ∉ before ∧ .scaler ∉ after := by
  have hperm := taskOrder_perm d
  obtain ⟨before, after, hsplit⟩ := List.append_of_mem (hperm.mem_iff.mpr List.mem_cons_self)
  have hrest : (before ++ after).Perm [.apply .p0, .apply .p1, .apply .p2] :=
    (List.perm_middle.symm.trans (hsplit ▸ hperm)).cons_inv
  have hnot : Task.scaler ∉ before ++ after := fun h => by simpa using hrest.mem_iff.mp h
  exact ⟨before, after, hsplit, fun h => hnot (List.mem_append_left _ h),
    fun h => hnot (List.mem_append_right _ h)⟩

/-- An iteration runs the scaler's task once, so it takes at most one sample; the applies around it leave
the time of the sample (42_inverter.md R146). -/
theorem fgIterProc_sampledAtMostOnce (s : State) : SampledAtMostOnce s (fgIterProc s) := by
  obtain ⟨before, after, horder, hbefore, hafter⟩ := exists_taskOrder_eq_append (nextOrder s)
  rw [fgIterProc, horder, List.foldl_append, List.foldl_cons]
  exact (runTask_sampledAtMostOnce _ .scaler).of_same
    (foldl_runTask_sampleRegs hbefore (tookOrder s)).symm (foldl_runTask_sampleRegs hafter _)

/-! ### Commands and steps -/

/-- Configuring the ADC is no sample (42_inverter.md R150). -/
theorem adcInitProc_unsampled (s : State) : Unsampled s (adcInitProc s) :=
  ⟨rfl, fun ch raw => by simp [adcInitProc_eq]⟩

theorem CommandEffect.sampledAtMostOnce {s t : State} (h : CommandEffect s t) :
    SampledAtMostOnce s t := by
  cases h with
  | scaled => exact scalerCheck_sampledAtMostOnce s
  | iterated => exact fgIterProc_sampledAtMostOnce s
  | adcConfigured => exact .inl (adcInitProc_unsampled s)
  | applied k => exact sampledAtMostOnce_of_kept (applyProc_sampleRegs k s)
  | updated sc => exact sampledAtMostOnce_of_kept (updateFs_sampleRegs sc s)
  | inverterInit => exact sampledAtMostOnce_of_kept (invInitProc_sampleRegs s)
  | channelInit k =>
    rw [phInitProc_eq]
    exact sampledAtMostOnce_of_kept rfl
  | same => exact sampledAtMostOnce_of_kept rfl
  | refused => exact sampledAtMostOnce_of_kept rfl
  | tableRead => exact sampledAtMostOnce_of_kept rfl
  | carrierSet => exact sampledAtMostOnce_of_kept rfl

theorem AccessEffect.sampleRegs {s t : State} (h : AccessEffect s t) :
    sampleRegs t = sampleRegs s := by
  rw [h.eq_writes]
  rfl

theorem StepEffect.sampledAtMostOnce {s t : State} {a : AgentStep} (h : StepEffect s a t)
    (ha : a ≠ .reset) : SampledAtMostOnce s t := by
  cases h with
  | command _ _ _ _ _ he => exact he.sampledAtMostOnce
  | access _ _ _ he => exact sampledAtMostOnce_of_kept he.sampleRegs
  | seqTask task => exact runTask_sampledAtMostOnce s task
  | isrMarkAck =>
    rw [isrMarkAck_eq]
    exact sampledAtMostOnce_of_kept rfl
  | reset => exact absurd rfl ha
  | idle => exact sampledAtMostOnce_of_kept rfl
  | seqStart => exact sampledAtMostOnce_of_kept rfl
  | isrEntry => exact sampledAtMostOnce_of_kept rfl
  | evPeriod => exact sampledAtMostOnce_of_kept rfl
  | evForeign => exact sampledAtMostOnce_of_kept rfl

/-- A sample moves `LAST_T`: its time is later than the last one's (44_analog_scaler.md R176). -/
theorem Sampled.lastT_ne {s t : State} (h : Sampled s t) : t.lastT ≠ s.lastT := by
  obtain ⟨_, hlater, _⟩ := h
  intro hsame
  rw [hsame] at hlater
  omega

/-- Settles O50: a step but reset takes at most one sample, and `LAST_T` tells whether it did. -/
theorem samplesAreAPeriodApart : Obligations.SamplesAreAPeriodApart := by
  intro s t h hreset
  have hstep : SampledAtMostOnce s t := (step_effect h).sampledAtMostOnce hreset
  exact ⟨fun hsame => (hstep.resolve_right fun hs => hs.lastT_ne hsame).2,
    fun hmoved => hstep.resolve_left fun hu => hmoved hu.1⟩

end Sys2Proof.Machine
end

section
/-! Proofs. The reset step: the state it leaves from any state, and the state it launches. -/

namespace Sys2Proof.Machine

/-! ### The drawn step -/

/-- A reset that is drawn is taken, in any state (70_reset_and_hazards.md R210). -/
theorem step_of_reset_turn {s : State} {ans : Answers} {rest : List Turn}
    (h : s.draws.turns = ⟨.reset, ans⟩ :: rest) :
    step s = .next (resetBlock (afterDraw s ans rest)) :=
  step_of_enabled_turn h rfl

/-! ### What it leaves -/

theorem resetBlock_ph_get (s : State) (k : Phase) :
    (resetBlock s).ph.get k = .reset s.cfg.n k := by
  cases k <;> rfl

/-- With no handler registered startup is not complete, even with every channel absent (10_state.md
R40). -/
theorem initDone_of_no_handler {s : State} (h : s.handlerReg = false) : initDone s = false := by
  rw [initDone, h, Bool.false_and]

theorem irq_of_no_handler {s : State} (h : s.handlerReg = false) : irq s = false := by
  rw [irq, h, Bool.false_and]

theorem resetBlock_initDone (s : State) : initDone (resetBlock s) = false :=
  initDone_of_no_handler (resetBlock_handlerReg s)

theorem resetBlock_irq (s : State) : irq (resetBlock s) = false :=
  irq_of_no_handler (resetBlock_handlerReg s)

theorem resetBlock_seqActive (s : State) : seqActive (resetBlock s) = false := by
  rw [seqActive, resetBlock_runReq, resetBlock_fgTodo]
  rfl

theorem resetBlock_statusWord (s : State) : statusWord (resetBlock s) = 0 := by
  refine BitVec.eq_of_toNat_eq ?_
  rw [statusWord_toNat, resetBlock_initDone, resetBlock_seqActive, resetBlock_isrActive,
    resetBlock_handlerReg, resetBlock_irq, resetBlock_fgTodo]
  rfl

theorem resetBlock_flagsWord (s : State) (k : Phase) :
    flagsWord (resetBlock s) k = if s.cfg.present.get k then 4 else 0 := by
  refine BitVec.eq_of_toNat_eq ?_
  rw [flagsWord_toNat, resetBlock_ph_get, resetBlock_cfg]
  cases s.cfg.present.get k <;> rfl

/-- Settles O1: the drawn step is `resetBlock`, whose stored registers are those of
`PhaseRegs.reset` and of the launch state, and whose derived words are made of them. -/
theorem resetSetsEveryBlockRegister : Obligations.ResetSetsEveryBlockRegister := by
  intro s ans rest hturn
  exact ⟨_, step_of_reset_turn hturn, resetBlock_ph_get _, rfl, rfl, rfl, rfl, rfl, rfl, rfl, rfl,
    rfl, rfl, rfl, rfl, rfl, resetBlock_initDone _, resetBlock_seqActive _, resetBlock_irq _,
    congrArg some (resetBlock_statusWord _), fun k => congrArg some (resetBlock_flagsWord _ k)⟩

/-- Settles O2: the fields are those that `resetBlock` takes from the state it starts in. -/
theorem resetLeavesLogsAndPeripheral : Obligations.ResetLeavesLogsAndPeripheral :=
  fun _ _ _ hturn =>
    ⟨_, step_of_reset_turn hturn, rfl, rfl, rfl, rfl, rfl, rfl, rfl, rfl, rfl⟩

/-! ### The launch state -/

/-- A reset channel: its cursor is its offset, and nothing is initialised or pending (10_state.md
R23 to R26). -/
theorem resetOf_phaseInv (c : Config) (k : Phase) : PhaseInv (State.resetOf c) k :=
  .of_regs (r := .reset c.n k) (by cases k <;> rfl) (cursorOffset_lt c k) (Nat.zero_le _)
    (fun hi => absurd hi Bool.false_ne_true) (fun hi => absurd hi Bool.false_ne_true)
    (fun hp => absurd hp Bool.false_ne_true)

/-- On the launch premise the time is `LAST_T_INIT`, no source is pending and the logs are empty
(70_reset_and_hazards.md R210, R211). -/
theorem resetOf_inv (c : Config) : Inv (State.resetOf c) where
  phases := resetOf_phaseInv c
  scale_le := Nat.zero_le _
  carrier_eq := (Nat.zero_mul _).symm
  elec_range := .inl rfl
  last_le := Nat.le_refl _
  init_le := Nat.le_refl _
  handler_init hh := absurd hh Bool.false_ne_true
  seq_init ha := absurd ha Bool.false_ne_true
  isr_handled ha := absurd ha Bool.false_ne_true
  latched_pending ha := absurd ha Bool.false_ne_true
  sources := BitVec.zero_and
  pwm_legal := List.forall_mem_nil _
  adc_legal := List.forall_mem_nil _

/-- Settles O3: the default configuration is one of them. -/
theorem launchStateMeetsInvariant : Obligations.LaunchStateMeetsInvariant :=
  ⟨resetOf_inv, resetOf_inv Config.default⟩

end Sys2Proof.Machine
end

section
/-! Proofs. Before boot: the commands accepted then, beside those refused with `NOT_INIT`. -/

namespace Sys2Proof.Machine

/-! ### Accepted commands -/

/-- A command that raises no error (60_exceptions.md R186). -/
def Accepted (i : Instr) (s : State) : Prop := ∃ t, exec i s = .next t ∧ t.err = s.err

theorem tblRead_accepted {imm : BitVec 12} {s : State} (h : imm.toNat < s.cfg.n) :
    Accepted (.tblRead imm) s := by
  obtain ⟨t, ht⟩ := (lt_n_iff_exists_entry s.cfg _).mp h
  exact ⟨_, exec_tblRead_of_entry ht, rfl⟩

theorem adcInit_accepted {s : State} (hb : seqActive s = false) : Accepted .adcInit s :=
  ⟨adcInitProc s, congrArg Host.Outcome.next (foreground_of_idle hb adcInitProc), rfl⟩

/-- The first init of a channel, which does nothing where the channel is absent (41_phase_channel.md
R120). -/
theorem phInit_accepted {ph : BitVec 2} {k : Phase} {s : State} (hk : ph.toNat = k.toNat)
    (hb : seqActive s = false) (hinit : (s.ph.get k).chInit = false) :
    Accepted (.phInit ph) s := by
  obtain ⟨habsent, _, hfirst⟩ := phaseInitConfiguresChannel s ph k hk hb
  cases hp : s.cfg.present.get k with
  | false => exact ⟨s, habsent hp, rfl⟩
  | true => exact ⟨_, hfirst hp hinit, rfl⟩

theorem invInit_accepted {s : State} (hb : seqActive s = false) (hi : anyInit s = false) :
    Accepted .invInit s := by
  refine ⟨invInitProc s, ?_, invInitProc_err s⟩
  rw [exec_invInit_of_idle hb, invInitChecked, if_neg (ne_true_of_eq_false hi)]

/-! ### The statement -/

/-- Settles O15: the refusals are those of each command's own statement; the rest is accepted. -/
theorem beforeBootRefusals : Obligations.BeforeBootRefusals := by
  refine fun s hi hb => ⟨fun imm => ?update, ?scaler, ?iteration, fun v hv => ?run,
    fun ph k hk hpresent hinit => ⟨?apply, ?carrier⟩, rfl, fun _ => tblRead_accepted,
    adcInit_accepted hb, fun _ _ hk => phInit_accepted hk hb, invInit_accepted hb⟩
  case update =>
    obtain ⟨_, hrefused, _⟩ := updateAppliesFrequencyLaw s imm hb
    exact hrefused hi
  case scaler =>
    obtain ⟨hrefused, _⟩ := scalerCheckSamplesWhenDue s hb
    exact hrefused hi
  case iteration =>
    obtain ⟨hrefused, _⟩ := iterationRunsEachTaskOnce s hb
    exact hrefused hi
  case run =>
    obtain ⟨_, hrefused, _⟩ := controlWriteRequestsRun s v
    exact hrefused hv hi
  case apply =>
    obtain ⟨_, hrefused, _⟩ := phaseApplyConsumesPendingUpdate s ph k hk hb
    exact hrefused hpresent hinit
  case carrier =>
    obtain ⟨_, hrefused, _⟩ := phaseSetCarrierForwardsArg s ph k hk hb
    exact hrefused hpresent hinit

end Sys2Proof.Machine
end
